-- ==== Sys2Proof/Word.lean ====
section
/-!
DEFINITION. The plain types of OpenZKP-CORE: command words, bytes, register values and register numbers.
-/

namespace Sys2Proof

/-- A command word and a host register, 32 bits (30_encoding R70, 10_state R33). -/
abbrev Word := BitVec 32

/-- A byte of the operand buffer (20_memory R50). -/
abbrev Byte := BitVec 8

/-- The value field of an operand register, a 256-bit unsigned integer (10_state R22). -/
abbrev Val := BitVec 256

/-- A register number `0 … 15` (10_state R21, 30_encoding R72: every value is legal). -/
abbrev RegIdx := Fin 16

end Sys2Proof
end

