-- ==== Sys2Proof/Syntax.lean ====
section
/-!
DEFINITION. The 17 commands of 30_encoding R76, one constructor each. A format-M command carries any `len` and
`addr` as written: an illegal length is a command that faults (R79), not an undecodable word.
-/

namespace Sys2Proof

/-- The commands of OZKP-CORE command set 1.0 (00_scope R2, 30_encoding R76). -/
inductive Instr where
  /-- `FLD rd, addr, len`: field load (40_field R101). -/
  | fld (rd : RegIdx) (len addr : Nat)
  /-- `FST ra, addr, len`: field store (R102). -/
  | fst (ra : RegIdx) (len addr : Nat)
  /-- `FADD rd, ra, rb`: field addition (R103). -/
  | fadd (rd ra rb : RegIdx)
  /-- `FSUB rd, ra, rb`: field subtraction (R104). -/
  | fsub (rd ra rb : RegIdx)
  /-- `FMUL rd, ra, rb`: field multiplication (R105). -/
  | fmul (rd ra rb : RegIdx)
  /-- `FSQR rd, ra`: field squaring (R106). -/
  | fsqr (rd ra : RegIdx)
  /-- `FINV rd, ra`: field inversion (R107). -/
  | finv (rd ra : RegIdx)
  /-- `SLD rd, addr, len`: scalar load with reduction (42_scalar R131). -/
  | sld (rd : RegIdx) (len addr : Nat)
  /-- `SST ra, addr, len`: packed scalar store (R132). -/
  | sst (ra : RegIdx) (len addr : Nat)
  /-- `SUNPACK rd, ra`: enter the Montgomery domain (R133). -/
  | sunpack (rd ra : RegIdx)
  /-- `SPACK rd, ra`: leave the Montgomery domain (R134). -/
  | spack (rd ra : RegIdx)
  /-- `MMUL rd, ra, rb`: Montgomery multiplication (R135). -/
  | mmul (rd ra rb : RegIdx)
  /-- `MSQR rd, ra`: Montgomery squaring (R136). -/
  | msqr (rd ra : RegIdx)
  /-- `MINV rd, ra`: Montgomery inversion (R137). -/
  | minv (rd ra : RegIdx)
  /-- `CEQ ra, rb`: equality compare (41_select_compare R121). -/
  | ceq (ra rb : RegIdx)
  /-- `CSEL rd, ra, rb`: conditional select (R122). -/
  | csel (rd ra rb : RegIdx)
  /-- `SETC imm1`: set the choice flag (R123). -/
  | setc (imm1 : Bool)
  deriving DecidableEq, Repr

end Sys2Proof
end

