-- ==== Sys2Proof/WellFormed.lean ====
section
/-!
DEFINITION. Which commands fit a command word: `len` fits its 8 bits and `addr` its 12 bits (30_encoding R73).
Every register number and every `imm1` fits by its type (R72, R73).
-/

namespace Sys2Proof

/-- The operand fields of a format-M command fit the word: `len` is 0 … 255 and `addr` is 0 … 4095 (R73). -/
def fieldsFit (len addr : Nat) : Bool :=
  decide (len < 256) && decide (addr < 4096)

/-- The command has an encoding: an assembler accepts exactly these (30_encoding R83). -/
def Instr.wellFormed : Instr → Bool
  | .fld _ len addr => fieldsFit len addr
  | .fst _ len addr => fieldsFit len addr
  | .fadd _ _ _ => true
  | .fsub _ _ _ => true
  | .fmul _ _ _ => true
  | .fsqr _ _ => true
  | .finv _ _ => true
  | .sld _ len addr => fieldsFit len addr
  | .sst _ len addr => fieldsFit len addr
  | .sunpack _ _ => true
  | .spack _ _ => true
  | .mmul _ _ _ => true
  | .msqr _ _ => true
  | .minv _ _ => true
  | .ceq _ _ => true
  | .csel _ _ _ => true
  | .setc _ => true

/-- `Instr.wellFormed` as a proposition. -/
abbrev Instr.WellFormed (i : Instr) : Prop := i.wellFormed = true

end Sys2Proof
end

