-- ==== Sys2Proof/Decode.lean ====
section
/-!
DEFINITION. The command decoder and encoder, from the formats of 30_encoding R71 and the table of R76.
A command is delivered by value as one 32-bit word (10_state R26): there is no byte stream to lay out.
-/

namespace Sys2Proof

/-- Why a word is `ILLEGAL` (30_encoding R81): both reasons raise the same cause (60_exceptions R182). -/
inductive DecodeError where
  /-- The opcode byte is none of the 17 of R76. Safe: the core latches `ILLEGAL`, as the spec says. -/
  | unassignedOpcode (opcode : Nat)
  /-- A must-be-zero field of R71 is not zero (R78). Safe, as above. -/
  | nonzeroReserved (opcode : Nat)
  deriving DecidableEq, Repr

/-- `w[lo + width - 1 : lo]` as an unsigned integer (00_scope R9). -/
def fieldAt (w : Word) (lo width : Nat) : Nat :=
  (w.extractLsb' lo width).toNat

/-- A 4-bit register field at bit `lo` (R72). -/
def regAt (w : Word) (lo : Nat) : RegIdx :=
  (w.extractLsb' lo 4).toFin

/-- The opcode, bits 31:24 in every format (R70). -/
def opcodeOf (w : Word) : Nat := fieldAt w 24 8

/-- A word whose must-be-zero field of `width` bits at `lo` is checked (R78). -/
def needZero (w : Word) (lo width : Nat) (i : Instr) : Except DecodeError Instr :=
  if fieldAt w lo width = 0 then .ok i else .error (.nonzeroReserved (opcodeOf w))

/-- Format R3: `rd`, `ra`, `rb`, and `w[11:0]` zero (R71). -/
def decodeR3 (w : Word) (k : RegIdx → RegIdx → RegIdx → Instr) : Except DecodeError Instr :=
  needZero w 0 12 (k (regAt w 20) (regAt w 16) (regAt w 12))

/-- Format R2: `rd`, `ra`, and `w[15:0]` zero (R71). -/
def decodeR2 (w : Word) (k : RegIdx → RegIdx → Instr) : Except DecodeError Instr :=
  needZero w 0 16 (k (regAt w 20) (regAt w 16))

/-- Format M: `r`, `len = w[19:12]`, `addr = w[11:0]` (R71, R73). -/
def decodeM (w : Word) (k : RegIdx → Nat → Nat → Instr) : Except DecodeError Instr :=
  .ok (k (regAt w 20) (fieldAt w 12 8) (fieldAt w 0 12))

/-- Format RC: `ra`, `rb`, and `w[23:20]` and `w[11:0]` zero (R71). -/
def decodeRC (w : Word) (k : RegIdx → RegIdx → Instr) : Except DecodeError Instr :=
  if fieldAt w 20 4 = 0 then needZero w 0 12 (k (regAt w 16) (regAt w 12))
  else .error (.nonzeroReserved (opcodeOf w))

/-- Format I: `imm1 = w[0]`, and `w[23:1]` zero (R71). -/
def decodeI (w : Word) (k : Bool → Instr) : Except DecodeError Instr :=
  needZero w 1 23 (k (fieldAt w 0 1 == 1))

/-- The decoder: total on every 32-bit word (R77 step 1, R76, R81). -/
def decode (w : Word) : Except DecodeError Instr :=
  match opcodeOf w with
  | 0x10 => decodeM w .fld
  | 0x11 => decodeM w .fst
  | 0x12 => decodeR3 w .fadd
  | 0x13 => decodeR3 w .fsub
  | 0x14 => decodeR3 w .fmul
  | 0x15 => decodeR2 w .fsqr
  | 0x16 => decodeR2 w .finv
  | 0x20 => decodeM w .sld
  | 0x21 => decodeM w .sst
  | 0x22 => decodeR2 w .sunpack
  | 0x23 => decodeR2 w .spack
  | 0x24 => decodeR3 w .mmul
  | 0x25 => decodeR2 w .msqr
  | 0x26 => decodeR2 w .minv
  | 0x30 => decodeRC w .ceq
  | 0x31 => decodeR3 w .csel
  | 0x32 => decodeI w .setc
  | op => .error (.unassignedOpcode op)

/-- A format-M word: `opcode<<24 | r<<20 | len<<12 | addr` (R101); the fields of a well-formed command do not
overlap, so the sum is the spec's bitwise or. -/
def wordM (opcode : Nat) (r : RegIdx) (len addr : Nat) : Word :=
  BitVec.ofNat 32 (opcode * 2 ^ 24 + r.val * 2 ^ 20 + len * 2 ^ 12 + addr)

/-- A word of three register fields: `opcode<<24 | rd<<20 | ra<<16 | rb<<12` (R103); a format without one of
the fields has zero there (R71). -/
def wordR (opcode : Nat) (rd ra rb : RegIdx) : Word :=
  BitVec.ofNat 32 (opcode * 2 ^ 24 + rd.val * 2 ^ 20 + ra.val * 2 ^ 16 + rb.val * 2 ^ 12)

/-- The command word of a command (R71, R76). It is the spec's word for every well-formed command. -/
def encode : Instr → Word
  | .fld rd len addr => wordM 0x10 rd len addr
  | .fst ra len addr => wordM 0x11 ra len addr
  | .fadd rd ra rb => wordR 0x12 rd ra rb
  | .fsub rd ra rb => wordR 0x13 rd ra rb
  | .fmul rd ra rb => wordR 0x14 rd ra rb
  | .fsqr rd ra => wordR 0x15 rd ra 0
  | .finv rd ra => wordR 0x16 rd ra 0
  | .sld rd len addr => wordM 0x20 rd len addr
  | .sst ra len addr => wordM 0x21 ra len addr
  | .sunpack rd ra => wordR 0x22 rd ra 0
  | .spack rd ra => wordR 0x23 rd ra 0
  | .mmul rd ra rb => wordR 0x24 rd ra rb
  | .msqr rd ra => wordR 0x25 rd ra 0
  | .minv rd ra => wordR 0x26 rd ra 0
  | .ceq ra rb => wordR 0x30 0 ra rb
  | .csel rd ra rb => wordR 0x31 rd ra rb
  | .setc imm1 => BitVec.ofNat 32 (0x32 * 2 ^ 24 + imm1.toNat)

/-- One row of the command table (R75, R76): a word selects the row iff `(w AND mask) = pattern`. -/
structure OpRow where
  mnemonic : String
  pattern : Word
  mask : Word
  deriving DecidableEq, Repr

/-- The complete command table of R76, with its `match` and `mask` columns. -/
def opTable : List OpRow := [
  ⟨"FLD", 0x10000000, 0xFF000000⟩,
  ⟨"FST", 0x11000000, 0xFF000000⟩,
  ⟨"FADD", 0x12000000, 0xFF000FFF⟩,
  ⟨"FSUB", 0x13000000, 0xFF000FFF⟩,
  ⟨"FMUL", 0x14000000, 0xFF000FFF⟩,
  ⟨"FSQR", 0x15000000, 0xFF00FFFF⟩,
  ⟨"FINV", 0x16000000, 0xFF00FFFF⟩,
  ⟨"SLD", 0x20000000, 0xFF000000⟩,
  ⟨"SST", 0x21000000, 0xFF000000⟩,
  ⟨"SUNPACK", 0x22000000, 0xFF00FFFF⟩,
  ⟨"SPACK", 0x23000000, 0xFF00FFFF⟩,
  ⟨"MMUL", 0x24000000, 0xFF000FFF⟩,
  ⟨"MSQR", 0x25000000, 0xFF00FFFF⟩,
  ⟨"MINV", 0x26000000, 0xFF00FFFF⟩,
  ⟨"CEQ", 0x30000000, 0xFFF00FFF⟩,
  ⟨"CSEL", 0x31000000, 0xFF000FFF⟩,
  ⟨"SETC", 0x32000000, 0xFFFFFFFE⟩]

/-- `(w AND mask) = match` (R75). -/
def OpRow.selects (r : OpRow) (w : Word) : Bool := (w &&& r.mask) == r.pattern

/-- The mnemonic of a command in the table of R76. -/
def Instr.mnemonic : Instr → String
  | .fld _ _ _ => "FLD"
  | .fst _ _ _ => "FST"
  | .fadd _ _ _ => "FADD"
  | .fsub _ _ _ => "FSUB"
  | .fmul _ _ _ => "FMUL"
  | .fsqr _ _ => "FSQR"
  | .finv _ _ => "FINV"
  | .sld _ _ _ => "SLD"
  | .sst _ _ _ => "SST"
  | .sunpack _ _ => "SUNPACK"
  | .spack _ _ => "SPACK"
  | .mmul _ _ _ => "MMUL"
  | .msqr _ _ => "MSQR"
  | .minv _ _ => "MINV"
  | .ceq _ _ => "CEQ"
  | .csel _ _ _ => "CSEL"
  | .setc _ => "SETC"

/-- The decoder as the host asks for it: the instruction whose `nbits` table bits are `w`, every bit above them
zero. All 17 rows have 32 bits (R70), and the word is delivered whole, so no byte order enters. -/
def decodeTableWord (nbits w : Nat) : Option Instr :=
  match decode (BitVec.ofNat 32 (w % 2 ^ nbits)) with
  | .ok i => some i
  | .error _ => none

end Sys2Proof
end

