-- ==== Sys2Proof/Config.lean ====
section
/-!
DEFINITION. The parameters of 00_scope R5 as one record (`Config`), and the constants with no body (free values) behind
what the spec leaves open.
-/

namespace Sys2Proof

/-- The two readings of input bit 255 of a field load (40_field R101, 90_conflicts C1): `incl` is the spec's
`INCLUDE` (the default), `ignore` its `IGNORE`. -/
inductive TopBit where
  | incl
  | ignore
  deriving DecidableEq, Repr

/-- `P`, the field modulus (R6). -/
def fieldP : Nat := 2 ^ 255 - 19

/-- `BUF_SIZE`, the bytes of the operand buffer (R5, 20_memory R50). -/
def bufSize : Nat := 4096

/-- The configuration record of 00_scope R5, every parameter of its table a field. The parameters the spec fixes carry
the proof `fixed` that they have the spec's value; the others are the model's arguments (log 1). It is fixed for
the machine; State carries it unchanged. -/
structure Config where
  /-- `P`, the field modulus (R6). -/
  p : Nat
  /-- `NREG`, the number of operand registers (decision D2): the size of `RegIdx`. -/
  nreg : Nat
  /-- `REG_BITS`, the width of a value field (decision D2): the width of `Val`. -/
  regBits : Nat
  /-- `BUF_SIZE` (decision D9). -/
  bufSize : Nat
  /-- `CMD_BITS`, the width of a command word (decision D12): the width of `Word`. -/
  cmdBits : Nat
  /-- `FE_LIMBS` and `FE_RADIX`, the hidden field limb form (decision D22). -/
  feLimbs : Nat
  feRadix : Nat
  /-- `SC_LIMBS` and `SC_RADIX`, the hidden scalar limb form (decision D22). -/
  scLimbs : Nat
  scRadix : Nat
  /-- `FE_TOPBIT` (R101, decision D21). -/
  feTopBit : TopBit
  /-- `ELL`, the scalar modulus (R7). -/
  ell : Nat
  /-- `MONT_R`, the Montgomery radix (R8, decision D20). -/
  montR : Nat
  /-- `LAT`, OPEN (decision D29): which latency function the implementation has, read by `Config.latency` (log 11). -/
  lat : Nat
  /-- `HOST_BUS`, OPEN (decision D8): which physical protocol the host port has; only its transactions are specified,
  so nothing reads it (log 12). -/
  hostBus : Nat
  /-- The spec's values of the parameters it fixes (R5). -/
  fixed : p = 2 ^ 255 - 19 ∧ nreg = 16 ∧ regBits = 256 ∧ bufSize = 4096 ∧ cmdBits = 32 ∧
    feLimbs = 5 ∧ feRadix = 2 ^ 51 ∧ scLimbs = 5 ∧ scRadix = 2 ^ 52
  deriving DecidableEq, Repr

/-- The spec's default configuration: the fixed values of R5, `INCLUDE`, the digits of R7, and `R = 2^260`, the fifth
power of the scalar limb radix 2^52 (R8); the two OPEN parameters under a name of the model's (logs 11 and 12). -/
def Config.default : Config where
  p := 2 ^ 255 - 19
  nreg := 16
  regBits := 256
  bufSize := 4096
  cmdBits := 32
  feLimbs := 5
  feRadix := 2 ^ 51
  scLimbs := 5
  scRadix := 2 ^ 52
  feTopBit := .incl
  ell := 2 ^ 252 + 27742317777372353535851937790883648493
  montR := (2 ^ 52) ^ 5
  lat := 0
  hostBus := 0
  fixed := ⟨rfl, rfl, rfl, rfl, rfl, rfl, rfl, rfl, rfl⟩

/-- What 00_scope R7 and R8 let a claim assume of a configuration, but for primality: ℓ is odd, lies strictly
between 2^252 and 2^253, and is coprime to the radix. -/
abbrev Config.WF (c : Config) : Prop :=
  2 ^ 252 < c.ell ∧ c.ell < 2 ^ 253 ∧ c.ell % 2 = 1 ∧ Nat.gcd c.montR c.ell = 1

/-- A FREE VALUE (log 3): the byte that address `addr` of `BUF` holds after hard reset number `launch` until something
writes it. The spec leaves it any byte, stable until written (R45, R210, 93 U1); it has no body, so nothing
can be proved of it. -/
opaque Config.bufByte (launch addr : Nat) : BitVec 8

/-- A FREE VALUE (log 11): the OPEN latency of a command beyond its first cycle in the implementation that `lat` names,
a function of the opcode and `len` only (70_reset_and_hazards R223). -/
opaque Config.extraCycles (lat opcode len : Nat) : Nat

/-- `LAT(opcode, len)`, at least 1 (R5, R223). The model has no time (R224): no step reads it. -/
def Config.latency (c : Config) (opcode len : Nat) : Nat := Config.extraCycles c.lat opcode len + 1

end Sys2Proof
end

