-- ==== Sys2Proof/Machine/Arith.lean ====
section
/-!
DEFINITION. Integer arithmetic of 00_scope R9 and R10: powers and inverses modulo `m`, and the little-endian
reading and writing of byte strings.
-/

namespace Sys2Proof.Machine

/-- Square and multiply: `acc · b^e mod m` for `e < 2^k`, by the bits of `e` from the least. -/
def powModGo : Nat → Nat → Nat → Nat → Nat → Nat
  | 0, acc, _, _, _ => acc
  | k + 1, acc, b, e, m =>
    powModGo k (if e % 2 = 1 then acc * b % m else acc) (b * b % m) (e / 2) m

/-- `pow(a, e, m) = a^e mod m` (R9). -/
def powMod (a e m : Nat) : Nat :=
  powModGo (e.log2 + 1) (1 % m) (a % m) e m

/-- Euclid's loop on the remainders `r0`, `r1` with their factors of `a` modulo `m`. -/
def invModGo : Nat → Nat → Nat → Nat → Nat → Nat → Nat
  | 0, _, _, t0, _, _ => t0
  | k + 1, r0, r1, t0, t1, m =>
    if r1 = 0 then t0
    else invModGo k r1 (r0 % r1) t1 ((t0 + (m - r0 / r1 * t1 % m)) % m) m

/-- `a^−1 mod m` for `gcd(a, m) = 1` (R9). -/
def invMod (a m : Nat) : Nat :=
  invModGo (m + 1) m (a % m) 0 (1 % m) m

/-- `LE(b, n)`: the integer of a byte string, byte 0 least significant (R10, 20_memory R52). -/
def leNat : List Byte → Nat
  | [] => 0
  | b :: bs => b.toNat + 256 * leNat bs

/-- `ToLE(v, n)`: byte `i` is `v[8i+7:8i]` (R10). -/
def toLE (v : Nat) : Nat → List Byte
  | 0 => []
  | n + 1 => BitVec.ofNat 8 v :: toLE (v / 256) n

/-- `RINV_MOD_L = R^−1 mod ℓ` (R8), by Euclid; it means the inverse under `Config.WF` (log 8). -/
def rinv (c : Config) : Nat := invMod c.montR c.ell

/-- `R_MOD_L = R mod ℓ`, the Montgomery form of one (R8, 42_scalar R138). -/
def rModL (c : Config) : Nat := c.montR % c.ell

/-- `RR_MOD_L = R² mod ℓ` (R8). -/
def rrModL (c : Config) : Nat := c.montR * c.montR % c.ell

end Sys2Proof.Machine
end

