-- ==== Sys2Proof/Machine/State.lean ====
section
/-!
DEFINITION. The state of one OpenZKP-CORE instance (10_state R20), the host agent's remaining acts (00_scope R4,
10_state R26), the reasons a step can stop, and the state after reset (R45).
-/

namespace Sys2Proof.Machine

/-- The tag of an operand register (R22); its code is in `TAGS` (R23). -/
inductive Tag where
  | empty
  | fe
  | sp
  | sm
  deriving DecidableEq, Repr

/-- The fault causes of 60_exceptions R181; codes 6 to 15 are never latched and have no constructor (93 U9). -/
inductive Cause where
  | none
  | illegal
  | badLength
  | bufRange
  | emptyReg
  | domain
  deriving DecidableEq, Repr

/-- An operand register: the pair `(tag, val)` of R22. -/
structure Reg where
  tag : Tag
  val : Val
  deriving DecidableEq, Repr

/-- The bytes of `BUF` written since the last hard reset, as (address, byte) pairs, addresses strictly rising
(20_memory R50). An address it does not list has not been written: no value is listed for it, and what a
read of it gives is the free value of 93 U1 (`State.bufByte`, log 3). -/
abbrev Mem := List Host.Cell

/-- What the host agent does next (00_scope R4, 10_state R33 to R42): an access to the port at a byte offset of the
window, a hard reset, or nothing. -/
inductive HostAct where
  /-- The host lets this step pass: the core may complete its command (20_memory R61). -/
  | idle
  /-- `rst` is high at this clock edge (70_reset_and_hazards R210). -/
  | hardReset
  /-- A 32-bit read at offset `off`. -/
  | read32 (off : Nat)
  /-- A 32-bit write of `w` at offset `off`. -/
  | write32 (off : Nat) (w : Word)
  /-- An 8-bit read at offset `off`. -/
  | read8 (off : Nat)
  /-- An 8-bit write of `b` at offset `off`. -/
  | write8 (off : Nat) (b : Byte)
  deriving DecidableEq, Repr

/-- Why a step stops with a fault. A fault of a COMMAND never stops the machine: it is latched and is a next
state (60_exceptions R186). -/
inductive Fault where
  /-- Raised by the host port: an access at an offset outside the 8192-byte window of R33, which the spec says
  does not exist. Safe: the model stops where the spec gives no transaction (log 6). -/
  | outsideWindow (off : Nat)
  deriving DecidableEq, Repr

/-- Why a step has no meaning. -/
inductive Refusal where
  /-- Raised by `exec` alone, for a command that has no meaning yet. Safe: nothing can be proved of it. -/
  | notModelled (mnemonic : String)
  /-- Raised by the host port: an 8-bit or a misaligned 32-bit access to a register, or a misaligned 32-bit access to
  the BUF window. R33: "Register accesses are 32 bits wide at 4-byte-aligned offsets", "only these transactions
  are specified". Safe: the model stops where the spec gives no transaction (log 5). -/
  | hostAccessForm (off : Nat)
  deriving DecidableEq, Repr

/-- The whole state of one instance (log 12): the spec's own (R20), then the model's four fields. -/
structure State where
  /-- `x[0] … x[15]` (R21, R22). -/
  regs : Vector Reg 16
  /-- The choice flag `C` (R27). -/
  c : Bool
  /-- The operand buffer `BUF` (20_memory R50). -/
  buf : Mem
  /-- `FAULT` (R29). -/
  fault : Bool
  /-- `CAUSE` (R29). -/
  cause : Cause
  /-- `FAULTCMD` (R29, R37). -/
  faultcmd : Word
  /-- `CTRL.IE` (R36). -/
  ie : Bool
  /-- `CMDCNT` (R38). -/
  cmdcnt : Word
  /-- The pending command slot (R28). -/
  pend : Option Word
  /-- The model's own: the configuration, which no step changes (log 1). -/
  cfg : Config
  /-- The model's own: the number of hard resets, which names the free contents of `BUF` (log 3). -/
  launch : Nat
  /-- The model's own: the host agent's remaining acts, the next first (R26, log 2). -/
  host : List HostAct
  /-- The model's own: what the port has returned to the host's reads, oldest first (log 4). -/
  reads : List Word
  deriving DecidableEq, Repr

/-- The machine after hard reset (R45, R210), under the spec's default configuration, the host with nothing
to do (log 14). -/
def State.reset : State where
  regs := Vector.replicate 16 ⟨.empty, 0⟩
  c := false
  buf := []
  fault := false
  cause := .none
  faultcmd := 0
  ie := false
  cmdcnt := 0
  pend := none
  cfg := Config.default
  launch := 0
  host := []
  reads := []

end Sys2Proof.Machine
end

