-- ==== Sys2Proof/Machine/Ops.lean ====
section
/-!
DEFINITION. The named operations on the state: registers, the operand buffer, the end of a command (with or
without a fault) and the two resets.
-/

namespace Sys2Proof.Machine

/-- `x[i]` (00_scope R11). -/
def State.reg (s : State) (i : RegIdx) : Reg := s.regs[i.val]

/-- `x[i] <- r` (R11): the destination write, whatever tag the register held (10_state R24). -/
def State.setReg (s : State) (i : RegIdx) (r : Reg) : State :=
  { s with regs := s.regs.set i.val r }

/-- `C <- b` (R11). -/
def State.setC (s : State) (b : Bool) : State := { s with c := b }

/-- The byte written at an address since the last hard reset, if any. -/
def Mem.find : Mem → Nat → Option Byte
  | [], _ => none
  | (a, b) :: m, x => if a = x then some b else Mem.find m x

/-- One byte written, the pairs kept in rising order of address. -/
def Mem.put : Mem → Nat → Byte → Mem
  | [], x, y => [(x, y)]
  | (a, b) :: m, x, y =>
    if x < a then (x, y) :: (a, b) :: m
    else if x = a then (x, y) :: m
    else (a, b) :: Mem.put m x y

/-- The pairs rise strictly from `lo` and stay inside the buffer. -/
def Mem.wfFrom (lo : Nat) : Mem → Bool
  | [] => true
  | (a, _) :: m => decide (lo ≤ a) && decide (a < bufSize) && Mem.wfFrom (a + 1) m

/-- The canonical form of `BUF`: addresses strictly rising, each below 4096 (20_memory R50). An unlisted address has no
value of its own, so no entry can equal what it holds. -/
def Mem.wf (m : Mem) : Bool := Mem.wfFrom 0 m

/-- Consecutive bytes written from `addr` upward (20_memory R54). -/
def Mem.putAll : Mem → Nat → List Byte → Mem
  | m, _, [] => m
  | m, addr, b :: bs => Mem.putAll (Mem.put m addr b) (addr + 1) bs

/-- `BUF[addr]`: the byte written there, or this launch's free byte (93 U1, log 3). -/
def State.bufByte (s : State) (addr : Nat) : Byte :=
  (Mem.find s.buf addr).getD (Config.bufByte s.launch addr)

/-- `MemRead(addr, n)` (20_memory R53). -/
def State.memRead (s : State) (addr : Nat) : Nat → List Byte
  | 0 => []
  | n + 1 => s.bufByte addr :: s.memRead (addr + 1) n

/-- `MemWrite(addr, n, b)`, `n` the length of the byte string (R54). -/
def State.memWrite (s : State) (addr : Nat) (bs : List Byte) : State :=
  { s with buf := Mem.putAll s.buf addr bs }

/-- The end of a command without a fault: it is counted and the slot is free (20_memory R60, 10_state R38). -/
def State.retire (s : State) : State :=
  { s with cmdcnt := s.cmdcnt + 1, pend := none }

/-- FAULT ENTRY, `raise cause(w)`: the latch is written, the slot is free, nothing else changes
(60_exceptions R186). It is the hardware's only exception; there is no return from it but reset (R193). -/
def State.takeFault (s : State) (cause : Cause) (w : Word) : State :=
  { s with fault := true, cause := cause, faultcmd := w, pend := none }

/-- The completion of a command whose checks came out as `check` and whose effect, if none fails, leaves `done`
(20_memory R60, 30_encoding R77 steps 2 to 6). -/
def finish (check : Option Cause) (i : Instr) (s done : State) : Host.Outcome State Fault Refusal :=
  match check with
  | some cause => .next (s.takeFault cause (encode i))
  | none => .next done.retire

/-- SOFT RESET (70_reset_and_hazards R211): every piece of the core's state takes its reset value, but `BUF` is
kept; the host agent and the configuration are not the core's. -/
def State.softReset (s : State) : State :=
  { s with
    regs := Vector.replicate 16 ⟨.empty, 0⟩
    c := false
    fault := false
    cause := .none
    faultcmd := 0
    ie := false
    cmdcnt := 0
    pend := none }

/-- HARD RESET (R210, R212): as the soft reset, and `BUF` takes the unspecified contents of a new launch. -/
def State.hardReset (s : State) : State :=
  { s.softReset with buf := [], launch := s.launch + 1 }

end Sys2Proof.Machine
end

