-- ==== Sys2Proof/Machine/Operands.lean ====
section
/-!
DEFINITION. The operand checks of 30_encoding R77 (length, range, empty, domain, in that order; 60_exceptions R189)
and the operand forms: a value read from the buffer, a result written under a tag.
-/

namespace Sys2Proof.Machine

/-- The length check, then the range check, of a format-M command on a buffer of `size` bytes (R79, R80). -/
def bufCheck (size : Nat) (legal : List Nat) (len addr : Nat) : Option Cause :=
  if len ∉ legal then some .badLength
  else if addr + len > size then some .bufRange
  else none

/-- `need` over all the sources of a command: any EMPTY source is `EMPTY_REG`, whatever the others hold; then any
other tag than the required one is `DOMAIN` (R184, R185, R189). -/
def needAll (tags : List (Tag × Tag)) : Option Cause :=
  if tags.any (fun t => t.1 == .empty) then some .emptyReg
  else if tags.any (fun t => t.1 != t.2) then some .domain
  else none

/-- `need(ra, t)` (00_scope R11). -/
def State.need1 (s : State) (ra : RegIdx) (t : Tag) : Option Cause :=
  needAll [((s.reg ra).tag, t)]

/-- `need(ra, t); need(rb, t)` in the order of R189. -/
def State.need2 (s : State) (ra rb : RegIdx) (t : Tag) : Option Cause :=
  needAll [((s.reg ra).tag, t), ((s.reg rb).tag, t)]

/-- The check of `CEQ` and `CSEL`: both sources non-EMPTY and of one tag (41_select_compare R121, R122). -/
def State.needSame (s : State) (ra rb : RegIdx) : Option Cause :=
  needAll [((s.reg ra).tag, (s.reg ra).tag), ((s.reg rb).tag, (s.reg ra).tag)]

/-- The integer a register holds. -/
def State.valOf (s : State) (i : RegIdx) : Nat := (s.reg i).val.toNat

/-- `x[rd] <- (t, v)` for an integer `v` (R11). -/
def State.setVal (s : State) (rd : RegIdx) (t : Tag) (v : Nat) : State :=
  s.setReg rd ⟨t, BitVec.ofNat 256 v⟩

/-- `LE(MemRead(addr, n), n)` (20_memory R52). -/
def State.readLE (s : State) (addr n : Nat) : Nat := leNat (s.memRead addr n)

/-- `MemWrite(addr, 32, ToLE(x[ra].val, 32))` (40_field R102, 42_scalar R132). -/
def State.storeVal (s : State) (ra : RegIdx) (addr : Nat) : State :=
  s.memWrite addr (toLE (s.valOf ra) 32)

end Sys2Proof.Machine
end

