-- ==== Sys2Proof/Machine/Field.lean ====
section
/-!
DEFINITION. The field commands (40_field R100 to R107): exact arithmetic modulo `P` on canonical integers.
-/

namespace Sys2Proof.Machine

/-- The integer `FLD` takes from its 32 bytes under `FE_TOPBIT` (R101). -/
def fieldInput (t : TopBit) (n : Nat) : Nat :=
  match t with
  | .incl => n
  | .ignore => n % 2 ^ 255

/-- `(a − b) mod p`, the representative in `[0, p)` (R104). -/
def fieldSubVal (p a b : Nat) : Nat := (((a : Int) - (b : Int)) % (p : Int)).toNat

/-- `FLD rd, addr, len` (R101). -/
def execFld (rd : RegIdx) (len addr : Nat) (s : State) : Host.Outcome State Fault Refusal :=
  finish (bufCheck s.cfg.bufSize [32] len addr) (.fld rd len addr) s
    (s.setVal rd .fe (fieldInput s.cfg.feTopBit (s.readLE addr 32) % s.cfg.p))

/-- `FST ra, addr, len` (R102). -/
def execFst (ra : RegIdx) (len addr : Nat) (s : State) : Host.Outcome State Fault Refusal :=
  finish ((bufCheck s.cfg.bufSize [32] len addr).or (s.need1 ra .fe)) (.fst ra len addr) s (s.storeVal ra addr)

/-- `FADD rd, ra, rb` (R103). -/
def execFadd (rd ra rb : RegIdx) (s : State) : Host.Outcome State Fault Refusal :=
  finish (s.need2 ra rb .fe) (.fadd rd ra rb) s
    (s.setVal rd .fe ((s.valOf ra + s.valOf rb) % s.cfg.p))

/-- `FSUB rd, ra, rb` (R104). -/
def execFsub (rd ra rb : RegIdx) (s : State) : Host.Outcome State Fault Refusal :=
  finish (s.need2 ra rb .fe) (.fsub rd ra rb) s
    (s.setVal rd .fe (fieldSubVal s.cfg.p (s.valOf ra) (s.valOf rb)))

/-- `FMUL rd, ra, rb` (R105). -/
def execFmul (rd ra rb : RegIdx) (s : State) : Host.Outcome State Fault Refusal :=
  finish (s.need2 ra rb .fe) (.fmul rd ra rb) s
    (s.setVal rd .fe (s.valOf ra * s.valOf rb % s.cfg.p))

/-- `FSQR rd, ra` (R106). -/
def execFsqr (rd ra : RegIdx) (s : State) : Host.Outcome State Fault Refusal :=
  finish (s.need1 ra .fe) (.fsqr rd ra) s
    (s.setVal rd .fe (s.valOf ra * s.valOf ra % s.cfg.p))

/-- `FINV rd, ra`: Fermat inversion, 0 gives 0 with no fault (R107, 90_conflicts C2, log 13). -/
def execFinv (rd ra : RegIdx) (s : State) : Host.Outcome State Fault Refusal :=
  finish (s.need1 ra .fe) (.finv rd ra) s
    (s.setVal rd .fe (powMod (s.valOf ra) (s.cfg.p - 2) s.cfg.p))

end Sys2Proof.Machine
end

