-- ==== Sys2Proof/Machine/Scalar.lean ====
section
/-!
DEFINITION. The scalar commands (42_scalar R130 to R137): exact arithmetic modulo `ELL`, in the packed and the
Montgomery domain.
-/

namespace Sys2Proof.Machine

/-- The integer an `SM` value represents: `v · R^−1 mod ℓ` (R130). -/
def fromMont (c : Config) (v : Nat) : Nat := v * rinv c % c.ell

/-- The Montgomery form of an integer: `v · R mod ℓ` (R133). -/
def toMont (c : Config) (v : Nat) : Nat := v * c.montR % c.ell

/-- `(a · b · R^−1) mod ℓ` (R135). -/
def montMul (c : Config) (a b : Nat) : Nat := a * b * rinv c % c.ell

/-- The Montgomery form of the inverse of the represented integer, by Fermat; 0 gives 0 (R137). -/
def montInv (c : Config) (v : Nat) : Nat := toMont c (powMod (fromMont c v) (c.ell - 2) c.ell)

/-- `SLD rd, addr, len` (R131): the only command with two legal lengths (90_conflicts C7). -/
def execSld (rd : RegIdx) (len addr : Nat) (s : State) : Host.Outcome State Fault Refusal :=
  finish (bufCheck s.cfg.bufSize [32, 64] len addr) (.sld rd len addr) s
    (s.setVal rd .sp (s.readLE addr len % s.cfg.ell))

/-- `SST ra, addr, len` (R132). -/
def execSst (ra : RegIdx) (len addr : Nat) (s : State) : Host.Outcome State Fault Refusal :=
  finish ((bufCheck s.cfg.bufSize [32] len addr).or (s.need1 ra .sp)) (.sst ra len addr) s (s.storeVal ra addr)

/-- `SUNPACK rd, ra` (R133). -/
def execSunpack (rd ra : RegIdx) (s : State) : Host.Outcome State Fault Refusal :=
  finish (s.need1 ra .sp) (.sunpack rd ra) s (s.setVal rd .sm (toMont s.cfg (s.valOf ra)))

/-- `SPACK rd, ra` (R134). -/
def execSpack (rd ra : RegIdx) (s : State) : Host.Outcome State Fault Refusal :=
  finish (s.need1 ra .sm) (.spack rd ra) s (s.setVal rd .sp (fromMont s.cfg (s.valOf ra)))

/-- `MMUL rd, ra, rb` (R135). -/
def execMmul (rd ra rb : RegIdx) (s : State) : Host.Outcome State Fault Refusal :=
  finish (s.need2 ra rb .sm) (.mmul rd ra rb) s
    (s.setVal rd .sm (montMul s.cfg (s.valOf ra) (s.valOf rb)))

/-- `MSQR rd, ra` (R136). -/
def execMsqr (rd ra : RegIdx) (s : State) : Host.Outcome State Fault Refusal :=
  finish (s.need1 ra .sm) (.msqr rd ra) s
    (s.setVal rd .sm (montMul s.cfg (s.valOf ra) (s.valOf ra)))

/-- `MINV rd, ra` (R137). -/
def execMinv (rd ra : RegIdx) (s : State) : Host.Outcome State Fault Refusal :=
  finish (s.need1 ra .sm) (.minv rd ra) s (s.setVal rd .sm (montInv s.cfg (s.valOf ra)))

end Sys2Proof.Machine
end

