-- ==== Sys2Proof/Machine/Flags.lean ====
section
/-!
DEFINITION. The one flag: how `CEQ` computes the choice flag and how `CSEL` reads it (10_state R27).
-/

namespace Sys2Proof.Machine

/-- `C <- 1 if x[ra].val = x[rb].val else 0` (41_select_compare R121). -/
def State.compareFlag (s : State) (ra rb : RegIdx) : Bool :=
  (s.reg ra).val == (s.reg rb).val

/-- The register `CSEL` selects: `C` = 0 takes `ra`, `C` = 1 takes `rb` (R122, decision D7), under the tag of `ra`. -/
def State.selected (s : State) (ra rb : RegIdx) : Reg :=
  ⟨(s.reg ra).tag, if s.c then (s.reg rb).val else (s.reg ra).val⟩

end Sys2Proof.Machine
end

