-- ==== Sys2Proof/Machine/SelectCompare.lean ====
section
/-!
DEFINITION. The three commands that read or write the choice flag (41_select_compare R120 to R123).
-/

namespace Sys2Proof.Machine

/-- `CEQ ra, rb` (R121). -/
def execCeq (ra rb : RegIdx) (s : State) : Host.Outcome State Fault Refusal :=
  finish (s.needSame ra rb) (.ceq ra rb) s (s.setC (s.compareFlag ra rb))

/-- `CSEL rd, ra, rb` (R122): both sources are checked whatever `C` is. -/
def execCsel (rd ra rb : RegIdx) (s : State) : Host.Outcome State Fault Refusal :=
  finish (s.needSame ra rb) (.csel rd ra rb) s (s.setReg rd (s.selected ra rb))

/-- `SETC imm1` (R123): it names no register and has no check. -/
def execSetc (imm1 : Bool) (s : State) : Host.Outcome State Fault Refusal :=
  finish none (.setc imm1) s (s.setC imm1)

end Sys2Proof.Machine
end

