-- ==== Sys2Proof/Machine/Dispatch.lean ====
section
/-!
DEFINITION. The dispatch of a decoded command to its meaning (30_encoding R76, R77).
-/

namespace Sys2Proof.Machine

def exec (i : Instr) (s : State) : Host.Outcome State Fault Refusal :=
  match i with
  | .fld rd len addr => Sys2Proof.Machine.execFld rd len addr s
  | .fst ra len addr => Sys2Proof.Machine.execFst ra len addr s
  | .fadd rd ra rb => Sys2Proof.Machine.execFadd rd ra rb s
  | .fsub rd ra rb => Sys2Proof.Machine.execFsub rd ra rb s
  | .fmul rd ra rb => Sys2Proof.Machine.execFmul rd ra rb s
  | .fsqr rd ra => Sys2Proof.Machine.execFsqr rd ra s
  | .finv rd ra => Sys2Proof.Machine.execFinv rd ra s
  | .sld rd len addr => Sys2Proof.Machine.execSld rd len addr s
  | .sst ra len addr => Sys2Proof.Machine.execSst ra len addr s
  | .sunpack rd ra => Sys2Proof.Machine.execSunpack rd ra s
  | .spack rd ra => Sys2Proof.Machine.execSpack rd ra s
  | .mmul rd ra rb => Sys2Proof.Machine.execMmul rd ra rb s
  | .msqr rd ra => Sys2Proof.Machine.execMsqr rd ra s
  | .minv rd ra => Sys2Proof.Machine.execMinv rd ra s
  | .ceq ra rb => Sys2Proof.Machine.execCeq ra rb s
  | .csel rd ra rb => Sys2Proof.Machine.execCsel rd ra rb s
  | .setc imm1 => Sys2Proof.Machine.execSetc imm1 s

end Sys2Proof.Machine
end

