-- ==== Sys2Proof/Machine/HostPort.lean ====
section
/-!
DEFINITION. The host port (10_state R33 to R42): the offset map, the read values of the registers, the writes, the
holding of transactions while a command is pending, and the interrupt output (60_exceptions R190).
-/

namespace Sys2Proof.Machine

/-- The tag codes of 10_state R23. -/
def Tag.code : Tag → Nat
  | .empty => 0
  | .fe => 1
  | .sp => 2
  | .sm => 3

/-- The cause codes of 60_exceptions R181. -/
def Cause.code : Cause → Nat
  | .none => 0
  | .illegal => 1
  | .badLength => 2
  | .bufRange => 3
  | .emptyReg => 4
  | .domain => 5

/-- `BUSY`: a command is pending (R28). -/
def State.busy (s : State) : Bool := s.pend.isSome

/-- The interrupt output: `irq` = `FAULT` ∧ `IE` (60_exceptions R190). -/
def State.irq (s : State) : Bool := s.fault && s.ie

/-- `STATUS` (R35): BUSY in bit 0, FAULT in bit 1, C in bit 2, CAUSE in bits 7:4, the rest 0. -/
def State.statusWord (s : State) : Word :=
  BitVec.ofNat 32 (s.busy.toNat + 2 * s.fault.toNat + 4 * s.c.toNat + 16 * s.cause.code)

/-- `CTRL` as read (R36): IE in bit 0, SRST and the reserved bits read 0. -/
def State.ctrlWord (s : State) : Word := BitVec.ofNat 32 s.ie.toNat

/-- The tag codes of the first `n` registers, two bits each (R39). -/
def State.tagsGo (s : State) : Nat → Nat
  | 0 => 0
  | n + 1 => s.tagsGo n + (if h : n < 16 then (s.reg ⟨n, h⟩).tag.code * 4 ^ n else 0)

/-- `TAGS` (R39): `TAGS[2i+1:2i]` is the tag code of `x[i]`. -/
def State.tagsWord (s : State) : Word := BitVec.ofNat 32 (s.tagsGo 16)

/-- What an offset of the port is (R33). -/
inductive Target where
  | cmd
  | status
  | ctrl
  | faultcmd
  | cmdcnt
  | tags
  | unmapped
  | buf (addr : Nat)
  /-- A form of access to a register or to the BUF window that R33 and R40 do not list. -/
  | unlisted
  /-- Outside the 8192-byte window. -/
  | outside
  deriving DecidableEq, Repr

/-- The offsets `0x0018` to `0x0FFF` (R33): no form of access to them is a fault of the port (R41). An access belongs to
the offset it is made at (log 5). -/
def unmappedOffset (off : Nat) : Bool := decide (0x0018 ≤ off) && decide (off < 0x1000)

/-- The target of a 32-bit access: an unmapped offset, aligned or not (R41), or a register (R33) or word of the BUF window
(R40) at a 4-byte-aligned offset. -/
def target32 (off : Nat) : Target :=
  if off ≥ 0x2000 then .outside
  else if unmappedOffset off then .unmapped
  else if off % 4 ≠ 0 then .unlisted
  else if off ≥ 0x1000 then .buf (off - 0x1000)
  else if off = 0x0000 then .cmd
  else if off = 0x0004 then .status
  else if off = 0x0008 then .ctrl
  else if off = 0x000C then .faultcmd
  else if off = 0x0010 then .cmdcnt
  else .tags

/-- The target of an 8-bit access (R40): a byte of the BUF window, or an unmapped offset (R41). -/
def target8 (off : Nat) : Target :=
  if off ≥ 0x2000 then .outside
  else if unmappedOffset off then .unmapped
  else if off ≥ 0x1000 then .buf (off - 0x1000)
  else .unlisted

/-- The target of an act of the host, if it is an access to the port. -/
def HostAct.target : HostAct → Option Target
  | .idle => none
  | .hardReset => none
  | .read32 off => some (target32 off)
  | .write32 off _ => some (target32 off)
  | .read8 off => some (target8 off)
  | .write8 off _ => some (target8 off)

/-- Whether a READ of the target waits for the core (R42, log 5): only the BUF window does. -/
def Target.readWaits : Target → Bool
  | .buf _ => true
  | _ => false

/-- Whether a WRITE of the target waits for the core (R42): CMD, CTRL and the BUF window do. -/
def Target.writeWaits : Target → Bool
  | .buf _ => true
  | .cmd => true
  | .ctrl => true
  | _ => false

/-- The acts R42 holds while a command is pending. -/
def HostAct.waits : HostAct → Bool
  | .idle => false
  | .hardReset => false
  | .read32 off => (target32 off).readWaits
  | .write32 off _ => (target32 off).writeWaits
  | .read8 off => (target8 off).readWaits
  | .write8 off _ => (target8 off).writeWaits

/-- The port returns `v` to the host (the model's record of it, log 4). -/
def State.answer (s : State) (v : Word) : State := { s with reads := s.reads ++ [v] }

/-- What a 32-bit read of a target returns (R34 to R41); `none` for a target that is no transaction. -/
def State.readWord (s : State) : Target → Option Word
  | .cmd => some 0
  | .status => some s.statusWord
  | .ctrl => some s.ctrlWord
  | .faultcmd => some s.faultcmd
  | .cmdcnt => some s.cmdcnt
  | .tags => some s.tagsWord
  | .unmapped => some 0
  | .buf addr => some (BitVec.ofNat 32 (leNat (s.memRead addr 4)))
  | .unlisted => none
  | .outside => none

/-- What an 8-bit read of a target returns, widened with zeros (R40, R41). -/
def State.readByte (s : State) : Target → Option Word
  | .buf addr => some ((s.bufByte addr).setWidth 32)
  | .unmapped => some 0
  | _ => none

/-- A write of `w` to `CMD` while nothing is pending (R34): accepted, or discarded while `FAULT` = 1
(60_exceptions R192). -/
def State.writeCmd (s : State) (w : Word) : State :=
  if s.fault then s else { s with pend := some w }

/-- A write of `w` to `CTRL` (R36): bit 1 is the soft reset and wins; else bit 0 is `IE`. -/
def State.writeCtrl (s : State) (w : Word) : State :=
  if w.getLsbD 1 then s.softReset else { s with ie := w.getLsbD 0 }

/-- A 32-bit write (R34 to R41): read-only registers and unmapped offsets ignore it. -/
def State.writeWord (s : State) (w : Word) : Target → Option State
  | .cmd => some (s.writeCmd w)
  | .status => some s
  | .ctrl => some (s.writeCtrl w)
  | .faultcmd => some s
  | .cmdcnt => some s
  | .tags => some s
  | .unmapped => some s
  | .buf addr => some (s.memWrite addr (toLE w.toNat 4))
  | .unlisted => none
  | .outside => none

/-- An 8-bit write (R40, R41). -/
def State.writeByte (s : State) (b : Byte) : Target → Option State
  | .buf addr => some (s.memWrite addr [b])
  | .unmapped => some s
  | _ => none

/-- The stop of an access that is no transaction of the spec: outside the window of R33, or of a form that its sentence
"only these transactions are specified" leaves out (logs 5 and 6). -/
def noTransaction (off : Nat) : Host.Outcome State Fault Refusal :=
  if off ≥ 0x2000 then .fault (.outsideWindow off) else .refused (.hostAccessForm off)

/-- The outcome of an access that gave `r`. -/
def portOutcome (off : Nat) (r : Option State) : Host.Outcome State Fault Refusal :=
  match r with
  | some t => .next t
  | none => noTransaction off

/-- One act of the host on the state (R33 to R42, 70_reset_and_hazards R210). -/
def hostAct (a : HostAct) (s : State) : Host.Outcome State Fault Refusal :=
  match a with
  | .idle => .next s
  | .hardReset => .next s.hardReset
  | .read32 off => portOutcome off ((s.readWord (target32 off)).map s.answer)
  | .write32 off w => portOutcome off (s.writeWord w (target32 off))
  | .read8 off => portOutcome off ((s.readByte (target8 off)).map s.answer)
  | .write8 off b => portOutcome off (s.writeByte b (target8 off))

/-- The host agent with its next act taken. -/
def State.popHost (s : State) : State := { s with host := s.host.tail }

/-- The act that takes the next step, if the host takes it: its next act, unless that act leaves the turn
to the core or waits for it (R42). -/
def State.hostTurn (s : State) : Option HostAct :=
  match s.host with
  | [] => none
  | .idle :: _ => none
  | a :: _ => if s.busy && a.waits then none else some a

/-- The state the core steps from when the turn is its own: an `idle` act of the host is used up, a waiting one
stays. -/
def State.coreTurn (s : State) : State :=
  match s.host with
  | .idle :: _ => s.popHost
  | _ => s

end Sys2Proof.Machine
end

