-- ==== Sys2Proof/Machine/Step.lean ====
section
/-!
DEFINITION. One step of the system of core and host (00_scope R4): an act of the host, or the core's completion step
(20_memory R60).
-/

namespace Sys2Proof.Machine

/-- The completion of the command word `w` (R60): an undecodable word latches `ILLEGAL` (60_exceptions R182), a
decoded one runs. -/
def completeWord (w : Word) (s : State) : Host.Outcome State Fault Refusal :=
  match decode w with
  | .ok i => exec i s
  | .error _ => .next (s.takeFault .illegal w)

/-- The core's step: completion, enabled iff a command is pending; an idle core keeps all state (R60, R200). -/
def coreStep (s : State) : Host.Outcome State Fault Refusal :=
  match s.pend with
  | some w => completeWord w s
  | none => .next s

/-- One step: the host's next act where it is the host's turn, else the core's (20_memory R61, log 2). -/
def step (s : State) : Host.Outcome State Fault Refusal :=
  match s.hostTurn with
  | some a => hostAct a s.popHost
  | none => coreStep s.coreTurn

/-- The state with the command word pending (a word the host wrote to `CMD` and the port accepted, R34), so that the
very next step completes it: if the host's next act would come first, the host lets one step pass. -/
def State.withFetchWord (s : State) (nbits w : Nat) : State :=
  { s with
    pend := some (BitVec.ofNat 32 (w % 2 ^ nbits))
    host := match s.host with
      | [] => []
      | .idle :: rest => .idle :: rest
      | a :: rest => if a.waits then a :: rest else .idle :: a :: rest }

end Sys2Proof.Machine
end

