-- ==== Sys2Proof/Machine/Datapath.lean ====
section
/-!
DEFINITION. The hidden datapath (43_datapath R150 to R168): limb forms, the field reduction pipeline, the Montgomery
multiplier, the two inverter chains, the comparator, the select, and the micro-operation traces.
No step reads it (10_state R31): the commands are defined by the integer rules, and the statements say that the
datapath computes the same. Limbs are exact integers here; that they fit their 64-bit registers and 128-bit
accumulators is a claim (R151), not a truncation (log 9).
-/

namespace Sys2Proof.Machine

/-- Five limbs, the least significant first (R150, R158). -/
structure Limbs where
  l0 : Nat
  l1 : Nat
  l2 : Nat
  l3 : Nat
  l4 : Nat
  deriving DecidableEq, Repr

/-- `M51 = 2^51 − 1`. -/
def m51 : Nat := 2 ^ 51 - 1

/-- `M52 = 2^52 − 1`. -/
def m52 : Nat := 2 ^ 52 - 1

/-- The integer `H` of field limbs, radix 2^51 (R150). -/
def value51 (h : Limbs) : Nat :=
  h.l0 + h.l1 * 2 ^ 51 + h.l2 * 2 ^ 102 + h.l3 * 2 ^ 153 + h.l4 * 2 ^ 204

/-- The integer `S` of scalar limbs, radix 2^52 (R158). -/
def value52 (s : Limbs) : Nat :=
  s.l0 + s.l1 * 2 ^ 52 + s.l2 * 2 ^ 104 + s.l3 * 2 ^ 156 + s.l4 * 2 ^ 208

/-- Every limb is below `b`. -/
abbrev Limbs.below (b : Nat) (h : Limbs) : Prop :=
  h.l0 < b ∧ h.l1 < b ∧ h.l2 < b ∧ h.l3 < b ∧ h.l4 < b

/-- The field limb bound between commands: each limb below 2^52 (R151). -/
abbrev Limbs.FeBound (h : Limbs) : Prop := h.below (2 ^ 52)

/-- A canonical field limb form: limbs at most `M51` and `H < P` (R151). -/
abbrev Limbs.FeCanonical (h : Limbs) : Prop := h.below (2 ^ 51) ∧ value51 h < fieldP

/-- A canonical scalar limb form: limbs at most `M52` and `S < ℓ` (R158). -/
abbrev Limbs.ScCanonical (ell : Nat) (s : Limbs) : Prop := s.below (2 ^ 52) ∧ value52 s < ell

/-! ### The field unit -/

/-- The field deserializer of `FLD` (R152): slices of 51 bits; bit 255 adds 19 under `INCLUDE` and is dropped
under `IGNORE`. -/
def fieldDeserialize (t : TopBit) (n : Nat) : Limbs where
  l0 := (n &&& m51) + (match t with
    | .incl => 19 * ((n >>> 255) &&& 1)
    | .ignore => 0)
  l1 := (n >>> 51) &&& m51
  l2 := (n >>> 102) &&& m51
  l3 := (n >>> 153) &&& m51
  l4 := (n >>> 204) &&& m51

/-- The five columns of the field product, the terms of weight 2^255 and above folded by 19 (R153). -/
def fieldColumns (a b : Limbs) : Limbs :=
  let b1 := 19 * b.l1
  let b2 := 19 * b.l2
  let b3 := 19 * b.l3
  let b4 := 19 * b.l4
  { l0 := a.l0 * b.l0 + a.l4 * b1 + a.l3 * b2 + a.l2 * b3 + a.l1 * b4
    l1 := a.l1 * b.l0 + a.l0 * b.l1 + a.l4 * b2 + a.l3 * b3 + a.l2 * b4
    l2 := a.l2 * b.l0 + a.l1 * b.l1 + a.l0 * b.l2 + a.l4 * b3 + a.l3 * b4
    l3 := a.l3 * b.l0 + a.l2 * b.l1 + a.l1 * b.l2 + a.l0 * b.l3 + a.l4 * b4
    l4 := a.l4 * b.l0 + a.l3 * b.l1 + a.l2 * b.l2 + a.l1 * b.l3 + a.l0 * b.l4 }

/-- The carry chain of the field multiplier (R154). -/
def carryChain (c : Limbs) : Limbs :=
  let c1 := c.l1 + (c.l0 >>> 51)
  let c2 := c.l2 + (c1 >>> 51)
  let c3 := c.l3 + (c2 >>> 51)
  let c4 := c.l4 + (c3 >>> 51)
  let k := c4 >>> 51
  let h0 := (c.l0 &&& m51) + 19 * k
  { l0 := h0 &&& m51
    l1 := (c1 &&& m51) + (h0 >>> 51)
    l2 := c2 &&& m51
    l3 := c3 &&& m51
    l4 := c4 &&& m51 }

/-- `FMUL` on limbs (R153, R154). -/
def fieldMulLimbs (a b : Limbs) : Limbs := carryChain (fieldColumns a b)

/-- The columns of the field square from 15 products, by the symmetry of the factors (R155). -/
def squareColumns (a : Limbs) : Limbs where
  l0 := a.l0 * a.l0 + 38 * (a.l1 * a.l4) + 38 * (a.l2 * a.l3)
  l1 := 2 * (a.l0 * a.l1) + 38 * (a.l2 * a.l4) + 19 * (a.l3 * a.l3)
  l2 := 2 * (a.l0 * a.l2) + a.l1 * a.l1 + 38 * (a.l3 * a.l4)
  l3 := 2 * (a.l0 * a.l3) + 2 * (a.l1 * a.l2) + 19 * (a.l4 * a.l4)
  l4 := 2 * (a.l0 * a.l4) + 2 * (a.l1 * a.l3) + a.l2 * a.l2

/-- `FSQR` on limbs (R155). -/
def fieldSqrLimbs (a : Limbs) : Limbs := carryChain (squareColumns a)

/-- The weak reduction, all five carries taken in parallel (R154). -/
def weakReduce (h : Limbs) : Limbs where
  l0 := (h.l0 &&& m51) + 19 * (h.l4 >>> 51)
  l1 := (h.l1 &&& m51) + (h.l0 >>> 51)
  l2 := (h.l2 &&& m51) + (h.l1 >>> 51)
  l3 := (h.l3 &&& m51) + (h.l2 >>> 51)
  l4 := (h.l4 &&& m51) + (h.l3 >>> 51)

/-- `FADD` on limbs (R156). -/
def fieldAddLimbs (a b : Limbs) : Limbs :=
  weakReduce ⟨a.l0 + b.l0, a.l1 + b.l1, a.l2 + b.l2, a.l3 + b.l3, a.l4 + b.l4⟩

/-- `16·P` in limb form, the bias of the subtraction (R156). -/
def subBias : Limbs :=
  ⟨0x7FFFFFFFFFFED0, 0x7FFFFFFFFFFFF0, 0x7FFFFFFFFFFFF0, 0x7FFFFFFFFFFFF0, 0x7FFFFFFFFFFFF0⟩

/-- `FSUB` on limbs (R156): no limb goes negative under the bound of R151. -/
def fieldSubLimbs (a b : Limbs) : Limbs :=
  weakReduce
    ⟨a.l0 + subBias.l0 - b.l0, a.l1 + subBias.l1 - b.l1, a.l2 + subBias.l2 - b.l2,
      a.l3 + subBias.l3 - b.l3, a.l4 + subBias.l4 - b.l4⟩

/-- Field canonicalization (R165). -/
def canonicalize (x : Limbs) : Limbs :=
  let h := weakReduce x
  let q := (h.l0 + 19) >>> 51
  let q := (h.l1 + q) >>> 51
  let q := (h.l2 + q) >>> 51
  let q := (h.l3 + q) >>> 51
  let q := (h.l4 + q) >>> 51
  let h0 := h.l0 + 19 * q
  let h1 := h.l1 + (h0 >>> 51)
  let h2 := h.l2 + (h1 >>> 51)
  let h3 := h.l3 + (h2 >>> 51)
  let h4 := h.l4 + (h3 >>> 51)
  ⟨h0 &&& m51, h1 &&& m51, h2 &&& m51, h3 &&& m51, h4 &&& m51⟩

/-- The field serializer of `FST` (R165): the canonical form, then its 32 bytes. -/
def fieldSerialize (h : Limbs) : List Byte := toLE (value51 (canonicalize h)) 32

/-! ### The inverter chains, over any multiplier -/

/-- One row of the chain of R157: `n` successive squarings, or a product, of earlier rows; row 0 is the operand `a`
and row `k + 1` is the temporary `t<k>`. -/
inductive ChainOp where
  | sqr (n x : Nat)
  | mul (x y : Nat)
  deriving DecidableEq, Repr

/-- The fixed sequence of `FINV`, t0 to t21 (R157). -/
def finvChain : List ChainOp := [
  .sqr 1 0, .sqr 2 1, .mul 0 2, .mul 1 3, .sqr 1 4, .mul 3 5, .sqr 5 6, .mul 7 6,
  .sqr 10 8, .mul 9 8, .sqr 20 10, .mul 11 10, .sqr 10 12, .mul 13 8, .sqr 50 14, .mul 15 14,
  .sqr 100 16, .mul 17 16, .sqr 50 18, .mul 19 14, .sqr 5 20, .mul 21 4]

/-- `S^n(x)`: `n` successive squarings (R157). -/
def sqrTimes {α : Type} (sqr : α → α) : Nat → α → α
  | 0, x => x
  | n + 1, x => sqrTimes sqr n (sqr x)

/-- The value of one row, from the rows before it (row 0 first). -/
def chainRow {α : Type} (sqr : α → α) (mul : α → α → α) (a : α) (rows : List α) : ChainOp → α
  | .sqr n x => sqrTimes sqr n (rows.getD x a)
  | .mul x y => mul (rows.getD x a) (rows.getD y a)

/-- All rows of a chain, the operand first. -/
def chainRows {α : Type} (sqr : α → α) (mul : α → α → α) (a : α) : List ChainOp → List α → List α
  | [], rows => rows
  | op :: ops, rows => chainRows sqr mul a ops (rows ++ [chainRow sqr mul a rows op])

/-- The result of a chain on `a`: its last row. -/
def runChain {α : Type} (sqr : α → α) (mul : α → α → α) (ops : List ChainOp) (a : α) : α :=
  (chainRows sqr mul a ops [a]).getLastD a

/-- `FINV` on limbs (R157). -/
def fieldInvLimbs (a : Limbs) : Limbs := runChain fieldSqrLimbs fieldMulLimbs finvChain a

/-- Left-to-right binary exponentiation by the bits `k − 1 … 0` of the constant `e` (R164). -/
def expBits {α : Type} (sqr : α → α) (mul : α → α → α) (a : α) (e : Nat) : Nat → α → α
  | 0, acc => acc
  | k + 1, acc =>
    expBits sqr mul a e k (if e.testBit k then mul (sqr acc) a else sqr acc)

/-! ### The scalar unit -/

/-- The scalar deserializer: 52-bit slices of an integer below 2^260 (R158). -/
def scalarLimbs (n : Nat) : Limbs :=
  ⟨n &&& m52, (n >>> 52) &&& m52, (n >>> 104) &&& m52, (n >>> 156) &&& m52, (n >>> 208) &&& m52⟩

/-- `LFACTOR = (−ℓ^−1) mod 2^52` (00_scope R8). -/
def lfactor (ell : Nat) : Nat := (2 ^ 52 - invMod (ell % 2 ^ 52) (2 ^ 52)) % 2 ^ 52

/-- The nine columns `z_0 … z_8` of the scalar product (R159). -/
def scalarColumns (a b : Limbs) : List Nat := [
  a.l0 * b.l0,
  a.l0 * b.l1 + a.l1 * b.l0,
  a.l0 * b.l2 + a.l1 * b.l1 + a.l2 * b.l0,
  a.l0 * b.l3 + a.l1 * b.l2 + a.l2 * b.l1 + a.l3 * b.l0,
  a.l0 * b.l4 + a.l1 * b.l3 + a.l2 * b.l2 + a.l3 * b.l1 + a.l4 * b.l0,
  a.l1 * b.l4 + a.l2 * b.l3 + a.l3 * b.l2 + a.l4 * b.l1,
  a.l2 * b.l4 + a.l3 * b.l3 + a.l4 * b.l2,
  a.l3 * b.l4 + a.l4 * b.l3,
  a.l4 * b.l4]

/-- `Σ z_k · 2^(52 k)`. -/
def columnSum : List Nat → Nat
  | [] => 0
  | z :: zs => z + 2 ^ 52 * columnSum zs

/-- `T = A·B` through the nine columns (R159). -/
def scalarProduct (a b : Limbs) : Nat := columnSum (scalarColumns a b)

/-- One word of the Montgomery reduction: limb `i` of `t` is made zero (R160). -/
def redcStep (ell i t : Nat) : Nat :=
  t + (((((t >>> (52 * i)) &&& m52) * lfactor ell) &&& m52) * ell) * 2 ^ (52 * i)

/-- The five iterations of R160, run for every `T`. -/
def redcLoop (ell t : Nat) : Nat :=
  redcStep ell 4 (redcStep ell 3 (redcStep ell 2 (redcStep ell 1 (redcStep ell 0 t))))

/-- One limb of a subtraction with the incoming borrow: the limb and the outgoing borrow (R161). -/
def subLimb (u l bw : Nat) : Nat × Nat :=
  let x := u + 2 ^ 52 - l - bw
  (x &&& m52, 1 - (x >>> 52))

/-- One limb of an addition with the incoming carry. -/
def addLimb (d l cy : Nat) : Nat × Nat :=
  let x := d + l + cy
  (x &&& m52, x >>> 52)

/-- The final subtraction without a branch (R161): `u − ℓ` with borrow, then `ℓ` added back under the borrow's mask,
both for every input; the last carry is dropped (260 bits). -/
def maskedSub (ell : Nat) (u : Limbs) : Limbs :=
  let m := scalarLimbs ell
  let d0 := subLimb u.l0 m.l0 0
  let d1 := subLimb u.l1 m.l1 d0.2
  let d2 := subLimb u.l2 m.l2 d1.2
  let d3 := subLimb u.l3 m.l3 d2.2
  let d4 := subLimb u.l4 m.l4 d3.2
  let mask := (2 ^ 52 - d4.2) &&& m52
  let e0 := addLimb d0.1 (m.l0 &&& mask) 0
  let e1 := addLimb d1.1 (m.l1 &&& mask) e0.2
  let e2 := addLimb d2.1 (m.l2 &&& mask) e1.2
  let e3 := addLimb d3.1 (m.l3 &&& mask) e2.2
  let e4 := addLimb d4.1 (m.l4 &&& mask) e3.2
  ⟨e0.1, e1.1, e2.1, e3.1, e4.1⟩

/-- `REDC(T)` (R160). -/
def redc (ell t : Nat) : Limbs := maskedSub ell (scalarLimbs (redcLoop ell t >>> 260))

/-- `R mod ℓ` for the datapath's radix R = 2^260 (00_scope R8). -/
def dpR (ell : Nat) : Nat := (2 ^ 52) ^ 5 % ell

/-- `R² mod ℓ` (R8). -/
def dpRR (ell : Nat) : Nat := (2 ^ 52) ^ 5 * (2 ^ 52) ^ 5 % ell

/-- `MMUL` on limbs: multiply, then Montgomery-reduce (R160). -/
def mmulLimbs (ell : Nat) (a b : Limbs) : Limbs := redc ell (scalarProduct a b)

/-- `MSQR` on limbs (R159). DESIGN CHOICE (log 16): all 25 products are formed, where the spec lets `MSQR` use the symmetry
of R155 instead. -/
def msqrLimbs (ell : Nat) (a : Limbs) : Limbs := redc ell (scalarProduct a a)

/-- `SUNPACK` on limbs (R163). -/
def sunpackLimbs (ell : Nat) (s : Limbs) : Limbs := redc ell (scalarProduct s (scalarLimbs (dpRR ell)))

/-- `SPACK` on limbs (R163). DESIGN CHOICE (log 16): the product stage is skipped, where the spec lets it multiply by 1
instead. -/
def spackLimbs (ell : Nat) (a : Limbs) : Limbs := redc ell (value52 a)

/-- The 32-byte load reduction `REDC(n · R_MOD_L)` (R162). -/
def sld32Limbs (ell n : Nat) : Limbs := redc ell (scalarProduct (scalarLimbs n) (scalarLimbs (dpR ell)))

/-- The 64-byte load reduction (R162): both halves always, the sum reduced by one masked subtraction. -/
def sld64Limbs (ell n : Nat) : Limbs :=
  let lo := redc ell (scalarProduct (scalarLimbs (n % (2 ^ 52) ^ 5)) (scalarLimbs (dpR ell)))
  let hi := redc ell (scalarProduct (scalarLimbs (n / (2 ^ 52) ^ 5)) (scalarLimbs (dpRR ell)))
  maskedSub ell (scalarLimbs (value52 lo + value52 hi))

/-- `MINV` on limbs: exponent ℓ − 2, bit 252 first, in the Montgomery domain (R164). -/
def minvLimbs (ell : Nat) (a : Limbs) : Limbs :=
  expBits (msqrLimbs ell) (mmulLimbs ell) a (ell - 2) 252 a

/-! ### The comparator and the select -/

/-- The OR of bits `n − 1 … 0` of `d`. -/
def orBits (d : Val) : Nat → Bool
  | 0 => false
  | n + 1 => d.getLsbD n || orBits d n

/-- The comparator on two canonical 256-bit values: XOR, OR-reduce, invert (R166). -/
def compareVals (a b : Val) : Bool := !(orBits (a ^^^ b) 256)

/-- The comparator on field limbs: both are canonicalized first (R166). -/
def compareFieldLimbs (a b : Limbs) : Bool :=
  compareVals (BitVec.ofNat 256 (value51 (canonicalize a))) (BitVec.ofNat 256 (value51 (canonicalize b)))

/-- `0 − C` on `n` bits: all ones for `C` = 1, all zeros for `C` = 0 (R167, 41_select_compare R122). -/
def choiceMask (n : Nat) (c : Bool) : BitVec n := 0 - (BitVec.ofBool c).setWidth n

/-- The select on 256-bit values by bitmask (R122). -/
def selectVals (c : Bool) (a b : Val) : Val := a ^^^ (choiceMask 256 c &&& (a ^^^ b))

/-- One limb of the select, in its 64-bit register (R167). -/
def selectLimb (c : Bool) (a b : Nat) : Nat :=
  (BitVec.ofNat 64 a ^^^ (choiceMask 64 c &&& (BitVec.ofNat 64 a ^^^ BitVec.ofNat 64 b))).toNat

/-- The select on limbs, field limbs as they are (R167). -/
def selectLimbs (c : Bool) (a b : Limbs) : Limbs :=
  ⟨selectLimb c a.l0 b.l0, selectLimb c a.l1 b.l1, selectLimb c a.l2 b.l2, selectLimb c a.l3 b.l3,
    selectLimb c a.l4 b.l4⟩

/-! ### The micro-operation trace -/

/-- The micro-operations a trace lists (R168). -/
inductive MicroOp where
  | fsqr
  | fmul
  | msqr
  | mmul
  | product
  | add
  | sub
  | carry
  | weakReduce
  | deserialize
  | canonicalize
  | serialize
  | multiply
  | redc
  | maskedSub
  | compare
  | select
  | setFlag
  deriving DecidableEq, Repr

/-- The micro-operations of one row of the field chain (R157). -/
def chainTrace : ChainOp → List MicroOp
  | .sqr n _ => List.replicate n .fsqr
  | .mul _ _ => [.fmul]

/-- The micro-operations of the exponentiation by bits `k − 1 … 0` of `e` (R164): the test is on the constant `e`. -/
def expTrace (e : Nat) : Nat → List MicroOp
  | 0 => []
  | k + 1 => (if e.testBit k then [.msqr, .mmul] else [.msqr]) ++ expTrace e k

/-- The trace of a command, a function of the opcode byte and `len` alone (R168, 93 U15). R168 gives those of `FINV`,
`MINV`, `FMUL` and the 64-byte `SLD`; the others are read off the algorithm of each command (log 10).
DESIGN CHOICE (log 15): a `len` on which the command faults has the empty trace, where the spec gives none; and
`CEQ` lists two canonicalizations for every tag, where R166 names them for `FE` operands only. DESIGN CHOICE (log 16):
`SPACK` has no product stage and `MSQR` the multiplier's own. -/
def trace (ell opcode len : Nat) : List MicroOp :=
  match opcode with
  | 0x10 => if len = 32 then [.deserialize] else []
  | 0x11 => if len = 32 then [.canonicalize, .serialize] else []
  | 0x12 => List.replicate 5 .add ++ [.weakReduce]
  | 0x13 => List.replicate 5 .sub ++ [.weakReduce]
  | 0x14 => List.replicate 25 .product ++ List.replicate 20 .add ++ List.replicate 7 .carry
  | 0x15 => List.replicate 15 .product ++ List.replicate 10 .add ++ List.replicate 7 .carry
  | 0x16 => finvChain.flatMap chainTrace
  | 0x20 =>
    if len = 64 then [.multiply, .redc, .multiply, .redc, .add, .maskedSub]
    else if len = 32 then [.multiply, .redc] else []
  | 0x21 => if len = 32 then [.serialize] else []
  | 0x22 => [.multiply, .redc]
  | 0x23 => [.redc]
  | 0x24 => [.multiply, .redc]
  | 0x25 => [.multiply, .redc]
  | 0x26 => expTrace (ell - 2) 252
  | 0x30 => [.canonicalize, .canonicalize, .compare]
  | 0x31 => [.select]
  | 0x32 => [.setFlag]
  | _ => []

end Sys2Proof.Machine
end

