-- ==== Sys2Proof/Safety.lean ====
section
/-!
DEFINITION. What claims speak of: the invariant of the state, the end of a run, and a run that ended well.
-/

namespace Sys2Proof.Machine

/-- The invariant of one register (10_state R22; R45 for an EMPTY one). -/
def Reg.ok (c : Config) (r : Reg) : Bool :=
  match r.tag with
  | .empty => decide (r.val = 0)
  | .fe => decide (r.val.toNat < c.p)
  | .sp => decide (r.val.toNat < c.ell)
  | .sm => decide (r.val.toNat < c.ell)

/-- The fault latch is whole: clear as R29 says, or set with a cause and nothing pending (60_exceptions R186, R192). -/
def State.latchOk (s : State) : Bool :=
  if s.fault then decide (s.cause ≠ .none) && decide (s.pend = none)
  else decide (s.cause = .none) && decide (s.faultcmd = 0)

/-- The invariant that reset establishes and every step keeps. -/
abbrev State.Inv (s : State) : Prop :=
  s.cfg.WF ∧ (∀ i : RegIdx, (s.reg i).ok s.cfg = true) ∧ s.latchOk = true ∧ Mem.wf s.buf = true

/-- The act is a write of a command word (10_state R34). -/
def HostAct.writesWord : HostAct → Bool
  | .write32 off _ => target32 off == .cmd
  | _ => false

/-- The act is a reset, hard or soft: a run begins with one (70_reset_and_hazards R214, R210, R211). -/
def HostAct.isReset : HostAct → Bool
  | .hardReset => true
  | .write32 off w => target32 off == .ctrl && w.getLsbD 1
  | _ => false

/-- How many command words the host has still to write in this run, which a later reset ends. -/
def wordsLeft : List HostAct → Nat
  | [] => 0
  | a :: rest => if a.isReset then 0 else a.writesWord.toNat + wordsLeft rest

/-- The run has ended: the host has written its last word and no command is pending, whether or not the host has still
results to read (R214). -/
abbrev State.ended (s : State) : Prop := wordsLeft s.host = 0 ∧ s.pend = none

/-- The run of `n` command words ended well (R214): `FAULT` = 0 and `CMDCNT` counts them all, modulo 2^32. -/
abbrev State.endedWell (n : Nat) (s : State) : Prop :=
  s.ended ∧ s.fault = false ∧ s.cmdcnt = BitVec.ofNat 32 n

/-- The run ended in a fault of the word `w` after `n` completed commands (R214): `FAULT` = 1, `CMDCNT` is the number of
commands before the faulting one (modulo 2^32, R38) and `FAULTCMD` is the faulting word. -/
abbrev State.endedInFault (n : Nat) (w : Word) (s : State) : Prop :=
  s.ended ∧ s.fault = true ∧ s.cmdcnt = BitVec.ofNat 32 n ∧ s.faultcmd = w

end Sys2Proof.Machine
end

