-- ==== Sys2Proof/Certificates/Slice0/Obligations.lean ====
section
/-!
DEFINITION. The statements about the model, each from a numbered rule of spec/ or a section of it.
The words they share stand first, under `Sys2Proof.Claims`: what a completed command leaves unchanged (its frame), what a
latched fault is, which registers a command names, and the integer of a byte string.
The head of `host` (the host's next transaction) and the end of `reads` (what a read returned) are the model's words
for the host port's transactions (logs 2 and 4): no statement fixes more of the host than its next act.
-/

namespace Sys2Proof.Claims

open Sys2Proof Sys2Proof.Machine

/-- Every register holds what it held. -/
def SameRegs (s t : State) : Prop := ∀ r : RegIdx, t.reg r = s.reg r

/-- Every byte of `BUF` reads as it read. -/
def SameBytes (s t : State) : Prop := ∀ a : Nat, t.bufByte a = s.bufByte a

/-- The command was counted, its slot is free, and the latch, `IE`, the configuration, the launch, the host's
acts and its reads are as they were (20_memory R60). -/
def Retired (s t : State) : Prop :=
  t.cmdcnt = s.cmdcnt + 1 ∧ t.pend = none ∧ t.fault = s.fault ∧ t.cause = s.cause ∧ t.faultcmd = s.faultcmd ∧
    t.ie = s.ie ∧ t.cfg = s.cfg ∧ t.launch = s.launch ∧ t.host = s.host ∧ t.reads = s.reads

/-- The command completed and wrote `(tag, v)` to `x[rd]` and nothing else. -/
def WroteReg (rd : RegIdx) (tag : Tag) (v : Nat) (s t : State) : Prop :=
  (t.reg rd).tag = tag ∧ (t.reg rd).val.toNat = v ∧ (∀ r : RegIdx, r ≠ rd → t.reg r = s.reg r) ∧
    t.c = s.c ∧ SameBytes s t ∧ Retired s t

/-- The command completed and wrote the flag `C` and nothing else. -/
def WroteFlag (b : Bool) (s t : State) : Prop :=
  t.c = b ∧ SameRegs s t ∧ SameBytes s t ∧ Retired s t

/-- The command completed and wrote the 32 bytes of `v`, byte 0 first, at `addr`, and nothing else. -/
def WroteBytes (addr v : Nat) (s t : State) : Prop :=
  (∀ k : Nat, k < 32 → t.bufByte (addr + k) = BitVec.ofNat 8 (v / 2 ^ (8 * k))) ∧
    (∀ a : Nat, a < addr ∨ addr + 32 ≤ a → t.bufByte a = s.bufByte a) ∧
    SameRegs s t ∧ t.c = s.c ∧ Retired s t

/-- The state after fault entry: the four changes of 60_exceptions R186 and no other. -/
def latched (k : Cause) (w : Word) (s : State) : State :=
  { s with fault := true, cause := k, faultcmd := w, pend := none }

/-- `LE(BUF[addr … addr+n−1], n)` (00_scope R10). -/
def leSum (s : State) (addr n : Nat) : Nat :=
  ∑ i ∈ Finset.range n, (s.bufByte (addr + i)).toNat * 2 ^ (8 * i)

/-- The legal lengths of a format-M command (30_encoding R76). -/
def legalLens : Instr → Option (List Nat)
  | .fld _ _ _ => some [32]
  | .fst _ _ _ => some [32]
  | .sld _ _ _ => some [32, 64]
  | .sst _ _ _ => some [32]
  | _ => none

/-- `len` and `addr` of a format-M command. -/
def lenAddr : Instr → Nat × Nat
  | .fld _ len addr => (len, addr)
  | .fst _ len addr => (len, addr)
  | .sld _ len addr => (len, addr)
  | .sst _ len addr => (len, addr)
  | _ => (0, 0)

/-- The source registers of a command (10_state R24). -/
def sources : Instr → List RegIdx
  | .fld _ _ _ => []
  | .fst ra _ _ => [ra]
  | .fadd _ ra rb => [ra, rb]
  | .fsub _ ra rb => [ra, rb]
  | .fmul _ ra rb => [ra, rb]
  | .fsqr _ ra => [ra]
  | .finv _ ra => [ra]
  | .sld _ _ _ => []
  | .sst ra _ _ => [ra]
  | .sunpack _ ra => [ra]
  | .spack _ ra => [ra]
  | .mmul _ ra rb => [ra, rb]
  | .msqr _ ra => [ra]
  | .minv _ ra => [ra]
  | .ceq ra rb => [ra, rb]
  | .csel _ ra rb => [ra, rb]
  | .setc _ => []

/-- The tag the table of R24 requires of every source; `none` for `CEQ` and `CSEL`, which require one common
tag. -/
def requiredTag : Instr → Option Tag
  | .fst _ _ _ => some .fe
  | .fadd _ _ _ => some .fe
  | .fsub _ _ _ => some .fe
  | .fmul _ _ _ => some .fe
  | .fsqr _ _ => some .fe
  | .finv _ _ => some .fe
  | .sst _ _ _ => some .sp
  | .sunpack _ _ => some .sp
  | .spack _ _ => some .sm
  | .mmul _ _ _ => some .sm
  | .msqr _ _ => some .sm
  | .minv _ _ => some .sm
  | _ => none

/-- The destination register and the tag it gets (R24): `none` for the tag where it is the sources' own
(`CSEL`). -/
def destination : Instr → Option (RegIdx × Option Tag)
  | .fld rd _ _ => some (rd, some .fe)
  | .fadd rd _ _ => some (rd, some .fe)
  | .fsub rd _ _ => some (rd, some .fe)
  | .fmul rd _ _ => some (rd, some .fe)
  | .fsqr rd _ => some (rd, some .fe)
  | .finv rd _ => some (rd, some .fe)
  | .sld rd _ _ => some (rd, some .sp)
  | .sunpack rd _ => some (rd, some .sm)
  | .spack rd _ => some (rd, some .sp)
  | .mmul rd _ _ => some (rd, some .sm)
  | .msqr rd _ => some (rd, some .sm)
  | .minv rd _ => some (rd, some .sm)
  | .csel rd _ _ => some (rd, none)
  | _ => none

/-- The source tags are those R24 requires: the row's own tag, or, for `CEQ` and `CSEL`, one common tag. -/
def tagsAgree (i : Instr) (s : State) : Prop :=
  match requiredTag i with
  | some t => ∀ r ∈ sources i, (s.reg r).tag = t
  | none => ∀ r ∈ sources i, ∀ q ∈ sources i, (s.reg r).tag = (s.reg q).tag

/-- The commands that store to `BUF`. -/
def isStore : Instr → Bool
  | .fst _ _ _ => true
  | .sst _ _ _ => true
  | _ => false

/-- The commands that write the choice flag. -/
def writesFlag : Instr → Bool
  | .ceq _ _ => true
  | .setc _ => true
  | _ => false

/-- The commands that read `BUF`. -/
def isLoad : Instr → Bool
  | .fld _ _ _ => true
  | .sld _ _ _ => true
  | _ => false

/-- The datapath's radix is the configured one (00_scope R8). -/
def datapathConfig (ell : Nat) : Config := { Config.default with ell := ell, montR := (2 ^ 52) ^ 5 }

end Sys2Proof.Claims

open Sys2Proof Sys2Proof.Machine Sys2Proof.Claims

/-! ### Parameters and encoding -/

/-- 00_scope R8: the radix and the constants derived from it and ℓ, for the default parameters. -/
def Obligations.DerivedConstantsOfDefaults : Prop :=
  Config.default.montR = 2 ^ 260 ∧ Config.default.montR = (2 ^ 52) ^ 5 ∧
  Nat.gcd Config.default.montR Config.default.ell = 1 ∧
  rModL Config.default = 0x0fffffffffffffffffffffffffffffeb35e51b3bab5ac67e45af48bd6721e6ed ∧
  rrModL Config.default = 0x09411b7c309a3dceec73d217f5be65cb687604d63c715bea69f9d265e952d13b ∧
  rinv Config.default = 0x0c9db6c6f26fe9183614e75438ffa36bfb2697cda3adacf58e84371e098e4fc4 ∧
  rinv Config.default * Config.default.montR % Config.default.ell = 1 ∧
  lfactor Config.default.ell = 0x51da312547e1b ∧
  (lfactor Config.default.ell * Config.default.ell + 1) % 2 ^ 52 = 0

/-- 30_encoding, sections 1 to 3: decoding the word of a well-formed command gives the command back, with every
operand at every value the word admits. -/
def Obligations.DecodeOfEncodeIsTheCommand : Prop :=
  ∀ i : Instr, i.WellFormed → decode (encode i) = .ok i

/-- 30_encoding, sections 1 to 3: every word that decodes is the word of its command, so no bit of it is
dropped. -/
def Obligations.EncodeOfDecodeIsTheWord : Prop :=
  ∀ (w : Word) (i : Instr), decode w = .ok i → i.WellFormed ∧ encode i = w

/-- 30_encoding R75: a command is selected by `(w AND mask) = match`: a word decodes to a command exactly when
it selects that command's row, and a word that selects no row decodes to nothing, among them every word with a
legal opcode and a nonzero must-be-zero field. -/
def Obligations.DecodeFollowsTheTable : Prop :=
  (∀ (w : Word) (i : Instr), decode w = .ok i → ∃ row ∈ opTable, row.mnemonic = i.mnemonic ∧ w &&& row.mask = row.pattern) ∧
  (∀ (w : Word) (row : OpRow), row ∈ opTable → w &&& row.mask = row.pattern →
    ∃ i : Instr, decode w = .ok i ∧ i.mnemonic = row.mnemonic) ∧
  (∀ (w : Word), (∀ row ∈ opTable, w &&& row.mask ≠ row.pattern) → ∀ i : Instr, decode w ≠ .ok i) ∧
  (∀ (w : Word) (row : OpRow), row ∈ opTable → w.extractLsb' 24 8 = row.pattern.extractLsb' 24 8 →
    w &&& row.mask ≠ row.pattern → ∀ i : Instr, decode w ≠ .ok i)

/-- 30_encoding section 3: no two rows of the command table match the same word. -/
def Obligations.TableRowsAreDisjoint : Prop :=
  ∀ (w : Word) (r q : OpRow), r ∈ opTable → q ∈ opTable → w &&& r.mask = r.pattern → w &&& q.mask = q.pattern → r = q

/-- 95_test_vectors section 4.2: one word of every format and family decodes to the command it stands for, and
the seven illegal words of section 4.3 decode to nothing. -/
def Obligations.SampleWordsDecode : Prop :=
  decode 0x10320040 = .ok (.fld 3 32 0x040) ∧ decode 0x11320060 = .ok (.fst 3 32 0x060) ∧
  decode 0x13123000 = .ok (.fsub 1 2 3) ∧ decode 0x16120000 = .ok (.finv 1 2) ∧
  decode 0x20440100 = .ok (.sld 4 64 0x100) ∧ decode 0x24756000 = .ok (.mmul 7 5 6) ∧
  decode 0x23650000 = .ok (.spack 6 5) ∧ decode 0x30012000 = .ok (.ceq 1 2) ∧
  decode 0x31FED000 = .ok (.csel 15 14 13) ∧ decode 0x32000001 = .ok (.setc true) ∧
  (∀ i : Instr, decode 0x00000000 ≠ .ok i ∧ decode 0xFFFFFFFF ≠ .ok i ∧ decode 0x12123001 ≠ .ok i ∧
    decode 0x17000000 ≠ .ok i ∧ decode 0x15123000 ≠ .ok i ∧ decode 0x30412000 ≠ .ok i ∧ decode 0x32000002 ≠ .ok i)

/-! ### The step: completion, decoding, the host's turn -/

/-- 20_memory section 5: with a command word pending that decodes to `i`, the core's step is `exec i`: when the
host has nothing to do, when it lets the step pass (its `idle` act, the model's own of log 2, is then used up), and
when its next act is one that waits. -/
def Obligations.StepRunsTheDecodedCommand : Prop :=
  ∀ (s : State) (w : Word) (i : Instr), s.pend = some w → decode w = .ok i →
    (s.host = [] → step s = exec i s) ∧
    (∀ rest, s.host = .idle :: rest → step s = exec i { s with host := rest }) ∧
    (∀ a rest, s.host = a :: rest → a.waits = true → step s = exec i s)

/-- The model's own (log 7): a word placed by `withFetchWord` is run by the very next step, from any state;
nothing but the pending slot and the host's letting one step pass is changed. -/
def Obligations.FetchedWordRunsNext : Prop :=
  ∀ (s : State) (nbits w : Nat) (i : Instr), decodeTableWord nbits w = some i →
    ∃ s' : State, step (s.withFetchWord nbits w) = exec i s' ∧
      s'.pend = some (BitVec.ofNat 32 (w % 2 ^ nbits)) ∧
      (s.host.head? ≠ some .idle → s'.host = s.host) ∧
      { s' with pend := s.pend, host := s.host } = s

/-- 20_memory R60: the completion step. With a word pending, every effect of the command appears in this one
step: either it is counted and the latch is untouched, or the fault latch takes the word and nothing else
changes; the slot is free after. Without one the core has no step: nothing changes. -/
def Obligations.CompletionCountsOrLatches : Prop :=
  (∀ (s : State) (w : Word), s.host = [] → s.pend = some w →
    (∀ i : Instr, decode w = .ok i → step s = exec i s) ∧
    ∃ t : State, step s = .next t ∧ t.pend = none ∧
      ((t.cmdcnt = s.cmdcnt + 1 ∧ t.fault = s.fault ∧ t.cause = s.cause ∧ t.faultcmd = s.faultcmd) ∨
        ∃ k : Cause, k ≠ .none ∧ t = latched k w s)) ∧
  (∀ s : State, s.host = [] → s.pend = none → step s = .next s)

/-- 60_exceptions R182: `ILLEGAL` is raised when `(w AND mask) = match` holds for no row, and only then. -/
def Obligations.IllegalExactlyWhenNoRowMatches : Prop :=
  ∀ (s : State) (w : Word), s.host = [] → s.pend = some w → s.fault = false → s.cause = .none →
    ((∀ row ∈ opTable, w &&& row.mask ≠ row.pattern) → step s = .next (latched .illegal w s)) ∧
    ((∃ row ∈ opTable, w &&& row.mask = row.pattern) → ∃ t : State, step s = .next t ∧ t.cause ≠ .illegal)

/-- 10_state R34: a write to `CMD` is accepted while nothing is pending and no fault is latched, is discarded
while `FAULT` = 1, is held while a command is pending; a read returns 0 and has no effect. That a read of `CMD` is not held
while a command is pending is the model's choice (log 5). -/
def Obligations.CmdWriteAcceptedDiscardedOrHeld : Prop :=
  ∀ (s : State) (w : Word) (rest : List HostAct),
    (s.host = .write32 0x0000 w :: rest → s.pend = none → s.fault = false →
      step s = .next { s with host := rest, pend := some w }) ∧
    (s.host = .write32 0x0000 w :: rest → s.pend = none → s.fault = true →
      step s = .next { s with host := rest }) ∧
    (s.host = .write32 0x0000 w :: rest → s.pend ≠ none →
      ∃ t : State, step s = .next t ∧ t.pend = none ∧ t.host = .write32 0x0000 w :: rest) ∧
    (s.host = .read32 0x0000 :: rest →
      step s = .next { s with host := rest, reads := s.reads ++ [0] })

/-- 10_state R42: while a command is pending, a write to `CMD` or `CTRL` and an access to the BUF window wait:
the step is the core's completion and the act is still to come; reads of the status registers return the state
before the command; hard reset is never held. -/
def Obligations.HoldingWhileBusy : Prop :=
  ∀ (s : State) (cw : Word) (rest : List HostAct), s.pend = some cw →
    (∀ a : HostAct,
      ((∃ w, a = .write32 0x0000 w) ∨ (∃ w, a = .write32 0x0008 w) ∨
        (∃ off, 0x1000 ≤ off ∧ off < 0x2000 ∧ off % 4 = 0 ∧ (a = .read32 off ∨ ∃ w, a = .write32 off w)) ∨
        (∃ off, 0x1000 ≤ off ∧ off < 0x2000 ∧ (a = .read8 off ∨ ∃ b, a = .write8 off b))) →
      s.host = a :: rest →
      ∃ t : State, step s = .next t ∧ step { s with host := [] } = .next { t with host := [] } ∧
        t.pend = none ∧ t.host = a :: rest ∧ t.reads = s.reads) ∧
    (s.host = .read32 0x0004 :: rest → step s = .next { s with host := rest, reads := s.reads ++ [s.statusWord] }) ∧
    (s.host = .read32 0x000C :: rest → step s = .next { s with host := rest, reads := s.reads ++ [s.faultcmd] }) ∧
    (s.host = .read32 0x0010 :: rest → step s = .next { s with host := rest, reads := s.reads ++ [s.cmdcnt] }) ∧
    (s.host = .read32 0x0014 :: rest → step s = .next { s with host := rest, reads := s.reads ++ [s.tagsWord] }) ∧
    (s.host = .hardReset :: rest → ∃ t : State, step s = .next t ∧ t.pend = none ∧ t.cmdcnt = 0 ∧ t.host = rest)

/-! ### The host-visible registers -/

/-- 10_state R35: the fields of `STATUS`, `CAUSE` being 0 while no fault is latched (in every state that meets the
invariant); a read never stalls and has no side effect, a write is ignored. -/
def Obligations.StatusFields : Prop :=
  ∀ s : State,
    (s.statusWord.getLsbD 0 = true ↔ s.pend ≠ none) ∧
    s.statusWord.getLsbD 1 = s.fault ∧ s.statusWord.getLsbD 2 = s.c ∧ s.statusWord.getLsbD 3 = false ∧
    (s.statusWord.extractLsb' 4 4).toNat =
      (match s.cause with
        | .none => 0
        | .illegal => 1
        | .badLength => 2
        | .bufRange => 3
        | .emptyReg => 4
        | .domain => 5) ∧
    (s.Inv → s.fault = false → s.statusWord.extractLsb' 4 4 = 0) ∧
    s.statusWord.extractLsb' 8 24 = 0 ∧
    (∀ rest, s.host = .read32 0x0004 :: rest →
      step s = .next { s with host := rest, reads := s.reads ++ [s.statusWord] }) ∧
    (∀ w rest, s.host = .write32 0x0004 w :: rest → step s = .next { s with host := rest })

/-- 10_state R39 and R23: `TAGS[2i+1:2i]` is the tag code of `x[i]`, EMPTY 0, FE 1, SP 2, SM 3; it is read-only.
-/
def Obligations.TagsFields : Prop :=
  ∀ s : State,
    (∀ i : RegIdx, (s.tagsWord.extractLsb' (2 * i.val) 2).toNat =
      (match (s.reg i).tag with
        | .empty => 0
        | .fe => 1
        | .sp => 2
        | .sm => 3)) ∧
    (∀ rest, s.host = .read32 0x0014 :: rest →
      step s = .next { s with host := rest, reads := s.reads ++ [s.tagsWord] }) ∧
    (∀ w rest, s.host = .write32 0x0014 w :: rest → step s = .next { s with host := rest })

/-- 10_state R36: `CTRL`. While nothing is pending a write with bit 1 performs the soft reset, which clears `IE`
whatever bit 0 is, and a write without it sets `IE` to bit 0 and does nothing else; a read gives `IE` in bit 0
and zeros; a write is held while BUSY. That a read of `CTRL` is not held while BUSY is the model's choice (log 5). -/
def Obligations.CtrlReadWrite : Prop :=
  ∀ (s : State) (w : Word) (rest : List HostAct),
    (s.host = .write32 0x0008 w :: rest → s.pend = none → w.getLsbD 1 = false →
      step s = .next { s with host := rest, ie := w.getLsbD 0 }) ∧
    (s.host = .write32 0x0008 w :: rest → s.pend = none → w.getLsbD 1 = true →
      step s = .next { s.softReset with host := rest } ∧ s.softReset.ie = false) ∧
    (s.host = .write32 0x0008 w :: rest → s.pend ≠ none →
      ∃ t : State, step s = .next t ∧ t.host = .write32 0x0008 w :: rest ∧ t.ie = s.ie) ∧
    (s.host = .read32 0x0008 :: rest →
      ∃ v : Word, step s = .next { s with host := rest, reads := s.reads ++ [v] } ∧
        v.getLsbD 0 = s.ie ∧ v.extractLsb' 1 31 = 0)

/-- 10_state R41: a read of an unmapped offset or of `CMD` returns 0; a write to an unmapped offset or to a
read-only register is ignored; neither raises a fault or changes any other state. The model's choice (log 5): a read of
`CMD` is answered also while a command is pending, and an unmapped offset takes accesses of either width, aligned or
not. -/
def Obligations.UnmappedAndReadOnlyOffsets : Prop :=
  ∀ (s : State) (w : Word) (b : Byte) (off : Nat) (rest : List HostAct),
    (s.host = .read32 off :: rest → (off = 0x0000 ∨ (0x0018 ≤ off ∧ off < 0x1000)) →
      step s = .next { s with host := rest, reads := s.reads ++ [0] }) ∧
    (s.host = .read8 off :: rest → 0x0018 ≤ off → off < 0x1000 →
      step s = .next { s with host := rest, reads := s.reads ++ [0] }) ∧
    (s.host = .write32 off w :: rest →
      (off = 0x0004 ∨ off = 0x000C ∨ off = 0x0010 ∨ off = 0x0014 ∨ (0x0018 ≤ off ∧ off < 0x1000)) →
      step s = .next { s with host := rest }) ∧
    (s.host = .write8 off b :: rest → 0x0018 ≤ off → off < 0x1000 → step s = .next { s with host := rest })

/-- 10_state R40: the BUF window, while nothing is pending. A byte access at `0x1000 + a` is `BUF[a]`; an
aligned 32-bit access is the four bytes from `a` with `BUF[a]` in bits 7:0; a read changes nothing but the
host's record, a write nothing but those bytes; while BUSY the accesses are held. -/
def Obligations.BufWindowAccess : Prop :=
  ∀ (s : State) (a : Nat) (b : Byte) (w : Word) (rest : List HostAct), a < 4096 →
    (s.host = .read8 (0x1000 + a) :: rest → s.pend = none →
      ∃ v : Word, step s = .next { s with host := rest, reads := s.reads ++ [v] } ∧ v.toNat = (s.bufByte a).toNat) ∧
    (s.host = .write8 (0x1000 + a) b :: rest → s.pend = none →
      ∃ t : State, step s = .next t ∧ t = { s with host := rest, buf := t.buf } ∧ t.bufByte a = b ∧
        ∀ x, x ≠ a → t.bufByte x = s.bufByte x) ∧
    (s.host = .read32 (0x1000 + a) :: rest → a % 4 = 0 → s.pend = none →
      ∃ v : Word, step s = .next { s with host := rest, reads := s.reads ++ [v] } ∧
        ∀ k : Nat, k < 4 → (v.extractLsb' (8 * k) 8) = s.bufByte (a + k)) ∧
    (s.host = .write32 (0x1000 + a) w :: rest → a % 4 = 0 → s.pend = none →
      ∃ t : State, step s = .next t ∧ t = { s with host := rest, buf := t.buf } ∧
        (∀ k : Nat, k < 4 → t.bufByte (a + k) = w.extractLsb' (8 * k) 8) ∧
        ∀ x, x < a ∨ a + 4 ≤ x → t.bufByte x = s.bufByte x) ∧
    (s.pend ≠ none → ∀ act : HostAct,
      act = .read8 (0x1000 + a) ∨ act = .write8 (0x1000 + a) b ∨
        (a % 4 = 0 ∧ (act = .read32 (0x1000 + a) ∨ act = .write32 (0x1000 + a) w)) →
      s.host = act :: rest → ∃ t : State, step s = .next t ∧ t.host = act :: rest ∧ t.reads = s.reads)

/-- 10_state R37, R38, 60_exceptions R196: `FAULTCMD` and `CMDCNT` read as they are held, and writes to them are
ignored. -/
def Obligations.FaultcmdAndCmdcntAreReadOnly : Prop :=
  ∀ (s : State) (w : Word) (rest : List HostAct),
    (s.host = .read32 0x000C :: rest → step s = .next { s with host := rest, reads := s.reads ++ [s.faultcmd] }) ∧
    (s.host = .read32 0x0010 :: rest → step s = .next { s with host := rest, reads := s.reads ++ [s.cmdcnt] }) ∧
    (s.host = .write32 0x000C w :: rest ∨ s.host = .write32 0x0010 w :: rest → step s = .next { s with host := rest })

/-! ### Reset -/

/-- 10_state R45, the column "after hard reset", at State.reset: the spec's own fields. -/
def Obligations.ResetLeavesTheResetValues : Prop :=
  (∀ i : RegIdx, State.reset.reg i = ⟨.empty, 0⟩) ∧ State.reset.c = false ∧ State.reset.fault = false ∧
  State.reset.cause = .none ∧ State.reset.faultcmd = 0 ∧ State.reset.ie = false ∧ State.reset.cmdcnt = 0 ∧
  State.reset.pend = none ∧ State.reset.irq = false ∧ State.reset.statusWord = 0 ∧ State.reset.tagsWord = 0 ∧
  State.reset.ctrlWord = 0

/-- 70_reset_and_hazards R212 and the hard-reset column of 10_state R45: a hard reset at any time, with or
without a command pending, leaves the reset values; a pending command is abandoned: it is not counted and
latches nothing. -/
def Obligations.HardResetAtAnyTime : Prop :=
  ∀ (s : State) (rest : List HostAct), s.host = .hardReset :: rest →
    ∃ t : State, step s = .next t ∧ (∀ i : RegIdx, t.reg i = ⟨.empty, 0⟩) ∧ t.c = false ∧ t.fault = false ∧
      t.cause = .none ∧ t.faultcmd = 0 ∧ t.ie = false ∧ t.cmdcnt = 0 ∧ t.pend = none ∧ t.irq = false ∧
      t.cfg = s.cfg ∧ t.host = rest ∧ t.reads = s.reads

/-- 70_reset_and_hazards R211: a write to `CTRL` with bit 1 = 1, accepted while nothing is pending, resets as a
hard reset does but keeps every byte of `BUF`; it is the only way other than `rst` to clear `FAULT`. -/
def Obligations.SoftResetKeepsBuf : Prop :=
  (∀ (s : State) (w : Word) (rest : List HostAct), s.host = .write32 0x0008 w :: rest → s.pend = none →
    w.getLsbD 1 = true →
    ∃ t : State, step s = .next t ∧ (∀ i : RegIdx, t.reg i = ⟨.empty, 0⟩) ∧ t.c = false ∧ t.fault = false ∧
      t.cause = .none ∧ t.faultcmd = 0 ∧ t.ie = false ∧ t.cmdcnt = 0 ∧ t.pend = none ∧ t.irq = false ∧
      SameBytes s t ∧ t.cfg = s.cfg ∧ t.host = rest ∧ t.reads = s.reads) ∧
  (∀ s t : State, s.fault = true → step s = .next t → t.fault = false →
    (∃ rest, s.host = .hardReset :: rest) ∨ ∃ w rest, s.host = .write32 0x0008 w :: rest ∧ w.getLsbD 1 = true)

/-! ### Faults -/

/-- 60_exceptions R189: the order of the checks of one command word: ILLEGAL, BAD_LENGTH, BUF_RANGE, EMPTY_REG
(any EMPTY source), DOMAIN; the first that applies is latched with the word, and nothing else changes; a command
none applies to completes. -/
def Obligations.FaultPriority : Prop :=
  ∀ (s : State) (w : Word), s.host = [] → s.pend = some w →
    (∀ e, decode w = .error e → step s = .next (latched .illegal w s)) ∧
    (∀ (i : Instr), decode w = .ok i →
      (∀ legal, legalLens i = some legal → (lenAddr i).1 ∉ legal → step s = .next (latched .badLength w s)) ∧
      (∀ legal, legalLens i = some legal → (lenAddr i).1 ∈ legal → 4096 < (lenAddr i).2 + (lenAddr i).1 →
        step s = .next (latched .bufRange w s)) ∧
      ((∀ legal, legalLens i = some legal → (lenAddr i).1 ∈ legal ∧ (lenAddr i).2 + (lenAddr i).1 ≤ 4096) →
        ((∃ r ∈ sources i, (s.reg r).tag = .empty) → step s = .next (latched .emptyReg w s)) ∧
        ((∀ r ∈ sources i, (s.reg r).tag ≠ .empty) → ¬ tagsAgree i s → step s = .next (latched .domain w s)) ∧
        ((∀ r ∈ sources i, (s.reg r).tag ≠ .empty) → tagsAgree i s →
          ∃ t : State, step s = .next t ∧ Retired s t)))

/-- 60_exceptions R186 and R191, at the level of commands: every command ends in a next state, and either it is
counted, with the latch untouched, or it does nothing but latch a cause (neither NONE nor ILLEGAL) and the word
`encode i`, which is its own word (log 7). No command stops the machine. -/
def Obligations.FaultsArePrecise : Prop :=
  ∀ (i : Instr) (s : State),
    (∃ t : State, exec i s = .next t ∧ Retired s t) ∨
      (∃ k : Cause, k ≠ .none ∧ k ≠ .illegal ∧ exec i s = .next (latched k (encode i) s))

/-- 60_exceptions R192: while `FAULT` = 1, with nothing pending, a step that is no reset changes no register,
not `C`, not the latch and not `CMDCNT`, and leaves nothing pending. -/
def Obligations.FaultedCoreRunsNothing : Prop :=
  ∀ (s t : State), s.fault = true → s.pend = none → step s = .next t →
    (∀ rest, s.host ≠ .hardReset :: rest) →
    (∀ w rest, s.host = .write32 0x0008 w :: rest → w.getLsbD 1 = false) →
    SameRegs s t ∧ t.c = s.c ∧ t.fault = true ∧ t.cause = s.cause ∧ t.faultcmd = s.faultcmd ∧
      t.cmdcnt = s.cmdcnt ∧ t.pend = none

/-- 00_scope section 5 (constant time): whether a command faults, and with which cause, depends on the tags of
the registers it names only: not on their values, on a byte of `BUF` or on `C`. -/
def Obligations.FaultOutcomeIndependentOfValues : Prop :=
  ∀ (i : Instr) (s s' : State), (∀ r ∈ sources i, (s.reg r).tag = (s'.reg r).tag) →
    ((∃ t : State, exec i s = .next t ∧ Retired s t) ↔ (∃ t : State, exec i s' = .next t ∧ Retired s' t)) ∧
    ∀ k : Cause, exec i s = .next (latched k (encode i) s) ↔ exec i s' = .next (latched k (encode i) s')

/-- 60_exceptions R190 in the states it names: `irq` is high exactly while a fault is latched and enabled; a
fault entry raises it iff `IE` = 1; both resets lower it. -/
def Obligations.IrqFollowsLatchAndEnable : Prop :=
  ∀ (s : State), (s.irq = true ↔ s.fault = true ∧ s.ie = true) ∧
    (∀ k w, (s.takeFault k w).irq = s.ie) ∧ s.hardReset.irq = false ∧ s.softReset.irq = false ∧
    (∀ i t, exec i s = .next t → s.fault = false → t.irq = true → t.fault = true ∧ s.ie = true)

/-! ### Frames over all commands -/

/-- 10_state R25 and R24: no command writes a register but its destination, and a completed command gives its
destination the tag of the table (for `CSEL`, the tag of its sources). -/
def Obligations.OnlyTheDestinationIsWritten : Prop :=
  ∀ (i : Instr) (s t : State), exec i s = .next t →
    (∀ r : RegIdx, (∀ d, destination i = some d → r ≠ d.1) → t.reg r = s.reg r) ∧
    (∀ rd tag, destination i = some (rd, some tag) → Retired s t → (t.reg rd).tag = tag) ∧
    (∀ rd, destination i = some (rd, none) → Retired s t → ∀ r ∈ sources i, (t.reg rd).tag = (s.reg r).tag)

/-- 10_state R27, 41_select_compare R120: `CEQ` and `SETC` are the only commands that write `C`, and a faulting
command leaves it unchanged. -/
def Obligations.OnlyCompareAndSetcWriteFlag : Prop :=
  ∀ (i : Instr) (s t : State), exec i s = .next t → writesFlag i = false ∨ t.cmdcnt = s.cmdcnt → t.c = s.c

/-- 20_memory R54 and 60_exceptions R186, R191 over all commands: a command that is no store changes no byte of `BUF`; a
store changes no byte outside the 32 from its `addr`, and none at all when it faults. -/
def Obligations.OnlyStoresWriteBuf : Prop :=
  ∀ (i : Instr) (s t : State), exec i s = .next t →
    (isStore i = false ∨ t.cmdcnt = s.cmdcnt → SameBytes s t) ∧
    (∀ a : Nat, a < (lenAddr i).2 ∨ (lenAddr i).2 + 32 ≤ a → t.bufByte a = s.bufByte a)

/-- 00_scope R12: the result of a command is a function of the command, of the tags and values of the registers
it names, of the buffer bytes it names and (for `CSEL` only) of `C`, and of nothing else but the fixed
configuration. -/
def Obligations.ResultsDependOnNamedOperandsOnly : Prop :=
  ∀ (i : Instr) (s s' t t' : State), s.cfg = s'.cfg → (∀ r ∈ sources i, s.reg r = s'.reg r) →
    (isLoad i = true → ∀ k : Nat, k < (lenAddr i).1 → s.bufByte ((lenAddr i).2 + k) = s'.bufByte ((lenAddr i).2 + k)) →
    ((∃ rd ra rb, i = .csel rd ra rb) → s.c = s'.c) →
    exec i s = .next t → exec i s' = .next t' →
    (t.cmdcnt = s.cmdcnt + 1 ↔ t'.cmdcnt = s'.cmdcnt + 1) ∧
    (t.cmdcnt = s.cmdcnt + 1 →
      (∀ d, destination i = some d → t.reg d.1 = t'.reg d.1) ∧
      (writesFlag i = true → t.c = t'.c) ∧
      (isStore i = true → ∀ k : Nat, k < 32 → t.bufByte ((lenAddr i).2 + k) = t'.bufByte ((lenAddr i).2 + k)))

/-! ### Invariants -/

/-- 10_state R22, R29, R45: the state after reset meets the invariant. -/
def Obligations.InvariantAtReset : Prop := State.reset.Inv

/-- 10_state R22 ("the invariant, kept by every command and by reset"), R29, 20_memory R50: every step, of the
core or of the host, keeps the invariant: each register's value is below its modulus, the latch is whole, the
buffer is canonical and inside its 4096 bytes. -/
def Obligations.EveryStepKeepsTheInvariant : Prop :=
  ∀ s t : State, s.Inv → step s = .next t → t.Inv

/-- 00_scope R5, 10_state R20: the configuration is no state: no step changes it. -/
def Obligations.NoStepChangesTheConfiguration : Prop :=
  ∀ s t : State, step s = .next t → t.cfg = s.cfg

/-- 60_exceptions R195, 10_state R33: only a host access that is no transaction of the port stops the machine;
in every other state the step answers a next state. Which accesses are none is settled in logs 5 and 6. -/
def Obligations.OnlyANonTransactionStopsTheStep : Prop :=
  ∀ s : State, (∃ t : State, step s = .next t) ∨
    ∃ a rest, s.host = a :: rest ∧
      ((∃ off, (a = .read32 off ∨ ∃ w, a = .write32 off w) ∧ (0x2000 ≤ off ∨ (off % 4 ≠ 0 ∧ (off < 0x0018 ∨ 0x1000 ≤ off)))) ∨
        ∃ off, (a = .read8 off ∨ ∃ b, a = .write8 off b) ∧ (0x2000 ≤ off ∨ off < 0x0018))

/-! ### The commands -/

/-- 40_field section 2: `FLD` with a legal length in range loads the little-endian integer, all 256 bits under
`INCLUDE` and the low 255 under `IGNORE`, reduced modulo `P`, under the tag `FE`. -/
def Obligations.FldLoadsTheReducedInteger : Prop :=
  ∀ (rd : RegIdx) (addr : Nat) (s : State), addr + 32 ≤ 4096 →
    ∃ t : State, exec (.fld rd 32 addr) s = .next t ∧
      (s.cfg.feTopBit = .incl → WroteReg rd .fe (leSum s addr 32 % fieldP) s t) ∧
      (s.cfg.feTopBit = .ignore → WroteReg rd .fe (leSum s addr 32 % 2 ^ 255 % fieldP) s t)

/-- 40_field R101, the parameter `FE_TOPBIT`: the two settings load values that differ exactly when bit 7 of
byte 31 is 1, and then by 19 modulo `P`. -/
def Obligations.TopBitReadingsDifferByNineteen : Prop :=
  ∀ n : Nat, n < 2 ^ 256 →
    (n < 2 ^ 255 → fieldInput .incl n % fieldP = fieldInput .ignore n % fieldP) ∧
    (2 ^ 255 ≤ n → fieldInput .incl n % fieldP = (fieldInput .ignore n + 19) % fieldP ∧
      fieldInput .incl n % fieldP ≠ fieldInput .ignore n % fieldP)

/-- 40_field section 2, 42_scalar section 2: `FST` of an `FE` register and `SST` of an `SP` register write the
32 little-endian bytes of the value at `addr`, and change nothing else. -/
def Obligations.StoresWriteTheValueBytes : Prop :=
  ∀ (ra : RegIdx) (addr : Nat) (s : State), addr + 32 ≤ 4096 →
    ((s.reg ra).tag = .fe →
      ∃ t : State, exec (.fst ra 32 addr) s = .next t ∧ WroteBytes addr (s.reg ra).val.toNat s t) ∧
    ((s.reg ra).tag = .sp →
      ∃ t : State, exec (.sst ra 32 addr) s = .next t ∧ WroteBytes addr (s.reg ra).val.toNat s t)

/-- 40_field section 3: `FADD` writes the sum and `FSUB` the difference, modulo `P`, in `[0, P)`. -/
def Obligations.FaddFsubAreModular : Prop :=
  ∀ (rd ra rb : RegIdx) (s : State), (s.reg ra).tag = .fe → (s.reg rb).tag = .fe →
    (∃ t : State, exec (.fadd rd ra rb) s = .next t ∧
      WroteReg rd .fe (((s.reg ra).val.toNat + (s.reg rb).val.toNat) % fieldP) s t) ∧
    (∃ (t : State) (v : Nat), exec (.fsub rd ra rb) s = .next t ∧ WroteReg rd .fe v s t ∧ v < fieldP ∧
      (v : Int) = ((s.reg ra).val.toNat - (s.reg rb).val.toNat : Int) % (fieldP : Int))

/-- 40_field section 4: `FMUL` writes the product modulo `P`; `FSQR rd, ra` writes what `FMUL rd, ra, ra`
writes, bit for bit. -/
def Obligations.FmulFsqrAreModular : Prop :=
  ∀ (rd ra rb : RegIdx) (s : State), (s.reg ra).tag = .fe →
    ((s.reg rb).tag = .fe →
      ∃ t : State, exec (.fmul rd ra rb) s = .next t ∧
        WroteReg rd .fe ((s.reg ra).val.toNat * (s.reg rb).val.toNat % fieldP) s t) ∧
    (∃ t : State, exec (.fsqr rd ra) s = .next t ∧ exec (.fmul rd ra ra) s = .next t ∧
      WroteReg rd .fe ((s.reg ra).val.toNat ^ 2 % fieldP) s t)

/-- 40_field section 5: `FINV` writes `a^(P−2) mod P` and never faults on an `FE` operand; zero gives zero; for
an operand not divisible by `P` the result is its inverse. -/
def Obligations.FinvIsTheFermatInverse : Prop :=
  ∀ (rd ra : RegIdx) (s : State), (s.reg ra).tag = .fe →
    ∃ (t : State) (v : Nat), exec (.finv rd ra) s = .next t ∧ WroteReg rd .fe v s t ∧
      v = (s.reg ra).val.toNat ^ (fieldP - 2) % fieldP ∧
      ((s.reg ra).val.toNat = 0 → v = 0) ∧
      (¬ fieldP ∣ (s.reg ra).val.toNat → (s.reg ra).val.toNat * v % fieldP = 1)

/-- 42_scalar section 2: `SLD` with 32 or 64 bytes in range loads the little-endian integer of all of them
modulo ℓ, under the tag `SP`. -/
def Obligations.SldLoadsTheReducedInteger : Prop :=
  ∀ (rd : RegIdx) (len addr : Nat) (s : State), s.cfg.WF → len = 32 ∨ len = 64 → addr + len ≤ 4096 →
    ∃ t : State, exec (.sld rd len addr) s = .next t ∧ WroteReg rd .sp (leSum s addr len % s.cfg.ell) s t

/-- 42_scalar section 3: `SUNPACK` multiplies by R modulo ℓ and tags `SM`; `SPACK` multiplies by R^−1 modulo ℓ
and tags `SP`: its result times R is the operand, modulo ℓ. -/
def Obligations.SunpackSpackConvert : Prop :=
  ∀ (rd ra : RegIdx) (s : State), s.cfg.WF →
    ((s.reg ra).tag = .sp →
      ∃ t : State, exec (.sunpack rd ra) s = .next t ∧
        WroteReg rd .sm ((s.reg ra).val.toNat * s.cfg.montR % s.cfg.ell) s t) ∧
    ((s.reg ra).tag = .sm →
      ∃ (t : State) (v : Nat), exec (.spack rd ra) s = .next t ∧ WroteReg rd .sp v s t ∧ v < s.cfg.ell ∧
        v * s.cfg.montR % s.cfg.ell = (s.reg ra).val.toNat % s.cfg.ell)

/-- 42_scalar section 4: `MMUL` writes `a·b·R^−1 mod ℓ`, the value below ℓ that times R is `a·b` modulo ℓ; `MSQR
rd, ra` writes what `MMUL rd, ra, ra` writes. -/
def Obligations.MmulMsqrAreMontgomeryProducts : Prop :=
  ∀ (rd ra rb : RegIdx) (s : State), s.cfg.WF → (s.reg ra).tag = .sm →
    ((s.reg rb).tag = .sm →
      ∃ (t : State) (v : Nat), exec (.mmul rd ra rb) s = .next t ∧ WroteReg rd .sm v s t ∧ v < s.cfg.ell ∧
        v * s.cfg.montR % s.cfg.ell = (s.reg ra).val.toNat * (s.reg rb).val.toNat % s.cfg.ell) ∧
    (∃ (t : State) (v : Nat), exec (.msqr rd ra) s = .next t ∧ exec (.mmul rd ra ra) s = .next t ∧
      WroteReg rd .sm v s t ∧ v < s.cfg.ell ∧
      v * s.cfg.montR % s.cfg.ell = (s.reg ra).val.toNat ^ 2 % s.cfg.ell)

/-- 42_scalar section 5: `MINV` writes the Montgomery form of `s^(ℓ−2)`, `s` the represented integer, and never
faults on an `SM` operand; zero gives zero; for a prime ℓ and an operand not divisible by it, the Montgomery
product of operand and result is the Montgomery form of one. -/
def Obligations.MinvIsTheMontgomeryInverse : Prop :=
  ∀ (rd ra : RegIdx) (s : State), s.cfg.WF → (s.reg ra).tag = .sm →
    ∃ (t : State) (v u : Nat), exec (.minv rd ra) s = .next t ∧ WroteReg rd .sm v s t ∧ v < s.cfg.ell ∧
      u < s.cfg.ell ∧ u * s.cfg.montR % s.cfg.ell = (s.reg ra).val.toNat % s.cfg.ell ∧
      v = u ^ (s.cfg.ell - 2) % s.cfg.ell * s.cfg.montR % s.cfg.ell ∧
      ((s.reg ra).val.toNat = 0 → v = 0) ∧
      (Nat.Prime s.cfg.ell → ¬ s.cfg.ell ∣ (s.reg ra).val.toNat →
        montMul s.cfg (s.reg ra).val.toNat v = s.cfg.montR % s.cfg.ell)

/-- 41_select_compare R121, its effect: `CEQ` of two registers of one non-EMPTY tag sets `C` to whether the
values are equal, and writes no register. -/
def Obligations.CeqComparesValues : Prop :=
  ∀ (ra rb : RegIdx) (s : State), (s.reg ra).tag ≠ .empty → (s.reg rb).tag = (s.reg ra).tag →
    ∃ t : State, exec (.ceq ra rb) s = .next t ∧
      ((s.reg ra).val = (s.reg rb).val → WroteFlag true s t) ∧
      ((s.reg ra).val ≠ (s.reg rb).val → WroteFlag false s t)

/-- 41_select_compare R122, its effect and polarity: `C` = 0 copies `ra` and `C` = 1 copies `rb`, tag and value,
to `rd`; with one source twice (the pseudo-instruction `MOV`) the copy does not depend on `C`. -/
def Obligations.CselSelectsByFlag : Prop :=
  ∀ (rd ra rb : RegIdx) (s : State), (s.reg ra).tag ≠ .empty → (s.reg rb).tag = (s.reg ra).tag →
    (s.c = false → ∃ t : State, exec (.csel rd ra rb) s = .next t ∧
      WroteReg rd (s.reg ra).tag (s.reg ra).val.toNat s t) ∧
    (s.c = true → ∃ t : State, exec (.csel rd ra rb) s = .next t ∧
      WroteReg rd (s.reg ra).tag (s.reg rb).val.toNat s t) ∧
    (∃ t : State, exec (.csel rd ra ra) s = .next t ∧ WroteReg rd (s.reg ra).tag (s.reg ra).val.toNat s t)

/-- 41_select_compare R123: `SETC`: its encoding `0x32000000 | imm1`, its must-be-zero bits, its effect `C <-
imm1`; its only fault is ILLEGAL. -/
def Obligations.SetcSetsFlag : Prop :=
  (∀ b : Bool, encode (.setc b) = 0x32000000#32 ||| (BitVec.ofBool b).setWidth 32 ∧ decode (encode (.setc b)) = .ok (.setc b)) ∧
  (∀ w : Word, w.extractLsb' 24 8 = 0x32#8 → w.extractLsb' 1 23 ≠ 0 → ∀ i : Instr, decode w ≠ .ok i) ∧
  (∀ (b : Bool) (s : State), ∃ t : State, exec (.setc b) s = .next t ∧ WroteFlag b s t)

/-- 41_select_compare R124: `CEQ ra, rb` then `CSEL rd, rc, re` selects `re` when `ra = rb` and `rc` otherwise.
-/
def Obligations.CompareThenSelect : Prop :=
  ∀ (ra rb rc re rd : RegIdx) (s : State), (s.reg ra).tag ≠ .empty → (s.reg rb).tag = (s.reg ra).tag →
    (s.reg rc).tag ≠ .empty → (s.reg re).tag = (s.reg rc).tag →
    ∃ t u : State, exec (.ceq ra rb) s = .next t ∧ exec (.csel rd rc re) t = .next u ∧
      ((s.reg ra).val = (s.reg rb).val → u.reg rd = s.reg re) ∧
      ((s.reg ra).val ≠ (s.reg rb).val → u.reg rd = s.reg rc)

/-! ### The laws every model must satisfy -/

/-- 40_field R109: the four laws of the field, each over the commands that state it: (a) `FST`, `FLD` of the
same bytes gives the register's value back and the same bytes again; (b) the product of a value with itself is
its square; (c) a nonzero value times its inverse is one; (d) squaring twice is the fourth power by repeated
multiplication. -/
def Obligations.FieldLaws : Prop :=
  (∀ (ra rd : RegIdx) (addr : Nat) (s t u : State), addr + 32 ≤ 4096 → (s.reg ra).tag = .fe →
    (s.reg ra).val.toNat < fieldP → exec (.fst ra 32 addr) s = .next t → exec (.fld rd 32 addr) t = .next u →
    u.reg rd = s.reg ra ∧
      ∃ v : State, exec (.fst rd 32 addr) u = .next v ∧ ∀ k : Nat, k < 32 → v.bufByte (addr + k) = t.bufByte (addr + k)) ∧
  (∀ (ra rd : RegIdx) (s : State), exec (.fsqr rd ra) s = exec (.fmul rd ra ra) s ∨ (s.reg ra).tag ≠ .fe) ∧
  (∀ (ra rd rq : RegIdx) (s t u : State), (s.reg ra).tag = .fe → 0 < (s.reg ra).val.toNat →
    (s.reg ra).val.toNat < fieldP → rd ≠ ra → exec (.finv rd ra) s = .next t → exec (.fmul rq ra rd) t = .next u →
    u.reg rq = ⟨.fe, 1⟩) ∧
  (∀ (ra rd rq : RegIdx) (s t u p q v : State), (s.reg ra).tag = .fe → rd ≠ ra → rq ≠ ra →
    exec (.fsqr rd ra) s = .next t → exec (.fsqr rd rd) t = .next u →
    exec (.fmul rq ra ra) s = .next p → exec (.fmul rq rq ra) p = .next q → exec (.fmul rq rq ra) q = .next v →
    u.reg rd = v.reg rq)

/-- 42_scalar R139: the four laws of the scalars, each over the commands that state it: (a) pack after unpack
gives the packed value back; (b) the Montgomery product is the Montgomery form of the product of the packed
operands; (c) a nonzero packed scalar times its inverse, packed, is one (ℓ prime, as R7 says it is); (d) a
64-byte load whose high 32 bytes are zero is the 32-byte load. -/
def Obligations.ScalarLaws : Prop :=
  (∀ (ra rd rq : RegIdx) (s t u : State), s.cfg.WF → (s.reg ra).tag = .sp → (s.reg ra).val.toNat < s.cfg.ell →
    exec (.sunpack rd ra) s = .next t → exec (.spack rq rd) t = .next u → u.reg rq = s.reg ra) ∧
  (∀ (ra rb rd : RegIdx) (s t ta tb : State), s.cfg.WF → (s.reg ra).tag = .sm → (s.reg rb).tag = .sm →
    exec (.mmul rd ra rb) s = .next t → exec (.spack rd ra) s = .next ta → exec (.spack rd rb) s = .next tb →
    (t.reg rd).val.toNat =
      (ta.reg rd).val.toNat * (tb.reg rd).val.toNat % s.cfg.ell * s.cfg.montR % s.cfg.ell) ∧
  (∀ (ra rd rq : RegIdx) (s t u v w : State), s.cfg.WF → Nat.Prime s.cfg.ell → (s.reg ra).tag = .sp →
    0 < (s.reg ra).val.toNat → (s.reg ra).val.toNat < s.cfg.ell → rq ≠ rd →
    exec (.sunpack rd ra) s = .next t → exec (.minv rq rd) t = .next u → exec (.mmul rq rd rq) u = .next v →
    exec (.spack rq rq) v = .next w → w.reg rq = ⟨.sp, 1⟩) ∧
  (∀ (rd : RegIdx) (addr : Nat) (s t u : State), s.cfg.WF → addr + 64 ≤ 4096 →
    (∀ k : Nat, k < 32 → s.bufByte (addr + 32 + k) = 0) →
    exec (.sld rd 64 addr) s = .next t → exec (.sld rd 32 addr) s = .next u → t.reg rd = u.reg rd)

/-! ### The datapath computes the integer rules -/

/-- 43_datapath section 2 (R153, R154): for limbs below 2^52 the columns fit the bounds given (so every
accumulator its 128 bits), the result limbs are below 2^52 again, and the integer of the result is the product
modulo `P`. -/
def Obligations.FieldMultiplierRefinesTheProduct : Prop :=
  ∀ a b : Limbs, a.FeBound → b.FeBound →
    (fieldColumns a b).below (2 ^ 112) ∧ (fieldColumns a b).l4 < 2 ^ 107 ∧
    (fieldMulLimbs a b).FeBound ∧
    (fieldMulLimbs a b).l0 ≤ 2 ^ 51 - 1 ∧ (fieldMulLimbs a b).l1 < 2 ^ 51 + 2 ^ 11 ∧
    (fieldMulLimbs a b).l2 ≤ 2 ^ 51 - 1 ∧ (fieldMulLimbs a b).l3 ≤ 2 ^ 51 - 1 ∧ (fieldMulLimbs a b).l4 ≤ 2 ^ 51 - 1 ∧
    value51 (fieldMulLimbs a b) % fieldP = value51 a * value51 b % fieldP

/-- 43_datapath R155: the square's columns are the product's with equal factors, so its limbs are those of the
multiplier. -/
def Obligations.SquarerGivesTheMultipliersLimbs : Prop :=
  ∀ a : Limbs, squareColumns a = fieldColumns a a ∧ fieldSqrLimbs a = fieldMulLimbs a a

/-- 43_datapath R156: addition and subtraction on limbs below 2^52: the bias is 16·P, no limb of the difference
borrows, sums stay below 2^53 and differences below 2^56, results are below 2^52 and represent the sum and the
difference modulo `P`. -/
def Obligations.FieldAdderRefinesSumAndDifference : Prop :=
  value51 subBias = 16 * fieldP ∧
  ∀ a b : Limbs, a.FeBound → b.FeBound →
    (a.l0 + b.l0 < 2 ^ 53 ∧ a.l1 + b.l1 < 2 ^ 53 ∧ a.l2 + b.l2 < 2 ^ 53 ∧ a.l3 + b.l3 < 2 ^ 53 ∧ a.l4 + b.l4 < 2 ^ 53) ∧
    (b.l0 < subBias.l0 ∧ b.l1 < subBias.l1 ∧ b.l2 < subBias.l2 ∧ b.l3 < subBias.l3 ∧ b.l4 < subBias.l4) ∧
    (a.l0 + subBias.l0 - b.l0 < 2 ^ 56 ∧ a.l1 + subBias.l1 - b.l1 < 2 ^ 56 ∧ a.l2 + subBias.l2 - b.l2 < 2 ^ 56 ∧
      a.l3 + subBias.l3 - b.l3 < 2 ^ 56 ∧ a.l4 + subBias.l4 - b.l4 < 2 ^ 56) ∧
    (fieldAddLimbs a b).FeBound ∧ (fieldSubLimbs a b).FeBound ∧
    value51 (fieldAddLimbs a b) % fieldP = (value51 a + value51 b) % fieldP ∧
    ((value51 (fieldSubLimbs a b) : Int) % (fieldP : Int)) = ((value51 a - value51 b : Int) % (fieldP : Int))

/-- 43_datapath R152 and R165: the deserializer gives limbs in the bound that represent the input under either
setting; canonicalization gives the canonical limbs of the residue; the serializer writes its 32 bytes. -/
def Obligations.FieldSerializersRefineTheResidue : Prop :=
  (∀ (tb : TopBit) (n : Nat), n < 2 ^ 256 →
    (fieldDeserialize tb n).l0 < 2 ^ 51 + 19 ∧ (fieldDeserialize tb n).FeBound ∧
    value51 (fieldDeserialize tb n) % fieldP = fieldInput tb n % fieldP) ∧
  (∀ h : Limbs, h.FeBound →
    (canonicalize h).FeCanonical ∧ value51 (canonicalize h) = value51 h % fieldP ∧
    fieldSerialize h = toLE (value51 h % fieldP) 32)

/-- 43_datapath R157: the chain of `FINV` is 254 squarings and 11 multiplications; its temporaries hold the
exponents of the table, the last P − 2; on limbs it computes the power `FINV` is defined by, within the limb
bound, zero included. -/
def Obligations.FieldInverterRefinesThePower : Prop :=
  (finvChain.flatMap chainTrace).count .fsqr = 254 ∧ (finvChain.flatMap chainTrace).count .fmul = 11 ∧
  chainRows (fun e : Nat => 2 * e) (fun e f : Nat => e + f) 1 finvChain [1] =
    [1, 2, 8, 9, 11, 22, 2 ^ 5 - 1, 2 ^ 10 - 2 ^ 5, 2 ^ 10 - 1, 2 ^ 20 - 2 ^ 10, 2 ^ 20 - 1, 2 ^ 40 - 2 ^ 20,
      2 ^ 40 - 1, 2 ^ 50 - 2 ^ 10, 2 ^ 50 - 1, 2 ^ 100 - 2 ^ 50, 2 ^ 100 - 1, 2 ^ 200 - 2 ^ 100, 2 ^ 200 - 1,
      2 ^ 250 - 2 ^ 50, 2 ^ 250 - 1, 2 ^ 255 - 2 ^ 5, fieldP - 2] ∧
  ∀ a : Limbs, a.FeBound →
    (fieldInvLimbs a).FeBound ∧ value51 (fieldInvLimbs a) % fieldP = powMod (value51 a % fieldP) (fieldP - 2) fieldP

/-- 43_datapath R160 and R161: for an odd ℓ of 253 bits and `T < ℓ·R`, after the five iterations the low 260
bits are zero, the shifted value is below 2ℓ, and `REDC(T)` is the canonical limb form of the value below ℓ that
times R is `T` modulo ℓ. -/
def Obligations.RedcIsMontgomeryReduction : Prop :=
  ∀ ell T : Nat, 2 ^ 252 < ell → ell < 2 ^ 253 → ell % 2 = 1 → T < ell * (2 ^ 52) ^ 5 →
    redcLoop ell T % (2 ^ 52) ^ 5 = 0 ∧ redcLoop ell T / (2 ^ 52) ^ 5 < 2 * ell ∧
    (redc ell T).ScCanonical ell ∧ value52 (redc ell T) * (2 ^ 52) ^ 5 % ell = T % ell

/-- 43_datapath R159, R160, R163: on canonical limbs the scalar unit computes the integer rules of `MMUL`,
`MSQR`, `SUNPACK` and `SPACK`, and its nine columns fit 107 bits and sum to the product. -/
def Obligations.ScalarUnitRefinesTheIntegerRules : Prop :=
  ∀ (ell : Nat) (a b : Limbs), (datapathConfig ell).WF → a.ScCanonical ell → b.ScCanonical ell →
    (∀ z ∈ scalarColumns a b, z < 2 ^ 107) ∧ scalarProduct a b = value52 a * value52 b ∧
    value52 (mmulLimbs ell a b) = montMul (datapathConfig ell) (value52 a) (value52 b) ∧
    (mmulLimbs ell a b).ScCanonical ell ∧ msqrLimbs ell a = mmulLimbs ell a a ∧
    value52 (sunpackLimbs ell a) = toMont (datapathConfig ell) (value52 a) ∧
    value52 (spackLimbs ell a) = fromMont (datapathConfig ell) (value52 a)

/-- 43_datapath R162: the load reduction through `REDC` gives the input modulo ℓ, for 32-byte and for 64-byte
inputs. -/
def Obligations.ScalarLoadReductionIsModEll : Prop :=
  ∀ ell n : Nat, (datapathConfig ell).WF →
    (n < 2 ^ 256 → value52 (sld32Limbs ell n) = n % ell ∧ (sld32Limbs ell n).ScCanonical ell) ∧
    (n < 2 ^ 512 → value52 (sld64Limbs ell n) = n % ell ∧ (sld64Limbs ell n).ScCanonical ell)

/-- 43_datapath R164: for ℓ − 2 with its top bit at 252 (true of the spec's ℓ), the binary exponentiation in the
Montgomery domain computes the integer rule of `MINV`, zero included; for the default ℓ it is 252 squarings and
72 multiplications. -/
def Obligations.ScalarInverterRefinesMinv : Prop :=
  (∀ (ell : Nat) (a : Limbs), (datapathConfig ell).WF → 2 ^ 252 + 2 ≤ ell → a.ScCanonical ell →
    (minvLimbs ell a).ScCanonical ell ∧ value52 (minvLimbs ell a) = montInv (datapathConfig ell) (value52 a)) ∧
  (trace Config.default.ell 0x26 0).count .msqr = 252 ∧ (trace Config.default.ell 0x26 0).count .mmul = 72

/-- 43_datapath R166 and R167, 41_select_compare R122: the comparator answers equality of residues, the bitmask
select answers the operand the flag names, on 256-bit values and on limbs. -/
def Obligations.ComparatorAndSelectRefine : Prop :=
  (∀ a b : Val, compareVals a b = true ↔ a = b) ∧
  (∀ a b : Limbs, a.FeBound → b.FeBound →
    (compareFieldLimbs a b = true ↔ value51 a % fieldP = value51 b % fieldP)) ∧
  (∀ (c : Bool) (a b : Val), selectVals c a b = if c then b else a) ∧
  (∀ (c : Bool) (a b : Limbs), a.FeBound → b.FeBound → selectLimbs c a b = if c then b else a)
end

