-- ==== Sys2Proof/Laws/Arith.lean ====
section
/-!
SUPPORT. The modular power and the modular inverse are what 00_scope R9 says they are.
-/

namespace Sys2Proof.Machine

theorem powModGo_mod (k acc b e m : Nat) (h : e < 2 ^ k) :
    powModGo k acc b e m % m = acc * b ^ e % m := by
  induction k generalizing acc b e with
  | zero =>
    have : e = 0 := by simpa using h
    simp [powModGo, this]
  | succ k ih =>
    have h2 : e / 2 < 2 ^ k := by rw [Nat.pow_succ] at h; omega
    rw [powModGo, ih _ _ _ h2, ← Nat.mul_mod_mod, ← Nat.pow_mod, Nat.mul_mod_mod]
    have hb : (b * b) ^ (e / 2) = b ^ (2 * (e / 2)) := by rw [pow_mul, pow_two]
    rw [hb]
    split
    · next ho =>
      rw [Nat.mod_mul_mod]
      congr 1
      conv_rhs => rw [show e = 2 * (e / 2) + 1 by omega]
      ring
    · next ho => rw [show 2 * (e / 2) = e by omega]

theorem powModGo_lt {k acc b e m : Nat} (hm : 0 < m) (h : acc < m) : powModGo k acc b e m < m := by
  induction k generalizing acc b e with
  | zero => exact h
  | succ k ih =>
    rw [powModGo]
    apply ih
    split
    · exact Nat.mod_lt _ hm
    · exact h

/-- `pow(a, e, m) = a^e mod m` (R9). -/
theorem powMod_eq (a e m : Nat) : powMod a e m = a ^ e % m := by
  rcases Nat.eq_zero_or_pos m with rfl | hm
  · have h := powModGo_mod (e.log2 + 1) 1 a e 0 Nat.lt_log2_self
    simpa [powMod] using h
  · have h := powModGo_mod (e.log2 + 1) (1 % m) (a % m) e m Nat.lt_log2_self
    have hlt : powMod a e m < m := powModGo_lt hm (Nat.mod_lt _ hm)
    rw [← Nat.mod_eq_of_lt hlt]
    unfold powMod
    rw [h, Nat.mod_mul_mod, one_mul, ← Nat.pow_mod]

/-- The power of zero is zero (R9, 40_field R107). -/
theorem powMod_zero {e : Nat} (m : Nat) (he : 0 < e) : powMod 0 e m = 0 := by
  rw [powMod_eq, Nat.zero_pow he, Nat.zero_mod]

theorem powMod_lt {m : Nat} (a e : Nat) (hm : 0 < m) : powMod a e m < m := by
  rw [powMod_eq]
  exact Nat.mod_lt _ hm

/-- Euclid's loop keeps `t_i · a ≡ r_i (mod m)`, so it ends with a factor of the gcd. -/
theorem invModGo_spec (k r0 r1 t0 t1 a m : Nat) (hm : 0 < m) (hk : r1 < k)
    (h0 : t0 * a % m = r0 % m) (h1 : t1 * a % m = r1 % m) :
    invModGo k r0 r1 t0 t1 m * a % m = Nat.gcd r0 r1 % m := by
  induction k generalizing r0 r1 t0 t1 with
  | zero => omega
  | succ k ih =>
    rw [invModGo]
    split
    · next h => simp [h, h0]
    · next h =>
      have hr : r0 % r1 < r1 := Nat.mod_lt _ (by omega)
      rw [ih r1 (r0 % r1) t1 _ (by omega) h1, Nat.gcd_comm r1, ← Nat.gcd_rec, Nat.gcd_comm]
      -- the new factor: (t0 − q·t1)·a ≡ r0 − q·r1
      have hq : r0 / r1 * t1 % m < m := Nat.mod_lt _ hm
      have e : ((t0 + (m - r0 / r1 * t1 % m)) % m * a) ≡ r0 % r1 [MOD m] := by
        have e1 : (t0 + (m - r0 / r1 * t1 % m)) % m * a + r0 / r1 * (t1 * a) ≡ r0 % r1 + r0 / r1 * r1 [MOD m] := by
          have e2 : (t0 + (m - r0 / r1 * t1 % m)) % m * a + r0 / r1 * (t1 * a) ≡
              (t0 + (m - r0 / r1 * t1 % m) + r0 / r1 * t1 % m) * a [MOD m] := by
            rw [add_mul _ (r0 / r1 * t1 % m) a, ← mul_assoc]
            exact Nat.ModEq.add ((Nat.mod_modEq _ _).mul_right a) ((Nat.mod_modEq _ _).symm.mul_right a)
          refine e2.trans ?_
          rw [show t0 + (m - r0 / r1 * t1 % m) + r0 / r1 * t1 % m = t0 + m by omega,
            show r0 % r1 + r0 / r1 * r1 = r0 by rw [Nat.mul_comm]; exact Nat.mod_add_div r0 r1]
          have e3 : (t0 + m) * a ≡ t0 * a [MOD m] := by
            rw [add_mul]
            exact (Nat.ModEq.refl (t0 * a)).add (Nat.modEq_zero_iff_dvd.mpr (dvd_mul_right m a))
          exact e3.trans h0
        exact Nat.ModEq.add_right_cancel ((Nat.ModEq.refl _).mul (show t1 * a ≡ r1 [MOD m] from h1)) e1
      exact e

/-- `a^−1 mod m` is an inverse (R9). -/
theorem invMod_mul (a m : Nat) (hm : 1 < m) (h : Nat.gcd a m = 1) : invMod a m * a % m = 1 := by
  have hs := invModGo_spec (m + 1) m (a % m) 0 (1 % m) a m (by omega)
    (by have := Nat.mod_lt a (show 0 < m by omega); omega) (by simp)
    (by rw [Nat.mod_mul_mod]; simp)
  rw [invMod, hs, Nat.gcd_comm, ← Nat.gcd_rec, Nat.gcd_comm, h, Nat.mod_eq_of_lt hm]

theorem wf_ell_pos {c : Config} (h : c.WF) : 0 < c.ell := by
  have := h.1
  omega

theorem wf_one_lt_ell {c : Config} (h : c.WF) : 1 < c.ell :=
  lt_trans (by norm_num) h.1

theorem wf_ell_lt {c : Config} (h : c.WF) : c.ell < 2 ^ 256 :=
  lt_trans h.2.1 (by norm_num)

/-- `R · R^−1 ≡ 1 (mod ℓ)` (00_scope R8). -/
theorem rinv_mul {c : Config} (h : c.WF) : rinv c * c.montR % c.ell = 1 :=
  invMod_mul _ _ (wf_one_lt_ell h) h.2.2.2

end Sys2Proof.Machine
end

