-- ==== Sys2Proof/Laws/Config.lean ====
section
/-!
SUPPORT. The parameters the spec fixes have the spec's values in every configuration (00_scope R5), and the model's types
have their sizes.
-/

namespace Sys2Proof

section
variable (c : Config)

@[simp] theorem Config.p_eq : c.p = fieldP := c.fixed.1
@[simp] theorem Config.nreg_eq : c.nreg = 16 := c.fixed.2.1
@[simp] theorem Config.regBits_eq : c.regBits = 256 := c.fixed.2.2.1
@[simp] theorem Config.bufSize_eq : c.bufSize = Sys2Proof.bufSize := c.fixed.2.2.2.1
@[simp] theorem Config.cmdBits_eq : c.cmdBits = 32 := c.fixed.2.2.2.2.1
@[simp] theorem Config.feLimbs_eq : c.feLimbs = 5 := c.fixed.2.2.2.2.2.1
@[simp] theorem Config.feRadix_eq : c.feRadix = 2 ^ 51 := c.fixed.2.2.2.2.2.2.1
@[simp] theorem Config.scLimbs_eq : c.scLimbs = 5 := c.fixed.2.2.2.2.2.2.2.1
@[simp] theorem Config.scRadix_eq : c.scRadix = 2 ^ 52 := c.fixed.2.2.2.2.2.2.2.2

/-- There are `NREG` register numbers. -/
theorem Config.card_regIdx : Fintype.card RegIdx = c.nreg := by simp

/-- A value field has `REG_BITS` bits, and a command word `CMD_BITS`. -/
theorem Config.widths : Val = BitVec c.regBits ∧ Word = BitVec c.cmdBits := by simp [Val, Word]

end

end Sys2Proof
end

