-- ==== Sys2Proof/Laws/Decode.lean ====
section
/-!
SUPPORT. The fields of a word as integers, the fields of the words the encoder builds, and the masks of the command
table in terms of fields (30_encoding R71, R75).
-/

namespace Sys2Proof

theorem fieldAt_eq (w : Word) (lo n : Nat) : fieldAt w lo n = w.toNat / 2 ^ lo % 2 ^ n := by
  simp [fieldAt, BitVec.extractLsb'_toNat, Nat.shiftRight_eq_div_pow]

theorem fieldAt_lt (w : Word) (lo n : Nat) : fieldAt w lo n < 2 ^ n :=
  (w.extractLsb' lo n).isLt

theorem regAt_val (w : Word) (lo : Nat) : (regAt w lo).val = w.toNat / 2 ^ lo % 2 ^ 4 := by
  rw [← fieldAt_eq]
  rfl

/-- A field known as an integer is known as bits. -/
theorem extract_of_fieldAt {w : Word} {lo n k : Nat} (h : fieldAt w lo n = k) :
    w.extractLsb' lo n = BitVec.ofNat n k := by
  rw [← h, fieldAt, BitVec.ofNat_toNat, BitVec.setWidth_eq]

theorem wordM_toNat (op : Nat) (r : RegIdx) (len addr : Nat) (h : op < 256) (hl : len < 256) (ha : addr < 4096) :
    (wordM op r len addr).toNat = op * 2 ^ 24 + r.val * 2 ^ 20 + len * 2 ^ 12 + addr := by
  have := r.isLt
  simp only [wordM, BitVec.toNat_ofNat]
  omega

theorem wordR_toNat (op : Nat) (rd ra rb : RegIdx) (h : op < 256) :
    (wordR op rd ra rb).toNat = op * 2 ^ 24 + rd.val * 2 ^ 20 + ra.val * 2 ^ 16 + rb.val * 2 ^ 12 := by
  have := rd.isLt
  have := ra.isLt
  have := rb.isLt
  simp only [wordR, BitVec.toNat_ofNat]
  omega

/-- The mask of format M keeps the opcode. -/
theorem and_maskM (w : Word) : w &&& 0xFF000000#32 = (w.extractLsb' 24 8).setWidth 32 <<< 24 := by
  apply BitVec.eq_of_getLsbD_eq
  intro i hi
  interval_cases i <;> simp

/-- The mask of format R3 keeps the opcode and `w[11:0]`. -/
theorem and_maskR3 (w : Word) :
    w &&& 0xFF000FFF#32 = (w.extractLsb' 24 8).setWidth 32 <<< 24 ||| (w.extractLsb' 0 12).setWidth 32 := by
  apply BitVec.eq_of_getLsbD_eq
  intro i hi
  interval_cases i <;> simp

/-- The mask of format R2 keeps the opcode and `w[15:0]`. -/
theorem and_maskR2 (w : Word) :
    w &&& 0xFF00FFFF#32 = (w.extractLsb' 24 8).setWidth 32 <<< 24 ||| (w.extractLsb' 0 16).setWidth 32 := by
  apply BitVec.eq_of_getLsbD_eq
  intro i hi
  interval_cases i <;> simp

/-- The mask of format RC keeps the opcode, `w[23:20]` and `w[11:0]`. -/
theorem and_maskRC (w : Word) :
    w &&& 0xFFF00FFF#32 = (w.extractLsb' 20 12).setWidth 32 <<< 20 ||| (w.extractLsb' 0 12).setWidth 32 := by
  apply BitVec.eq_of_getLsbD_eq
  intro i hi
  interval_cases i <;> simp

/-- The mask of format I keeps all but `imm1`. -/
theorem and_maskI (w : Word) : w &&& 0xFFFFFFFE#32 = (w.extractLsb' 1 31).setWidth 32 <<< 1 := by
  apply BitVec.eq_of_getLsbD_eq
  intro i hi
  interval_cases i <;> simp

end Sys2Proof
end

