-- ==== Sys2Proof/Laws/State.lean ====
section
/-!
SUPPORT. One lemma per field and update of the state, so that no proof unfolds a record update.
-/

namespace Sys2Proof.Machine

section
variable (s : State)

@[simp] theorem State.setReg_regs (i : RegIdx) (r : Reg) : (s.setReg i r).regs = s.regs.set i.val r := rfl
@[simp] theorem State.setReg_c (i : RegIdx) (r : Reg) : (s.setReg i r).c = s.c := rfl
@[simp] theorem State.setReg_buf (i : RegIdx) (r : Reg) : (s.setReg i r).buf = s.buf := rfl
@[simp] theorem State.setReg_fault (i : RegIdx) (r : Reg) : (s.setReg i r).fault = s.fault := rfl
@[simp] theorem State.setReg_cause (i : RegIdx) (r : Reg) : (s.setReg i r).cause = s.cause := rfl
@[simp] theorem State.setReg_faultcmd (i : RegIdx) (r : Reg) : (s.setReg i r).faultcmd = s.faultcmd := rfl
@[simp] theorem State.setReg_ie (i : RegIdx) (r : Reg) : (s.setReg i r).ie = s.ie := rfl
@[simp] theorem State.setReg_cmdcnt (i : RegIdx) (r : Reg) : (s.setReg i r).cmdcnt = s.cmdcnt := rfl
@[simp] theorem State.setReg_pend (i : RegIdx) (r : Reg) : (s.setReg i r).pend = s.pend := rfl
@[simp] theorem State.setReg_cfg (i : RegIdx) (r : Reg) : (s.setReg i r).cfg = s.cfg := rfl
@[simp] theorem State.setReg_launch (i : RegIdx) (r : Reg) : (s.setReg i r).launch = s.launch := rfl
@[simp] theorem State.setReg_host (i : RegIdx) (r : Reg) : (s.setReg i r).host = s.host := rfl
@[simp] theorem State.setReg_reads (i : RegIdx) (r : Reg) : (s.setReg i r).reads = s.reads := rfl

@[simp] theorem State.setC_regs (b : Bool) : (s.setC b).regs = s.regs := rfl
@[simp] theorem State.setC_c (b : Bool) : (s.setC b).c = b := rfl
@[simp] theorem State.setC_buf (b : Bool) : (s.setC b).buf = s.buf := rfl
@[simp] theorem State.setC_fault (b : Bool) : (s.setC b).fault = s.fault := rfl
@[simp] theorem State.setC_cause (b : Bool) : (s.setC b).cause = s.cause := rfl
@[simp] theorem State.setC_faultcmd (b : Bool) : (s.setC b).faultcmd = s.faultcmd := rfl
@[simp] theorem State.setC_ie (b : Bool) : (s.setC b).ie = s.ie := rfl
@[simp] theorem State.setC_cmdcnt (b : Bool) : (s.setC b).cmdcnt = s.cmdcnt := rfl
@[simp] theorem State.setC_pend (b : Bool) : (s.setC b).pend = s.pend := rfl
@[simp] theorem State.setC_cfg (b : Bool) : (s.setC b).cfg = s.cfg := rfl
@[simp] theorem State.setC_launch (b : Bool) : (s.setC b).launch = s.launch := rfl
@[simp] theorem State.setC_host (b : Bool) : (s.setC b).host = s.host := rfl
@[simp] theorem State.setC_reads (b : Bool) : (s.setC b).reads = s.reads := rfl

@[simp] theorem State.memWrite_regs (addr : Nat) (bs : List Byte) : (s.memWrite addr bs).regs = s.regs := rfl
@[simp] theorem State.memWrite_c (addr : Nat) (bs : List Byte) : (s.memWrite addr bs).c = s.c := rfl
@[simp] theorem State.memWrite_buf (addr : Nat) (bs : List Byte) : (s.memWrite addr bs).buf = Mem.putAll s.buf addr bs := rfl
@[simp] theorem State.memWrite_fault (addr : Nat) (bs : List Byte) : (s.memWrite addr bs).fault = s.fault := rfl
@[simp] theorem State.memWrite_cause (addr : Nat) (bs : List Byte) : (s.memWrite addr bs).cause = s.cause := rfl
@[simp] theorem State.memWrite_faultcmd (addr : Nat) (bs : List Byte) : (s.memWrite addr bs).faultcmd = s.faultcmd := rfl
@[simp] theorem State.memWrite_ie (addr : Nat) (bs : List Byte) : (s.memWrite addr bs).ie = s.ie := rfl
@[simp] theorem State.memWrite_cmdcnt (addr : Nat) (bs : List Byte) : (s.memWrite addr bs).cmdcnt = s.cmdcnt := rfl
@[simp] theorem State.memWrite_pend (addr : Nat) (bs : List Byte) : (s.memWrite addr bs).pend = s.pend := rfl
@[simp] theorem State.memWrite_cfg (addr : Nat) (bs : List Byte) : (s.memWrite addr bs).cfg = s.cfg := rfl
@[simp] theorem State.memWrite_launch (addr : Nat) (bs : List Byte) : (s.memWrite addr bs).launch = s.launch := rfl
@[simp] theorem State.memWrite_host (addr : Nat) (bs : List Byte) : (s.memWrite addr bs).host = s.host := rfl
@[simp] theorem State.memWrite_reads (addr : Nat) (bs : List Byte) : (s.memWrite addr bs).reads = s.reads := rfl

@[simp] theorem State.retire_regs : s.retire.regs = s.regs := rfl
@[simp] theorem State.retire_c : s.retire.c = s.c := rfl
@[simp] theorem State.retire_buf : s.retire.buf = s.buf := rfl
@[simp] theorem State.retire_fault : s.retire.fault = s.fault := rfl
@[simp] theorem State.retire_cause : s.retire.cause = s.cause := rfl
@[simp] theorem State.retire_faultcmd : s.retire.faultcmd = s.faultcmd := rfl
@[simp] theorem State.retire_ie : s.retire.ie = s.ie := rfl
@[simp] theorem State.retire_cmdcnt : s.retire.cmdcnt = s.cmdcnt + 1 := rfl
@[simp] theorem State.retire_pend : s.retire.pend = none := rfl
@[simp] theorem State.retire_cfg : s.retire.cfg = s.cfg := rfl
@[simp] theorem State.retire_launch : s.retire.launch = s.launch := rfl
@[simp] theorem State.retire_host : s.retire.host = s.host := rfl
@[simp] theorem State.retire_reads : s.retire.reads = s.reads := rfl

@[simp] theorem State.takeFault_regs (k : Cause) (w : Word) : (s.takeFault k w).regs = s.regs := rfl
@[simp] theorem State.takeFault_c (k : Cause) (w : Word) : (s.takeFault k w).c = s.c := rfl
@[simp] theorem State.takeFault_buf (k : Cause) (w : Word) : (s.takeFault k w).buf = s.buf := rfl
@[simp] theorem State.takeFault_fault (k : Cause) (w : Word) : (s.takeFault k w).fault = true := rfl
@[simp] theorem State.takeFault_cause (k : Cause) (w : Word) : (s.takeFault k w).cause = k := rfl
@[simp] theorem State.takeFault_faultcmd (k : Cause) (w : Word) : (s.takeFault k w).faultcmd = w := rfl
@[simp] theorem State.takeFault_ie (k : Cause) (w : Word) : (s.takeFault k w).ie = s.ie := rfl
@[simp] theorem State.takeFault_cmdcnt (k : Cause) (w : Word) : (s.takeFault k w).cmdcnt = s.cmdcnt := rfl
@[simp] theorem State.takeFault_pend (k : Cause) (w : Word) : (s.takeFault k w).pend = none := rfl
@[simp] theorem State.takeFault_cfg (k : Cause) (w : Word) : (s.takeFault k w).cfg = s.cfg := rfl
@[simp] theorem State.takeFault_launch (k : Cause) (w : Word) : (s.takeFault k w).launch = s.launch := rfl
@[simp] theorem State.takeFault_host (k : Cause) (w : Word) : (s.takeFault k w).host = s.host := rfl
@[simp] theorem State.takeFault_reads (k : Cause) (w : Word) : (s.takeFault k w).reads = s.reads := rfl

@[simp] theorem State.softReset_regs : s.softReset.regs = Vector.replicate 16 ⟨.empty, 0⟩ := rfl
@[simp] theorem State.softReset_c : s.softReset.c = false := rfl
@[simp] theorem State.softReset_buf : s.softReset.buf = s.buf := rfl
@[simp] theorem State.softReset_fault : s.softReset.fault = false := rfl
@[simp] theorem State.softReset_cause : s.softReset.cause = .none := rfl
@[simp] theorem State.softReset_faultcmd : s.softReset.faultcmd = 0 := rfl
@[simp] theorem State.softReset_ie : s.softReset.ie = false := rfl
@[simp] theorem State.softReset_cmdcnt : s.softReset.cmdcnt = 0 := rfl
@[simp] theorem State.softReset_pend : s.softReset.pend = none := rfl
@[simp] theorem State.softReset_cfg : s.softReset.cfg = s.cfg := rfl
@[simp] theorem State.softReset_launch : s.softReset.launch = s.launch := rfl
@[simp] theorem State.softReset_host : s.softReset.host = s.host := rfl
@[simp] theorem State.softReset_reads : s.softReset.reads = s.reads := rfl

@[simp] theorem State.hardReset_regs : s.hardReset.regs = Vector.replicate 16 ⟨.empty, 0⟩ := rfl
@[simp] theorem State.hardReset_c : s.hardReset.c = false := rfl
@[simp] theorem State.hardReset_buf : s.hardReset.buf = [] := rfl
@[simp] theorem State.hardReset_fault : s.hardReset.fault = false := rfl
@[simp] theorem State.hardReset_cause : s.hardReset.cause = .none := rfl
@[simp] theorem State.hardReset_faultcmd : s.hardReset.faultcmd = 0 := rfl
@[simp] theorem State.hardReset_ie : s.hardReset.ie = false := rfl
@[simp] theorem State.hardReset_cmdcnt : s.hardReset.cmdcnt = 0 := rfl
@[simp] theorem State.hardReset_pend : s.hardReset.pend = none := rfl
@[simp] theorem State.hardReset_cfg : s.hardReset.cfg = s.cfg := rfl
@[simp] theorem State.hardReset_launch : s.hardReset.launch = s.launch + 1 := rfl
@[simp] theorem State.hardReset_host : s.hardReset.host = s.host := rfl
@[simp] theorem State.hardReset_reads : s.hardReset.reads = s.reads := rfl

@[simp] theorem State.answer_regs (v : Word) : (s.answer v).regs = s.regs := rfl
@[simp] theorem State.answer_c (v : Word) : (s.answer v).c = s.c := rfl
@[simp] theorem State.answer_buf (v : Word) : (s.answer v).buf = s.buf := rfl
@[simp] theorem State.answer_fault (v : Word) : (s.answer v).fault = s.fault := rfl
@[simp] theorem State.answer_cause (v : Word) : (s.answer v).cause = s.cause := rfl
@[simp] theorem State.answer_faultcmd (v : Word) : (s.answer v).faultcmd = s.faultcmd := rfl
@[simp] theorem State.answer_ie (v : Word) : (s.answer v).ie = s.ie := rfl
@[simp] theorem State.answer_cmdcnt (v : Word) : (s.answer v).cmdcnt = s.cmdcnt := rfl
@[simp] theorem State.answer_pend (v : Word) : (s.answer v).pend = s.pend := rfl
@[simp] theorem State.answer_cfg (v : Word) : (s.answer v).cfg = s.cfg := rfl
@[simp] theorem State.answer_launch (v : Word) : (s.answer v).launch = s.launch := rfl
@[simp] theorem State.answer_host (v : Word) : (s.answer v).host = s.host := rfl
@[simp] theorem State.answer_reads (v : Word) : (s.answer v).reads = s.reads ++ [v] := rfl

@[simp] theorem State.popHost_regs : s.popHost.regs = s.regs := rfl
@[simp] theorem State.popHost_c : s.popHost.c = s.c := rfl
@[simp] theorem State.popHost_buf : s.popHost.buf = s.buf := rfl
@[simp] theorem State.popHost_fault : s.popHost.fault = s.fault := rfl
@[simp] theorem State.popHost_cause : s.popHost.cause = s.cause := rfl
@[simp] theorem State.popHost_faultcmd : s.popHost.faultcmd = s.faultcmd := rfl
@[simp] theorem State.popHost_ie : s.popHost.ie = s.ie := rfl
@[simp] theorem State.popHost_cmdcnt : s.popHost.cmdcnt = s.cmdcnt := rfl
@[simp] theorem State.popHost_pend : s.popHost.pend = s.pend := rfl
@[simp] theorem State.popHost_cfg : s.popHost.cfg = s.cfg := rfl
@[simp] theorem State.popHost_launch : s.popHost.launch = s.launch := rfl
@[simp] theorem State.popHost_host : s.popHost.host = s.host.tail := rfl
@[simp] theorem State.popHost_reads : s.popHost.reads = s.reads := rfl

/-! ### The views of the state: a register, a byte of the buffer -/

@[simp] theorem State.setReg_reg (i j : RegIdx) (r : Reg) :
    (s.setReg i r).reg j = if j = i then r else s.reg j := by
  unfold State.reg State.setReg
  rw [Vector.getElem_set]
  by_cases h : i = j
  · subst h; simp
  · rw [if_neg (fun e => h (Fin.ext e)), if_neg (fun e => h e.symm)]

theorem State.setReg_reg_same (i : RegIdx) (r : Reg) : (s.setReg i r).reg i = r := by simp

theorem State.setReg_reg_other {i j : RegIdx} (h : j ≠ i) (r : Reg) :
    (s.setReg i r).reg j = s.reg j := by simp [h]

@[simp] theorem State.setC_reg (b : Bool) (i : RegIdx) : (s.setC b).reg i = s.reg i := rfl
@[simp] theorem State.memWrite_reg (addr : Nat) (bs : List Byte) (i : RegIdx) : (s.memWrite addr bs).reg i = s.reg i := rfl
@[simp] theorem State.retire_reg (i : RegIdx) : s.retire.reg i = s.reg i := rfl
@[simp] theorem State.takeFault_reg (k : Cause) (w : Word) (i : RegIdx) : (s.takeFault k w).reg i = s.reg i := rfl
@[simp] theorem State.softReset_reg (i : RegIdx) : s.softReset.reg i = ⟨.empty, 0⟩ := by
  simp [State.reg]
@[simp] theorem State.hardReset_reg (i : RegIdx) : s.hardReset.reg i = ⟨.empty, 0⟩ := by
  simp [State.reg]
@[simp] theorem State.answer_reg (v : Word) (i : RegIdx) : (s.answer v).reg i = s.reg i := rfl
@[simp] theorem State.popHost_reg (i : RegIdx) : s.popHost.reg i = s.reg i := rfl

@[simp] theorem State.setReg_bufByte (i : RegIdx) (r : Reg) (x : Nat) : (s.setReg i r).bufByte x = s.bufByte x := rfl
@[simp] theorem State.setC_bufByte (b : Bool) (x : Nat) : (s.setC b).bufByte x = s.bufByte x := rfl
@[simp] theorem State.retire_bufByte (x : Nat) : s.retire.bufByte x = s.bufByte x := rfl
@[simp] theorem State.takeFault_bufByte (k : Cause) (w : Word) (x : Nat) : (s.takeFault k w).bufByte x = s.bufByte x := rfl
@[simp] theorem State.softReset_bufByte (x : Nat) : s.softReset.bufByte x = s.bufByte x := rfl
@[simp] theorem State.answer_bufByte (v : Word) (x : Nat) : (s.answer v).bufByte x = s.bufByte x := rfl
@[simp] theorem State.popHost_bufByte (x : Nat) : s.popHost.bufByte x = s.bufByte x := rfl

@[simp] theorem State.hardReset_bufByte (x : Nat) :
    s.hardReset.bufByte x = Config.bufByte (s.launch + 1) x := rfl

@[simp] theorem State.setVal_eq (rd : RegIdx) (t : Tag) (v : Nat) :
    s.setVal rd t v = s.setReg rd ⟨t, BitVec.ofNat 256 v⟩ := rfl

@[simp] theorem State.storeVal_eq (ra : RegIdx) (addr : Nat) :
    s.storeVal ra addr = s.memWrite addr (toLE (s.valOf ra) 32) := rfl

@[simp] theorem State.reset_reg (i : RegIdx) : State.reset.reg i = ⟨.empty, 0⟩ := by
  simp [State.reg, State.reset]

end

end Sys2Proof.Machine
end

