-- ==== Sys2Proof/Laws/Memory.lean ====
section
/-!
SUPPORT. The operand buffer: a write is read back, leaves every other byte alone, and keeps the canonical form
(20_memory R53, R54).
-/

namespace Sys2Proof.Machine

/-- A byte written is found, and no other address changes. -/
theorem Mem.find_put (m : Mem) (x : Nat) (y : Byte) (z : Nat) :
    Mem.find (Mem.put m x y) z = if z = x then some y else Mem.find m z := by
  induction m with
  | nil => simp [Mem.put, Mem.find, eq_comm]
  | cons p m ih =>
    obtain ⟨a, b⟩ := p
    simp only [Mem.put]
    split
    · simp only [Mem.find, eq_comm]
    · split
      · subst x
        simp only [Mem.find]
        by_cases h : a = z
        · simp [h]
        · simp [h, Ne.symm h]
      · simp only [Mem.find, ih]
        by_cases h : a = z
        · subst h
          rw [if_pos rfl, if_pos rfl, if_neg]
          omega
        · simp [h]

/-- A byte written inside the buffer keeps the canonical form. -/
theorem Mem.put_wfFrom {m : Mem} {lo x : Nat} (hm : Mem.wfFrom lo m = true) (hlo : lo ≤ x) (hx : x < bufSize)
    (y : Byte) : Mem.wfFrom lo (Mem.put m x y) = true := by
  induction m generalizing lo with
  | nil => simp [Mem.put, Mem.wfFrom, hlo, hx]
  | cons p m ih =>
    obtain ⟨a, b⟩ := p
    simp only [Mem.wfFrom, Bool.and_eq_true, decide_eq_true_eq] at hm
    obtain ⟨⟨h1, h2⟩, h3⟩ := hm
    simp only [Mem.put]
    split
    · simp only [Mem.wfFrom, Bool.and_eq_true, decide_eq_true_eq]
      exact ⟨⟨hlo, hx⟩, ⟨by omega, h2⟩, h3⟩
    · split
      · subst x
        simp only [Mem.wfFrom, Bool.and_eq_true, decide_eq_true_eq]
        exact ⟨⟨hlo, hx⟩, h3⟩
      · simp only [Mem.wfFrom, Bool.and_eq_true, decide_eq_true_eq]
        exact ⟨⟨h1, h2⟩, ih h3 (by omega)⟩

theorem Mem.put_wf {m : Mem} {x : Nat} (hm : Mem.wf m = true) (hx : x < bufSize) (y : Byte) :
    Mem.wf (Mem.put m x y) = true :=
  Mem.put_wfFrom hm (Nat.zero_le x) hx y

/-- Every write of a byte string inside the buffer keeps the canonical form. -/
theorem Mem.putAll_wf {m : Mem} {addr : Nat} {bs : List Byte} (hm : Mem.wf m = true)
    (h : addr + bs.length ≤ bufSize) : Mem.wf (Mem.putAll m addr bs) = true := by
  induction bs generalizing m addr with
  | nil => exact hm
  | cons b bs ih =>
    simp only [List.length_cons] at h
    exact ih (Mem.put_wf hm (by omega) b) (by omega)

/-- What is found after a byte string is written: its own byte inside, the old one outside. -/
theorem Mem.find_putAll (m : Mem) (addr : Nat) (bs : List Byte) (z : Nat) :
    Mem.find (Mem.putAll m addr bs) z =
      if addr ≤ z ∧ z < addr + bs.length then bs[z - addr]? else Mem.find m z := by
  induction bs generalizing m addr with
  | nil =>
    rw [if_neg (by simp)]
    rfl
  | cons b bs ih =>
    simp only [Mem.putAll, ih, Mem.find_put, List.length_cons]
    by_cases h : z = addr
    · subst h
      simp
    · by_cases h2 : addr + 1 ≤ z ∧ z < addr + 1 + bs.length
      · rw [if_pos h2, if_pos (by omega), show z - addr = (z - (addr + 1)) + 1 by omega, List.getElem?_cons_succ]
      · rw [if_neg h2, if_neg h, if_neg (by omega)]

/-- Reading one byte after a write (R54): the byte written inside, the old byte outside. -/
theorem State.memWrite_bufByte (s : State) (addr : Nat) (bs : List Byte) (z : Nat) :
    (s.memWrite addr bs).bufByte z =
      if addr ≤ z ∧ z < addr + bs.length then bs.getD (z - addr) 0 else s.bufByte z := by
  unfold State.bufByte
  simp only [State.memWrite_buf, State.memWrite_launch, Mem.find_putAll]
  split
  · next h =>
    rw [List.getD_eq_getElem?_getD, List.getElem?_eq_getElem (by omega)]
    rfl
  · rfl

theorem State.memWrite_bufByte_other {s : State} {addr : Nat} {bs : List Byte} {z : Nat}
    (h : z < addr ∨ addr + bs.length ≤ z) : (s.memWrite addr bs).bufByte z = s.bufByte z := by
  rw [State.memWrite_bufByte, if_neg (by omega)]

@[simp] theorem State.memRead_length (s : State) (addr n : Nat) : (s.memRead addr n).length = n := by
  induction n generalizing addr with
  | zero => rfl
  | succ n ih => simp [State.memRead, ih]

/-- `MemRead(addr, n)` is `BUF[addr + i]`, `0 ≤ i < n` (R53). -/
theorem State.memRead_getElem (s : State) (addr n i : Nat) (h : i < (s.memRead addr n).length) :
    (s.memRead addr n)[i] = s.bufByte (addr + i) := by
  induction n generalizing addr i with
  | zero => simp [State.memRead] at h
  | succ n ih =>
    cases i with
    | zero => rfl
    | succ i =>
      simp only [State.memRead, List.getElem_cons_succ]
      rw [ih]
      congr 1
      omega

/-- A read depends only on the bytes it names. -/
theorem State.memRead_congr {s t : State} {addr n : Nat}
    (h : ∀ i, i < n → s.bufByte (addr + i) = t.bufByte (addr + i)) : s.memRead addr n = t.memRead addr n := by
  apply List.ext_getElem (by simp)
  intro i h1 h2
  rw [State.memRead_getElem, State.memRead_getElem]
  exact h i (by simpa using h1)

@[simp] theorem toLE_length (v n : Nat) : (toLE v n).length = n := by
  induction n generalizing v with
  | zero => rfl
  | succ n ih => simp [toLE, ih]

/-- Byte `i` of `ToLE(v, n)` is `v[8i+7:8i]` (00_scope R10). -/
theorem toLE_getElem (v n i : Nat) (h : i < (toLE v n).length) :
    (toLE v n)[i] = BitVec.ofNat 8 (v / 256 ^ i) := by
  induction n generalizing v i with
  | zero => simp [toLE] at h
  | succ n ih =>
    cases i with
    | zero => simp [toLE]
    | succ i =>
      simp only [toLE, List.getElem_cons_succ]
      rw [ih, Nat.div_div_eq_div_mul, Nat.pow_succ']

/-- `LE` of `ToLE` is the integer, cut to `n` bytes (R10). -/
theorem leNat_toLE (v n : Nat) : leNat (toLE v n) = v % 256 ^ n := by
  induction n generalizing v with
  | zero => simp [toLE, leNat, Nat.mod_one]
  | succ n ih =>
    simp only [toLE, leNat, ih, BitVec.toNat_ofNat]
    rw [show 256 ^ (n + 1) = 256 * 256 ^ n from Nat.pow_succ', Nat.mod_mul]

/-- `LE` as the sum of R10. -/
theorem leNat_eq_sum (bs : List Byte) :
    leNat bs = ∑ i ∈ Finset.range bs.length, (bs.getD i 0).toNat * 256 ^ i := by
  induction bs with
  | nil => rfl
  | cons b bs ih =>
    rw [List.length_cons, Finset.sum_range_succ', leNat, ih, Finset.mul_sum]
    simp only [List.getD_cons_succ, List.getD_cons_zero, pow_zero, mul_one, pow_succ]
    rw [add_comm]
    congr 1
    apply Finset.sum_congr rfl
    intro i _
    ring

theorem leNat_lt (bs : List Byte) : leNat bs < 256 ^ bs.length := by
  induction bs with
  | nil => simp [leNat]
  | cons b bs ih =>
    have := b.isLt
    simp only [leNat, List.length_cons, Nat.pow_succ]
    omega

/-- The integer of the bytes a command reads, as the sum of R10 over the buffer (20_memory R52). -/
theorem State.readLE_eq_sum (s : State) (addr n : Nat) :
    s.readLE addr n = ∑ i ∈ Finset.range n, (s.bufByte (addr + i)).toNat * 256 ^ i := by
  unfold State.readLE
  rw [leNat_eq_sum, State.memRead_length]
  apply Finset.sum_congr rfl
  intro i hi
  have h : i < (s.memRead addr n).length := by simpa using hi
  rw [List.getD_eq_getElem _ _ h, State.memRead_getElem]

end Sys2Proof.Machine
end

