-- ==== Sys2Proof/Laws/Exec.lean ====
section
/-!
SUPPORT. What the shared operations of a command can do, said once: the checks, the completion, and every command
as a check and an effect (30_encoding R77, 20_memory R60).
-/

namespace Sys2Proof.Machine

/-- The first failing check of a command after decoding (30_encoding R77 steps 2 to 5), the parameters at the spec's
values. -/
def checkOf (i : Instr) (s : State) : Option Cause :=
  match i with
  | .fld _ len addr => bufCheck bufSize [32] len addr
  | .fst ra len addr => (bufCheck bufSize [32] len addr).or (s.need1 ra .fe)
  | .fadd _ ra rb => s.need2 ra rb .fe
  | .fsub _ ra rb => s.need2 ra rb .fe
  | .fmul _ ra rb => s.need2 ra rb .fe
  | .fsqr _ ra => s.need1 ra .fe
  | .finv _ ra => s.need1 ra .fe
  | .sld _ len addr => bufCheck bufSize [32, 64] len addr
  | .sst ra len addr => (bufCheck bufSize [32] len addr).or (s.need1 ra .sp)
  | .sunpack _ ra => s.need1 ra .sp
  | .spack _ ra => s.need1 ra .sm
  | .mmul _ ra rb => s.need2 ra rb .sm
  | .msqr _ ra => s.need1 ra .sm
  | .minv _ ra => s.need1 ra .sm
  | .ceq ra rb => s.needSame ra rb
  | .csel _ ra rb => s.needSame ra rb
  | .setc _ => none

/-- The effect of a command whose checks pass, before it is counted (R77 step 6). -/
def effectOf (i : Instr) (s : State) : State :=
  match i with
  | .fld rd _ addr => s.setVal rd .fe (fieldInput s.cfg.feTopBit (s.readLE addr 32) % fieldP)
  | .fst ra _ addr => s.storeVal ra addr
  | .fadd rd ra rb => s.setVal rd .fe ((s.valOf ra + s.valOf rb) % fieldP)
  | .fsub rd ra rb => s.setVal rd .fe (fieldSubVal fieldP (s.valOf ra) (s.valOf rb))
  | .fmul rd ra rb => s.setVal rd .fe (s.valOf ra * s.valOf rb % fieldP)
  | .fsqr rd ra => s.setVal rd .fe (s.valOf ra * s.valOf ra % fieldP)
  | .finv rd ra => s.setVal rd .fe (powMod (s.valOf ra) (fieldP - 2) fieldP)
  | .sld rd len addr => s.setVal rd .sp (s.readLE addr len % s.cfg.ell)
  | .sst ra _ addr => s.storeVal ra addr
  | .sunpack rd ra => s.setVal rd .sm (toMont s.cfg (s.valOf ra))
  | .spack rd ra => s.setVal rd .sp (fromMont s.cfg (s.valOf ra))
  | .mmul rd ra rb => s.setVal rd .sm (montMul s.cfg (s.valOf ra) (s.valOf rb))
  | .msqr rd ra => s.setVal rd .sm (montMul s.cfg (s.valOf ra) (s.valOf ra))
  | .minv rd ra => s.setVal rd .sm (montInv s.cfg (s.valOf ra))
  | .ceq ra rb => s.setC (s.compareFlag ra rb)
  | .csel rd ra rb => s.setReg rd (s.selected ra rb)
  | .setc imm1 => s.setC imm1

/-- Every command is its check, then its effect, with the parameters the spec fixes at its values. -/
theorem exec_eq (i : Instr) (s : State) : exec i s = finish (checkOf i s) i s (effectOf i s) := by
  have hp := s.cfg.p_eq
  have hb := s.cfg.bufSize_eq
  cases i <;>
    simp only [exec, execFld, execFst, execFadd, execFsub, execFmul, execFsqr, execFinv, execSld, execSst, execSunpack,
      execSpack, execMmul, execMsqr, execMinv, execCeq, execCsel, execSetc, checkOf, effectOf, hp, hb]

theorem exec_of_fault {i : Instr} {s : State} {k : Cause} (h : checkOf i s = some k) :
    exec i s = .next (s.takeFault k (encode i)) := by
  rw [exec_eq, h]
  rfl

theorem exec_of_pass {i : Instr} {s : State} (h : checkOf i s = none) :
    exec i s = .next (effectOf i s).retire := by
  rw [exec_eq, h]
  rfl

@[simp] theorem bufCheck_eq_none (size : Nat) (legal : List Nat) (len addr : Nat) :
    bufCheck size legal len addr = none ↔ len ∈ legal ∧ addr + len ≤ size := by
  unfold bufCheck
  split
  · simp_all
  · split
    · simp_all
    · simp_all

theorem bufCheck_badLength {legal : List Nat} {len : Nat} (size addr : Nat) (h : len ∉ legal) :
    bufCheck size legal len addr = some .badLength := by simp [bufCheck, h]

theorem bufCheck_bufRange {size : Nat} {legal : List Nat} {len addr : Nat} (h : len ∈ legal) (h2 : size < addr + len) :
    bufCheck size legal len addr = some .bufRange := by simp [bufCheck, h, h2]

@[simp] theorem need1_eq_none (s : State) (ra : RegIdx) (t : Tag) :
    s.need1 ra t = none ↔ (s.reg ra).tag ≠ .empty ∧ (s.reg ra).tag = t := by
  simp only [State.need1, needAll, List.any_cons, List.any_nil, Bool.or_false]
  by_cases h : (s.reg ra).tag = .empty
  · simp [h]
  · by_cases h2 : (s.reg ra).tag = t <;> simp [h, h2]

@[simp] theorem need2_eq_none (s : State) (ra rb : RegIdx) (t : Tag) :
    s.need2 ra rb t = none ↔
      ((s.reg ra).tag ≠ .empty ∧ (s.reg rb).tag ≠ .empty) ∧ (s.reg ra).tag = t ∧ (s.reg rb).tag = t := by
  simp only [State.need2, needAll, List.any_cons, List.any_nil, Bool.or_false]
  by_cases h : (s.reg ra).tag = .empty <;> by_cases h' : (s.reg rb).tag = .empty <;>
    by_cases h2 : (s.reg ra).tag = t <;> by_cases h3 : (s.reg rb).tag = t <;> simp [h, h', h2, h3]
  all_goals split <;> simp

@[simp] theorem needSame_eq_none (s : State) (ra rb : RegIdx) :
    s.needSame ra rb = none ↔
      ((s.reg ra).tag ≠ .empty ∧ (s.reg rb).tag ≠ .empty) ∧ (s.reg rb).tag = (s.reg ra).tag := by
  simp only [State.needSame, needAll, List.any_cons, List.any_nil, Bool.or_false]
  by_cases h : (s.reg ra).tag = .empty <;> by_cases h' : (s.reg rb).tag = .empty <;>
    by_cases h3 : (s.reg rb).tag = (s.reg ra).tag <;> simp [h, h', h3]

/-- The only causes a decoded command can latch (60_exceptions R181). -/
theorem needAll_cases (tags : List (Tag × Tag)) :
    needAll tags = none ∨ needAll tags = some .emptyReg ∨ needAll tags = some .domain := by
  unfold needAll
  split
  · exact .inr (.inl rfl)
  · split
    · exact .inr (.inr rfl)
    · exact .inl rfl

@[simp] theorem fieldP_pos : 0 < fieldP := by decide

theorem fieldP_lt : fieldP < 2 ^ 256 := by decide

/-- A reduced value fits its register: the written `val` is the integer itself. -/
theorem ofNat_val_toNat {v m : Nat} (hv : v < m) (hm : m ≤ 2 ^ 256) : (BitVec.ofNat 256 v).toNat = v := by
  rw [BitVec.toNat_ofNat, Nat.mod_eq_of_lt (lt_of_lt_of_le hv hm)]

theorem fieldSubVal_lt {p : Nat} (hp : 0 < p) (a b : Nat) : fieldSubVal p a b < p := by
  have h1 := Int.emod_nonneg ((a : Int) - b) (show (p : Int) ≠ 0 by omega)
  have h2 := Int.emod_lt_of_pos ((a : Int) - b) (show (0 : Int) < p by omega)
  unfold fieldSubVal
  omega

theorem coreStep_idle {s : State} (h : s.pend = none) : coreStep s = .next s := by simp [coreStep, h]

theorem coreStep_pending {s : State} {w : Word} (h : s.pend = some w) : coreStep s = completeWord w s := by
  simp [coreStep, h]

theorem completeWord_ok {w : Word} {i : Instr} (h : decode w = .ok i) (s : State) :
    completeWord w s = exec i s := by simp [completeWord, h]

end Sys2Proof.Machine
end

