-- ==== Sys2Proof/Laws/Step.lean ====
section
/-!
SUPPORT. What one step can do, said once: the host's act, the core's completion, or a stop; and what a command's
effect leaves alone. Later proofs cite these and unfold neither `step` nor `exec`.
-/

namespace Sys2Proof.Machine

/-- The host has nothing to do: the step is the core's. -/
theorem step_of_host_nil {s : State} (h : s.host = []) : step s = coreStep s := by
  simp [step, State.hostTurn, State.coreTurn, h]

/-- The host lets the step pass: it is the core's, and the act is used up. -/
theorem step_of_host_idle {s : State} {rest : List HostAct} (h : s.host = .idle :: rest) :
    step s = coreStep { s with host := rest } := by
  simp [step, State.hostTurn, State.coreTurn, State.popHost, h]

/-- The host's next act waits for the core (10_state R42): the step is the core's, and the act is still to come. -/
theorem step_of_host_waits {s : State} {a : HostAct} {rest : List HostAct} (h : s.host = a :: rest)
    (hb : s.busy = true) (hw : a.waits = true) : step s = coreStep s := by
  cases a <;> simp_all [step, State.hostTurn, State.coreTurn, HostAct.waits]

/-- The host's next act is taken: it is no `idle`, and nothing holds it. -/
theorem step_of_host_act {s : State} {a : HostAct} {rest : List HostAct} (h : s.host = a :: rest) (hi : a ≠ .idle)
    (hw : s.busy = true → a.waits = false) : step s = hostAct a { s with host := rest } := by
  have hn : (s.busy && a.waits) = false := by
    cases hb : s.busy
    · rfl
    · rw [hw hb]
      rfl
  have ht : s.hostTurn = some a := by
    cases a <;> first | exact absurd rfl hi | (unfold State.hostTurn; rw [h]; exact if_neg (by simp [hn]))
  simp only [step, ht, State.popHost, h, List.tail_cons]

/-- Everything a step that goes on can be: a port access or a hard reset of the host, the end of a command, the
latching of an undecodable word, or an idle core. -/
theorem step_next_cases {s t : State} (h : step s = .next t) :
    (∃ a rest, s.host = a :: rest ∧ a ≠ .idle ∧ hostAct a { s with host := rest } = .next t) ∨
      (∃ s0, s.coreTurn = s0 ∧
        ((∃ w i, s0.pend = some w ∧ decode w = .ok i ∧ exec i s0 = .next t) ∨
          (∃ w, s0.pend = some w ∧ t = s0.takeFault .illegal w) ∨ (s0.pend = none ∧ t = s0))) := by
  cases hh : s.hostTurn with
  | some a =>
    left
    simp only [step, hh] at h
    unfold State.hostTurn at hh
    cases hl : s.host with
    | nil => simp [hl] at hh
    | cons b rest =>
      have hb : b ≠ .idle := by
        rintro rfl
        simp [hl] at hh
      have hab : b = a := by
        cases b <;> simp_all
      subst hab
      refine ⟨b, rest, rfl, hb, ?_⟩
      simpa [State.popHost, hl] using h
  | none =>
    right
    simp only [step, hh, coreStep] at h
    refine ⟨_, rfl, ?_⟩
    cases hp : s.coreTurn.pend with
    | none =>
      simp only [hp] at h
      injection h with h
      exact .inr (.inr ⟨rfl, h.symm⟩)
    | some w =>
      simp only [hp, completeWord] at h
      cases hd : decode w with
      | ok i =>
        simp only [hd] at h
        exact .inl ⟨w, i, rfl, hd, h⟩
      | error e =>
        simp only [hd] at h
        injection h with h
        exact .inr (.inl ⟨w, rfl, h.symm⟩)

/-- The effect of a command before it is counted leaves the latch, `IE`, the count, the slot and the model's own
fields alone (20_memory R60). -/
theorem effectOf_frame (i : Instr) (s : State) :
    (effectOf i s).fault = s.fault ∧ (effectOf i s).cause = s.cause ∧ (effectOf i s).faultcmd = s.faultcmd ∧
      (effectOf i s).ie = s.ie ∧ (effectOf i s).cmdcnt = s.cmdcnt ∧ (effectOf i s).pend = s.pend ∧
      (effectOf i s).cfg = s.cfg ∧ (effectOf i s).launch = s.launch ∧ (effectOf i s).host = s.host ∧
      (effectOf i s).reads = s.reads := by
  cases i <;> simp [effectOf]

/-- Two states that differ in the host's acts alone pass the same checks. -/
theorem checkOf_host (i : Instr) (s : State) (hs : List HostAct) : checkOf i { s with host := hs } = checkOf i s := by
  cases i <;> simp only [checkOf, State.need1, State.need2, State.needSame, State.reg]

/-- The memory of the machine after reset is canonical. -/
theorem reset_buf_wf : Mem.wf State.reset.buf = true := rfl

/-- A store of a register's 32 bytes inside the buffer keeps the canonical form. -/
theorem State.storeVal_wf {s : State} {addr : Nat} (hm : Mem.wf s.buf = true) (h : addr + 32 ≤ bufSize) (ra : RegIdx) :
    Mem.wf (s.storeVal ra addr).buf = true := by
  rw [State.storeVal_eq, State.memWrite_buf]
  exact Mem.putAll_wf hm (by rw [toLE_length]; exact h)

end Sys2Proof.Machine
end

