-- ==== Sys2Proof/Laws/HostPort.lean ====
section
/-!
SUPPORT. What the offsets of the host port are (10_state R33, R40, R41), one lemma per kind of target, and when an access
is a transaction at all.
-/

namespace Sys2Proof.Machine

@[simp] theorem unmappedOffset_iff (off : Nat) : unmappedOffset off = true ↔ 0x0018 ≤ off ∧ off < 0x1000 := by
  simp [unmappedOffset]

theorem target32_unmapped {off : Nat} (h : 0x0018 ≤ off) (h2 : off < 0x1000) : target32 off = .unmapped := by
  rw [target32, if_neg (by omega), if_pos ((unmappedOffset_iff off).mpr ⟨h, h2⟩)]

theorem target8_unmapped {off : Nat} (h : 0x0018 ≤ off) (h2 : off < 0x1000) : target8 off = .unmapped := by
  rw [target8, if_neg (by omega), if_pos ((unmappedOffset_iff off).mpr ⟨h, h2⟩)]

theorem target32_buf {a : Nat} (h : a < 4096) (h4 : a % 4 = 0) : target32 (0x1000 + a) = .buf a := by
  rw [target32, if_neg (by omega), if_neg (by rw [unmappedOffset_iff]; omega), if_neg (by omega), if_pos (by omega),
    Nat.add_sub_cancel_left]

theorem target8_buf {a : Nat} (h : a < 4096) : target8 (0x1000 + a) = .buf a := by
  rw [target8, if_neg (by omega), if_neg (by rw [unmappedOffset_iff]; omega), if_pos (by omega), Nat.add_sub_cancel_left]

/-- A 32-bit access that R33 and R40 list, or R41's, answers a read and a write. -/
theorem target32_transaction {off : Nat} (h : off < 0x2000) (h4 : off % 4 = 0 ∨ (0x0018 ≤ off ∧ off < 0x1000)) :
    target32 off ≠ .outside ∧ target32 off ≠ .unlisted := by
  unfold target32
  rw [if_neg (by omega)]
  by_cases hu : 0x0018 ≤ off ∧ off < 0x1000
  · rw [if_pos ((unmappedOffset_iff off).mpr hu)]
    exact ⟨nofun, nofun⟩
  · rw [if_neg (by rwa [unmappedOffset_iff]), if_neg (by omega)]
    split_ifs <;> exact ⟨nofun, nofun⟩

/-- An 8-bit access to the BUF window or to an unmapped offset answers a read and a write. -/
theorem target8_transaction {off : Nat} (h : off < 0x2000) (h2 : 0x0018 ≤ off) :
    (∃ a, target8 off = .buf a) ∨ target8 off = .unmapped := by
  by_cases hu : off < 0x1000
  · exact .inr (target8_unmapped h2 hu)
  · refine .inl ⟨off - 0x1000, ?_⟩
    rw [target8, if_neg (by omega), if_neg (by rw [unmappedOffset_iff]; omega), if_pos (by omega)]

theorem State.readWord_isSome (s : State) {t : Target} (h : t ≠ .outside ∧ t ≠ .unlisted) :
    ∃ v, s.readWord t = some v := by
  cases t <;> first | exact ⟨_, rfl⟩ | exact absurd rfl h.1 | exact absurd rfl h.2

theorem State.writeWord_isSome (s : State) (w : Word) {t : Target} (h : t ≠ .outside ∧ t ≠ .unlisted) :
    ∃ u, s.writeWord w t = some u := by
  cases t <;> first | exact ⟨_, rfl⟩ | exact absurd rfl h.1 | exact absurd rfl h.2

end Sys2Proof.Machine
end

