-- ==== Sys2Proof/Laws/PerInstr.lean ====
section
/-!
SUPPORT. The per-instruction family `EncodesRow`: the word of a well-formed command selects the row of its own
mnemonic in the command table (30_encoding R75, R76): its opcode is the row's and its must-be-zero fields are zero.
-/

namespace Sys2Proof.Laws

open Sys2Proof

/-- The row of the command's mnemonic is in the table, and the command's word selects it. -/
def EncodesRow.Statement (i : Instr) : Prop :=
  i.WellFormed → ∃ row ∈ opTable, row.mnemonic = i.mnemonic ∧ row.selects (encode i) = true

/-- A format-M word under its mask is the row's pattern. -/
theorem wordM_and (op : Nat) (r : RegIdx) (len addr : Nat) (h : op < 256) (hf : fieldsFit len addr = true) :
    wordM op r len addr &&& 0xFF000000#32 = (BitVec.ofNat 8 op).setWidth 32 <<< 24 := by
  simp only [fieldsFit, Bool.and_eq_true, decide_eq_true_eq] at hf
  have hr := r.isLt
  rw [and_maskM, extract_of_fieldAt (k := op)]
  rw [fieldAt_eq, wordM_toNat op r len addr h hf.1 hf.2]
  omega

theorem wordR_and_R3 (op : Nat) (rd ra rb : RegIdx) (h : op < 256) :
    wordR op rd ra rb &&& 0xFF000FFF#32 = (BitVec.ofNat 8 op).setWidth 32 <<< 24 := by
  have h1 := rd.isLt
  have h2 := ra.isLt
  have h3 := rb.isLt
  rw [and_maskR3, extract_of_fieldAt (k := op), extract_of_fieldAt (k := 0)]
  · simp
  all_goals
    rw [fieldAt_eq, wordR_toNat op rd ra rb h]
    omega

theorem wordR_and_R2 (op : Nat) (rd ra : RegIdx) (h : op < 256) :
    wordR op rd ra 0 &&& 0xFF00FFFF#32 = (BitVec.ofNat 8 op).setWidth 32 <<< 24 := by
  have h1 := rd.isLt
  have h2 := ra.isLt
  rw [and_maskR2, extract_of_fieldAt (k := op), extract_of_fieldAt (k := 0)]
  · simp
  all_goals
    rw [fieldAt_eq, wordR_toNat op rd ra 0 h]
    simp only [Fin.val_zero]
    omega

theorem EncodesRow.fld (rd : RegIdx) (len addr : Nat) : EncodesRow.Statement (.fld rd len addr) := fun hf =>
  ⟨⟨"FLD", 0x10000000, 0xFF000000⟩, by decide, rfl,
    beq_iff_eq.mpr ((wordM_and 0x10 rd len addr (by decide) hf).trans (by decide))⟩

theorem EncodesRow.fst (ra : RegIdx) (len addr : Nat) : EncodesRow.Statement (.fst ra len addr) := fun hf =>
  ⟨⟨"FST", 0x11000000, 0xFF000000⟩, by decide, rfl,
    beq_iff_eq.mpr ((wordM_and 0x11 ra len addr (by decide) hf).trans (by decide))⟩

theorem EncodesRow.fadd (rd ra rb : RegIdx) : EncodesRow.Statement (.fadd rd ra rb) := fun _ =>
  ⟨⟨"FADD", 0x12000000, 0xFF000FFF⟩, by decide, rfl,
    beq_iff_eq.mpr ((wordR_and_R3 0x12 rd ra rb (by decide)).trans (by decide))⟩

theorem EncodesRow.fsub (rd ra rb : RegIdx) : EncodesRow.Statement (.fsub rd ra rb) := fun _ =>
  ⟨⟨"FSUB", 0x13000000, 0xFF000FFF⟩, by decide, rfl,
    beq_iff_eq.mpr ((wordR_and_R3 0x13 rd ra rb (by decide)).trans (by decide))⟩

theorem EncodesRow.fmul (rd ra rb : RegIdx) : EncodesRow.Statement (.fmul rd ra rb) := fun _ =>
  ⟨⟨"FMUL", 0x14000000, 0xFF000FFF⟩, by decide, rfl,
    beq_iff_eq.mpr ((wordR_and_R3 0x14 rd ra rb (by decide)).trans (by decide))⟩

theorem EncodesRow.fsqr (rd ra : RegIdx) : EncodesRow.Statement (.fsqr rd ra) := fun _ =>
  ⟨⟨"FSQR", 0x15000000, 0xFF00FFFF⟩, by decide, rfl,
    beq_iff_eq.mpr ((wordR_and_R2 0x15 rd ra (by decide)).trans (by decide))⟩

theorem EncodesRow.finv (rd ra : RegIdx) : EncodesRow.Statement (.finv rd ra) := fun _ =>
  ⟨⟨"FINV", 0x16000000, 0xFF00FFFF⟩, by decide, rfl,
    beq_iff_eq.mpr ((wordR_and_R2 0x16 rd ra (by decide)).trans (by decide))⟩

theorem EncodesRow.sld (rd : RegIdx) (len addr : Nat) : EncodesRow.Statement (.sld rd len addr) := fun hf =>
  ⟨⟨"SLD", 0x20000000, 0xFF000000⟩, by decide, rfl,
    beq_iff_eq.mpr ((wordM_and 0x20 rd len addr (by decide) hf).trans (by decide))⟩

theorem EncodesRow.sst (ra : RegIdx) (len addr : Nat) : EncodesRow.Statement (.sst ra len addr) := fun hf =>
  ⟨⟨"SST", 0x21000000, 0xFF000000⟩, by decide, rfl,
    beq_iff_eq.mpr ((wordM_and 0x21 ra len addr (by decide) hf).trans (by decide))⟩

theorem EncodesRow.sunpack (rd ra : RegIdx) : EncodesRow.Statement (.sunpack rd ra) := fun _ =>
  ⟨⟨"SUNPACK", 0x22000000, 0xFF00FFFF⟩, by decide, rfl,
    beq_iff_eq.mpr ((wordR_and_R2 0x22 rd ra (by decide)).trans (by decide))⟩

theorem EncodesRow.spack (rd ra : RegIdx) : EncodesRow.Statement (.spack rd ra) := fun _ =>
  ⟨⟨"SPACK", 0x23000000, 0xFF00FFFF⟩, by decide, rfl,
    beq_iff_eq.mpr ((wordR_and_R2 0x23 rd ra (by decide)).trans (by decide))⟩

theorem EncodesRow.mmul (rd ra rb : RegIdx) : EncodesRow.Statement (.mmul rd ra rb) := fun _ =>
  ⟨⟨"MMUL", 0x24000000, 0xFF000FFF⟩, by decide, rfl,
    beq_iff_eq.mpr ((wordR_and_R3 0x24 rd ra rb (by decide)).trans (by decide))⟩

theorem EncodesRow.msqr (rd ra : RegIdx) : EncodesRow.Statement (.msqr rd ra) := fun _ =>
  ⟨⟨"MSQR", 0x25000000, 0xFF00FFFF⟩, by decide, rfl,
    beq_iff_eq.mpr ((wordR_and_R2 0x25 rd ra (by decide)).trans (by decide))⟩

theorem EncodesRow.minv (rd ra : RegIdx) : EncodesRow.Statement (.minv rd ra) := fun _ =>
  ⟨⟨"MINV", 0x26000000, 0xFF00FFFF⟩, by decide, rfl,
    beq_iff_eq.mpr ((wordR_and_R2 0x26 rd ra (by decide)).trans (by decide))⟩

theorem EncodesRow.ceq (ra rb : RegIdx) : EncodesRow.Statement (.ceq ra rb) := fun _ => by
  refine ⟨⟨"CEQ", 0x30000000, 0xFFF00FFF⟩, by decide, rfl, beq_iff_eq.mpr ?_⟩
  have h2 := ra.isLt
  have h3 := rb.isLt
  change wordR 0x30 0 ra rb &&& 0xFFF00FFF#32 = _
  rw [and_maskRC, extract_of_fieldAt (k := 0x300), extract_of_fieldAt (k := 0)]
  · decide
  all_goals
    rw [fieldAt_eq, wordR_toNat 0x30 0 ra rb (by decide)]
    simp only [Fin.val_zero]
    omega

theorem EncodesRow.csel (rd ra rb : RegIdx) : EncodesRow.Statement (.csel rd ra rb) := fun _ =>
  ⟨⟨"CSEL", 0x31000000, 0xFF000FFF⟩, by decide, rfl,
    beq_iff_eq.mpr ((wordR_and_R3 0x31 rd ra rb (by decide)).trans (by decide))⟩

theorem EncodesRow.setc (imm1 : Bool) : EncodesRow.Statement (.setc imm1) := fun _ =>
  ⟨⟨"SETC", 0x32000000, 0xFFFFFFFE⟩, by decide, rfl, by cases imm1 <;> decide⟩

end Sys2Proof.Laws
end

