-- ==== Sys2Proof/Laws/Primes.lean ====
section
/-!
SUPPORT. `P` and the default `ELL` are prime (00_scope R6, R7), by Lucas certificates: the modulus, a primitive root,
and the prime factors of the modulus less one, each certified in turn.
-/

namespace Sys2Proof.Machine

-- One proof at a time: the kernel evaluations below would otherwise wait side by side, each on a thread of its own.
set_option Elab.async false

/-- A Lucas certificate: `a` has order `p - 1` modulo `p`, and `qs` are the prime factors of `p - 1`. -/
def lucasOk (p a : Nat) (qs : List Nat) : Bool :=
  decide (1 < p) && powMod a (p - 1) p == 1 && qs.prod == p - 1 &&
    qs.all (fun q => powMod a ((p - 1) / q) p != 1)

theorem natCast_pow_eq_one_iff {p : Nat} (hp : 1 < p) (a k : Nat) :
    ((a : ZMod p) ^ k = 1) ↔ powMod a k p = 1 := by
  rw [powMod_eq, ← Nat.cast_pow, ← Nat.cast_one (R := ZMod p), ZMod.natCast_eq_natCast_iff', Nat.mod_eq_of_lt hp]

theorem prime_of_lucas {p : Nat} (a : Nat) (qs : List Nat) (hq : ∀ q ∈ qs, q.Prime)
    (h : lucasOk p a qs = true) : p.Prime := by
  simp only [lucasOk, Bool.and_eq_true, decide_eq_true_eq, beq_iff_eq, List.all_eq_true, bne_iff_ne] at h
  obtain ⟨⟨⟨hp, h1⟩, hprod⟩, hall⟩ := h
  refine lucas_primality p (a : ZMod p) ((natCast_pow_eq_one_iff hp a _).mpr h1) ?_
  intro q hqp hdvd
  rw [Ne, natCast_pow_eq_one_iff hp]
  rw [← hprod] at hdvd
  obtain ⟨r, hr, hqr⟩ := (Nat.Prime.prime hqp).dvd_prod_iff.mp hdvd
  rw [(Nat.prime_dvd_prime_iff_eq hqp (hq r hr)).mp hqr]
  exact hall r hr

theorem prime_1923133 : Nat.Prime 1923133 :=
  prime_of_lucas 2 [2, 2, 3, 43, 3727]
    (by
      simp only [List.forall_mem_cons]
      exact ⟨by norm_num,
        by norm_num,
        by norm_num,
        by norm_num,
        by norm_num,
        List.forall_mem_nil _⟩)
    (by decide +kernel)

theorem prime_430751 : Nat.Prime 430751 :=
  prime_of_lucas 17 [2, 5, 5, 5, 1723]
    (by
      simp only [List.forall_mem_cons]
      exact ⟨by norm_num,
        by norm_num,
        by norm_num,
        by norm_num,
        by norm_num,
        List.forall_mem_nil _⟩)
    (by decide +kernel)

theorem prime_31757755568855353 : Nat.Prime 31757755568855353 :=
  prime_of_lucas 10 [2, 2, 2, 3, 31, 107, 223, 4153, 430751]
    (by
      simp only [List.forall_mem_cons]
      exact ⟨by norm_num,
        by norm_num,
        by norm_num,
        by norm_num,
        by norm_num,
        by norm_num,
        by norm_num,
        by norm_num,
        prime_430751,
        List.forall_mem_nil _⟩)
    (by decide +kernel)

theorem prime_569003 : Nat.Prime 569003 :=
  prime_of_lucas 2 [2, 7, 97, 419]
    (by
      simp only [List.forall_mem_cons]
      exact ⟨by norm_num,
        by norm_num,
        by norm_num,
        by norm_num,
        List.forall_mem_nil _⟩)
    (by decide +kernel)

theorem prime_2773320623 : Nat.Prime 2773320623 :=
  prime_of_lucas 5 [2, 2437, 569003]
    (by
      simp only [List.forall_mem_cons]
      exact ⟨by norm_num,
        by norm_num,
        prime_569003,
        List.forall_mem_nil _⟩)
    (by decide +kernel)

theorem prime_72106336199 : Nat.Prime 72106336199 :=
  prime_of_lucas 7 [2, 13, 2773320623]
    (by
      simp only [List.forall_mem_cons]
      exact ⟨by norm_num,
        by norm_num,
        prime_2773320623,
        List.forall_mem_nil _⟩)
    (by decide +kernel)

theorem prime_8574133 : Nat.Prime 8574133 :=
  prime_of_lucas 2 [2, 2, 3, 7, 103, 991]
    (by
      simp only [List.forall_mem_cons]
      exact ⟨by norm_num,
        by norm_num,
        by norm_num,
        by norm_num,
        by norm_num,
        by norm_num,
        List.forall_mem_nil _⟩)
    (by decide +kernel)

theorem prime_1919519569386763 : Nat.Prime 1919519569386763 :=
  prime_of_lucas 2 [2, 3, 7, 19, 47, 47, 127, 8574133]
    (by
      simp only [List.forall_mem_cons]
      exact ⟨by norm_num,
        by norm_num,
        by norm_num,
        by norm_num,
        by norm_num,
        by norm_num,
        by norm_num,
        prime_8574133,
        List.forall_mem_nil _⟩)
    (by decide +kernel)

theorem prime_75445702479781427272750846543864801 : Nat.Prime 75445702479781427272750846543864801 :=
  prime_of_lucas 7 [2, 2, 2, 2, 2, 3, 3, 5, 5, 75707, 72106336199, 1919519569386763]
    (by
      simp only [List.forall_mem_cons]
      exact ⟨by norm_num,
        by norm_num,
        by norm_num,
        by norm_num,
        by norm_num,
        by norm_num,
        by norm_num,
        by norm_num,
        by norm_num,
        by norm_num,
        prime_72106336199,
        prime_1919519569386763,
        List.forall_mem_nil _⟩)
    (by decide +kernel)

theorem prime_74058212732561358302231226437062788676166966415465897661863160754340907 : Nat.Prime 74058212732561358302231226437062788676166966415465897661863160754340907 :=
  prime_of_lucas 2 [2, 3, 353, 57467, 132049, 1923133, 31757755568855353, 75445702479781427272750846543864801]
    (by
      simp only [List.forall_mem_cons]
      exact ⟨by norm_num,
        by norm_num,
        by norm_num,
        by norm_num,
        by norm_num,
        prime_1923133,
        prime_31757755568855353,
        prime_75445702479781427272750846543864801,
        List.forall_mem_nil _⟩)
    (by decide +kernel)

theorem prime_57896044618658097711785492504343953926634992332820282019728792003956564819949 : Nat.Prime 57896044618658097711785492504343953926634992332820282019728792003956564819949 :=
  prime_of_lucas 2 [2, 2, 3, 65147, 74058212732561358302231226437062788676166966415465897661863160754340907]
    (by
      simp only [List.forall_mem_cons]
      exact ⟨by norm_num,
        by norm_num,
        by norm_num,
        by norm_num,
        prime_74058212732561358302231226437062788676166966415465897661863160754340907,
        List.forall_mem_nil _⟩)
    (by decide +kernel)

theorem prime_409477 : Nat.Prime 409477 :=
  prime_of_lucas 2 [2, 2, 3, 34123]
    (by
      simp only [List.forall_mem_cons]
      exact ⟨by norm_num,
        by norm_num,
        by norm_num,
        by norm_num,
        List.forall_mem_nil _⟩)
    (by decide +kernel)

theorem prime_14741173 : Nat.Prime 14741173 :=
  prime_of_lucas 2 [2, 2, 3, 3, 409477]
    (by
      simp only [List.forall_mem_cons]
      exact ⟨by norm_num,
        by norm_num,
        by norm_num,
        by norm_num,
        prime_409477,
        List.forall_mem_nil _⟩)
    (by decide +kernel)

theorem prime_58964693 : Nat.Prime 58964693 :=
  prime_of_lucas 2 [2, 2, 14741173]
    (by
      simp only [List.forall_mem_cons]
      exact ⟨by norm_num,
        by norm_num,
        prime_14741173,
        List.forall_mem_nil _⟩)
    (by decide +kernel)

theorem prime_3044861653679985063343 : Nat.Prime 3044861653679985063343 :=
  prime_of_lucas 5 [2, 3, 11, 30703, 82163, 132667, 137849]
    (by
      simp only [List.forall_mem_cons]
      exact ⟨by norm_num,
        by norm_num,
        by norm_num,
        by norm_num,
        by norm_num,
        by norm_num,
        by norm_num,
        List.forall_mem_nil _⟩)
    (by decide +kernel)

theorem prime_198211423230930754013084525763697 : Nat.Prime 198211423230930754013084525763697 :=
  prime_of_lucas 5 [2, 2, 2, 2, 3, 23, 58964693, 3044861653679985063343]
    (by
      simp only [List.forall_mem_cons]
      exact ⟨by norm_num,
        by norm_num,
        by norm_num,
        by norm_num,
        by norm_num,
        by norm_num,
        prime_58964693,
        prime_3044861653679985063343,
        List.forall_mem_nil _⟩)
    (by decide +kernel)

theorem prime_292386187 : Nat.Prime 292386187 :=
  prime_of_lucas 2 [2, 3, 3, 3, 3, 307, 5879]
    (by
      simp only [List.forall_mem_cons]
      exact ⟨by norm_num,
        by norm_num,
        by norm_num,
        by norm_num,
        by norm_num,
        by norm_num,
        by norm_num,
        List.forall_mem_nil _⟩)
    (by decide +kernel)

theorem prime_213441916511 : Nat.Prime 213441916511 :=
  prime_of_lucas 13 [2, 5, 73, 292386187]
    (by
      simp only [List.forall_mem_cons]
      exact ⟨by norm_num,
        by norm_num,
        by norm_num,
        prime_292386187,
        List.forall_mem_nil _⟩)
    (by decide +kernel)

theorem prime_531581 : Nat.Prime 531581 :=
  prime_of_lucas 2 [2, 2, 5, 7, 3797]
    (by
      simp only [List.forall_mem_cons]
      exact ⟨by norm_num,
        by norm_num,
        by norm_num,
        by norm_num,
        by norm_num,
        List.forall_mem_nil _⟩)
    (by decide +kernel)

theorem prime_1224481 : Nat.Prime 1224481 :=
  prime_of_lucas 13 [2, 2, 2, 2, 2, 3, 5, 2551]
    (by
      simp only [List.forall_mem_cons]
      exact ⟨by norm_num,
        by norm_num,
        by norm_num,
        by norm_num,
        by norm_num,
        by norm_num,
        by norm_num,
        by norm_num,
        List.forall_mem_nil _⟩)
    (by decide +kernel)

theorem prime_1257559732178653 : Nat.Prime 1257559732178653 :=
  prime_of_lucas 2 [2, 2, 3, 7, 23, 531581, 1224481]
    (by
      simp only [List.forall_mem_cons]
      exact ⟨by norm_num,
        by norm_num,
        by norm_num,
        by norm_num,
        by norm_num,
        prime_531581,
        prime_1224481,
        List.forall_mem_nil _⟩)
    (by decide +kernel)

theorem prime_4434155615661930479 : Nat.Prime 4434155615661930479 :=
  prime_of_lucas 17 [2, 41, 43, 1257559732178653]
    (by
      simp only [List.forall_mem_cons]
      exact ⟨by norm_num,
        by norm_num,
        by norm_num,
        prime_1257559732178653,
        List.forall_mem_nil _⟩)
    (by decide +kernel)

theorem prime_172054593956031949258510691 : Nat.Prime 172054593956031949258510691 :=
  prime_of_lucas 2 [2, 5, 1361, 2851, 4434155615661930479]
    (by
      simp only [List.forall_mem_cons]
      exact ⟨by norm_num,
        by norm_num,
        by norm_num,
        by norm_num,
        prime_4434155615661930479,
        List.forall_mem_nil _⟩)
    (by decide +kernel)

theorem prime_19757330305831588566944191468367130476339 : Nat.Prime 19757330305831588566944191468367130476339 :=
  prime_of_lucas 2 [2, 269, 213441916511, 172054593956031949258510691]
    (by
      simp only [List.forall_mem_cons]
      exact ⟨by norm_num,
        by norm_num,
        prime_213441916511,
        prime_172054593956031949258510691,
        List.forall_mem_nil _⟩)
    (by decide +kernel)

theorem prime_276602624281642239937218680557139826668747 : Nat.Prime 276602624281642239937218680557139826668747 :=
  prime_of_lucas 2 [2, 7, 19757330305831588566944191468367130476339]
    (by
      simp only [List.forall_mem_cons]
      exact ⟨by norm_num,
        by norm_num,
        prime_19757330305831588566944191468367130476339,
        List.forall_mem_nil _⟩)
    (by decide +kernel)

theorem prime_7237005577332262213973186563042994240857116359379907606001950938285454250989 : Nat.Prime 7237005577332262213973186563042994240857116359379907606001950938285454250989 :=
  prime_of_lucas 2 [2, 2, 3, 11, 198211423230930754013084525763697, 276602624281642239937218680557139826668747]
    (by
      simp only [List.forall_mem_cons]
      exact ⟨by norm_num,
        by norm_num,
        by norm_num,
        by norm_num,
        prime_198211423230930754013084525763697,
        prime_276602624281642239937218680557139826668747,
        List.forall_mem_nil _⟩)
    (by decide +kernel)

/-- `P` is prime (R6). -/
theorem fieldP_prime : Nat.Prime fieldP := by
  have h : fieldP = 57896044618658097711785492504343953926634992332820282019728792003956564819949 := by decide
  rw [h]
  exact prime_57896044618658097711785492504343953926634992332820282019728792003956564819949

/-- The default `ELL` is prime (R7: "the prime order of the curve's main subgroup"). -/
theorem default_ell_prime : Nat.Prime Config.default.ell := by
  have h : Config.default.ell = 7237005577332262213973186563042994240857116359379907606001950938285454250989 := by decide
  rw [h]
  exact prime_7237005577332262213973186563042994240857116359379907606001950938285454250989

end Sys2Proof.Machine
end

