-- ==== Sys2Proof/Tests/Slice0.lean ====
section
/-!
SUPPORT. The model's own tests: ill-formed terms, words, one step of each command and of the port, and, for every
statement with hypotheses, a named witness that meets them.
Every expected value is from spec/95_test_vectors.md (the section is named at each test) or from the rule named there.
-/

namespace Sys2Proof.Tests

open Sys2Proof Sys2Proof.Machine Sys2Proof.Claims

-- One proof at a time: the kernel evaluations below would otherwise wait side by side, each on a thread of its own.
set_option Elab.async false

/-! ### Helpers -/

/-- The next state, if there is one. -/
def nextOf : Host.Outcome State Fault Refusal → Option State
  | .next s => some s
  | _ => none

/-- Tag and integer of a register after an outcome. -/
def regAfter (o : Host.Outcome State Fault Refusal) (r : RegIdx) : Option (Tag × Nat) :=
  (nextOf o).map fun s => ((s.reg r).tag, (s.reg r).val.toNat)

/-- The integer of 32 buffer bytes after an outcome. -/
def intAfter (o : Host.Outcome State Fault Refusal) (addr : Nat) : Option Nat :=
  (nextOf o).map fun s => s.readLE addr 32

/-- `C` after an outcome. -/
def flagAfter (o : Host.Outcome State Fault Refusal) : Option Bool := (nextOf o).map State.c

/-- `STATUS` after an outcome. -/
def statusAfter (o : Host.Outcome State Fault Refusal) : Option Nat := (nextOf o).map fun s => s.statusWord.toNat

/-- A state with `x[1]` and `x[2]` loaded and the flag `c`. -/
def pair (tag : Tag) (a b : Nat) (c : Bool) : State :=
  ((State.reset.setVal 1 tag a).setVal 2 tag b).setC c

/-- A state whose first `n` buffer bytes spell `v`. -/
def bytes (n v : Nat) : State := State.reset.memWrite 0 (toLE v n)

/-- Reset with the word `w` pending. -/
def pending (w : Word) : State := { State.reset with pend := some w }

/-- Reset with the host about to act. -/
def hosted (acts : List HostAct) : State := { State.reset with host := acts }

/-- The state of 95 section 4.4: `x[1]` is `FE`, `x[2]` is `SP`, `x[3]` is `SM`, three commands counted. -/
def threeTags : State :=
  { ((State.reset.setVal 1 .fe 5).setVal 2 .sp 5).setVal 3 .sm 5 with cmdcnt := 3 }

/-- `A` of 95: the bytes 01 02 … 20. -/
def intA : Nat := 0x201f1e1d1c1b1a191817161514131211100f0e0d0c0b0a090807060504030201

/-- `Bv` of 95 section 2.3: `B mod P`. -/
def intBv : Nat := 0x60e1e2e3e4e5e6e7e8e9eaebecedeeeff0f1f2f3f4f5f6f7f8f9fafbfcfdff12

/-- `a = A mod ℓ` of 95 section 3.1. -/
def packA : Nat := 0x001f1e1d1c1b1a191817161514131210e6511a4fc61bd05c57e23fd04a175a27

/-- `u(a)`, the Montgomery form of `a` (95 section 3.2). -/
def montA : Nat := 0x0ae7eb0ee266fbce1ecd9c60731fde9034a70fbd0fb4fe8f9925814d5b39788d

/-- `R_MOD_L` and `RINV_MOD_L` of R8. -/
def radixModL : Nat := 0x0fffffffffffffffffffffffffffffeb35e51b3bab5ac67e45af48bd6721e6ed

def radixInvModL : Nat := 0x0c9db6c6f26fe9183614e75438ffa36bfb2697cda3adacf58e84371e098e4fc4

/-! ### Well-formedness: one ill-formed term for each check (30_encoding R73, R83) -/

theorem test_wellFormed_refuses_len :
    (Instr.fld 0 256 0).wellFormed = false ∧ (Instr.fst 0 256 0).wellFormed = false ∧
      (Instr.sld 0 256 0).wellFormed = false ∧ (Instr.sst 0 256 0).wellFormed = false := by decide

theorem test_wellFormed_refuses_addr :
    (Instr.fld 0 32 4096).wellFormed = false ∧ (Instr.fst 0 32 4096).wellFormed = false ∧
      (Instr.sld 0 32 4096).wellFormed = false ∧ (Instr.sst 0 32 4096).wellFormed = false := by decide

theorem test_wellFormed_accepts :
    (Instr.fld 15 255 4095).wellFormed = true ∧ (Instr.sst 0 0 0).wellFormed = true ∧
      (Instr.csel 15 15 15).wellFormed = true ∧ (Instr.setc true).wellFormed = true := by decide

/-! ### Decoding: every word of 95 section 4.2, and the illegal ones of section 4.3 -/

theorem test_decode_field :
    decode 0x10320040 = .ok (.fld 3 32 0x040) ∧ decode 0x11320060 = .ok (.fst 3 32 0x060) ∧
      decode 0x12123000 = .ok (.fadd 1 2 3) ∧ decode 0x13123000 = .ok (.fsub 1 2 3) ∧
      decode 0x14123000 = .ok (.fmul 1 2 3) ∧ decode 0x15120000 = .ok (.fsqr 1 2) ∧
      decode 0x16120000 = .ok (.finv 1 2) := ⟨rfl, rfl, rfl, rfl, rfl, rfl, rfl⟩

theorem test_decode_scalar :
    decode 0x20420100 = .ok (.sld 4 32 0x100) ∧ decode 0x20440100 = .ok (.sld 4 64 0x100) ∧
      decode 0x21420140 = .ok (.sst 4 32 0x140) ∧ decode 0x22540000 = .ok (.sunpack 5 4) ∧
      decode 0x23650000 = .ok (.spack 6 5) ∧ decode 0x24756000 = .ok (.mmul 7 5 6) ∧
      decode 0x25750000 = .ok (.msqr 7 5) ∧ decode 0x26750000 = .ok (.minv 7 5) :=
  ⟨rfl, rfl, rfl, rfl, rfl, rfl, rfl, rfl⟩

theorem test_decode_select_compare :
    decode 0x30012000 = .ok (.ceq 1 2) ∧ decode 0x31FED000 = .ok (.csel 15 14 13) ∧
      decode 0x32000000 = .ok (.setc false) ∧ decode 0x32000001 = .ok (.setc true) := ⟨rfl, rfl, rfl, rfl⟩

/-- An illegal `len` is a word of its row: it decodes (30_encoding R79). -/
theorem test_decode_illegal_len : decode 0x10021FFF = .ok (.fld 0 33 0xFFF) := rfl

/-- The encoder's words, again from 95 section 4.2. -/
theorem test_encode :
    encode (.fld 3 32 0x040) = 0x10320040 ∧ encode (.fadd 1 2 3) = 0x12123000 ∧ encode (.finv 1 2) = 0x16120000 ∧
      encode (.sld 4 64 0x100) = 0x20440100 ∧ encode (.mmul 7 5 6) = 0x24756000 ∧
      encode (.ceq 1 2) = 0x30012000 ∧ encode (.csel 15 14 13) = 0x31FED000 ∧ encode (.setc true) = 0x32000001 := by
  decide

/-! ### The field commands (95 sections 2.1 to 2.3) -/

/-- 2^256 − 1 loads as 37 under `INCLUDE`. -/
theorem test_fld_include : regAfter (exec (.fld 0 32 0) (bytes 32 (2 ^ 256 - 1))) 0 = some (.fe, 37) := by
  decide +kernel

/-- 2^255 + 18 loads as 18 under `IGNORE`. -/
theorem test_fld_ignore :
    regAfter (exec (.fld 0 32 0) { bytes 32 (2 ^ 255 + 18) with cfg := { Config.default with feTopBit := .ignore } }) 0 = some (.fe, 18) := by
  decide +kernel

/-- P − 1 is stored as `ec`, thirty `ff`, `7f`. -/
theorem test_fst :
    (nextOf (exec (.fst 1 32 0xFE0) (pair .fe (fieldP - 1) 0 false))).map (fun s => s.memRead 0xFE0 32) =
      some (0xEC :: List.replicate 30 0xFF ++ [0x7F]) := by decide +kernel

theorem test_fadd :
    regAfter (exec (.fadd 0 1 2) (pair .fe intA intBv false)) 0 =
      some (.fe, 0x0101010101010101010101010101010101010101010101010101010101010126) := by decide +kernel

theorem test_fadd_wraps : regAfter (exec (.fadd 1 1 2) (pair .fe (fieldP - 1) 1 false)) 1 = some (.fe, 0) := by
  decide +kernel

theorem test_fsub :
    regAfter (exec (.fsub 0 1 2) (pair .fe intA intBv false)) 0 =
      some (.fe, 0x3f3d3b39373533312f2d2b29272523211f1d1b19171513110f0d0b09070502dc) := by decide +kernel

theorem test_fsub_wraps : regAfter (exec (.fsub 2 1 2) (pair .fe 0 1 false)) 2 = some (.fe, fieldP - 1) := by
  decide +kernel

theorem test_fmul :
    regAfter (exec (.fmul 0 1 2) (pair .fe intA intBv false)) 0 =
      some (.fe, 0x2caef55ab9edd13f122553776c0c32ba7e5925beffc2e33ba70021e72ac7990c) := by decide +kernel

theorem test_fmul_folds : regAfter (exec (.fmul 0 1 2) (pair .fe (2 ^ 254) 2 false)) 0 = some (.fe, 19) := by
  decide +kernel

theorem test_fsqr :
    regAfter (exec (.fsqr 0 1) (pair .fe intA 0 false)) 0 =
      some (.fe, 0x0e8b9f6f1fd6b8eb93d6d9c1b3d54b3ac91b56a01cf2453af8a36054a577f14b) := by decide +kernel

theorem test_finv :
    regAfter (exec (.finv 1 1) (pair .fe intA 0 false)) 1 =
      some (.fe, 0x4d41ec8fc2731a6517bf6aed208d8b1d07cefe5830588dc64c8b1535a4f5fae5) := by decide +kernel

/-- Inversion of zero gives zero and latches no fault (R107, decision D18). -/
theorem test_finv_zero :
    regAfter (exec (.finv 0 1) (pair .fe 0 0 false)) 0 = some (.fe, 0) ∧
      statusAfter (exec (.finv 0 1) (pair .fe 0 0 false)) = some 0 := by decide +kernel

/-! ### The scalar commands (95 sections 3.1 and 3.2) -/

theorem test_sld_wide :
    regAfter (exec (.sld 0 64 0) (bytes 64 (2 ^ 512 - 1))) 0 =
      some (.sp, 0x0399411b7c309a3dceec73d217f5be65d00e1ba768859347a40611e3449c0f00) := by decide +kernel

theorem test_sld_narrow : regAfter (exec (.sld 0 32 0) (bytes 32 intA)) 0 = some (.sp, packA) := by decide +kernel

/-- The bytes 27 5a 17 … 1f 00 of `A mod ℓ`. -/
theorem test_sst :
    (nextOf (exec (.sst 1 32 0) (pair .sp packA 0 false))).map (fun s => s.memRead 0 32) =
      some (toLE 0x001f1e1d1c1b1a191817161514131210e6511a4fc61bd05c57e23fd04a175a27 32) ∧
    (nextOf (exec (.sst 1 32 0) (pair .sp packA 0 false))).map (fun s => (s.bufByte 0, s.bufByte 31)) =
      some (0x27, 0x00) := by decide +kernel

theorem test_sunpack : regAfter (exec (.sunpack 0 1) (pair .sp packA 0 false)) 0 = some (.sm, montA) := by
  decide +kernel

theorem test_spack : regAfter (exec (.spack 0 1) (pair .sm montA 0 false)) 0 = some (.sp, packA) := by decide +kernel

theorem test_spack_one : regAfter (exec (.spack 0 1) (pair .sm 1 0 false)) 0 = some (.sp, radixInvModL) := by
  decide +kernel

/-- `u(2)` times `u(3)` is `u(6)`. -/
theorem test_mmul :
    regAfter
        (exec (.mmul 0 1 2)
          (pair .sm 0x0fffffffffffffffffffffffffffffd656eb3c98b3bdf026334c2e60714df9ed
            0x0fffffffffffffffffffffffffffffc177f15df5bc2119ce20e914037b7a0ced false)) 0 =
      some (.sm, 0x0fffffffffffffffffffffffffffff82db03c20cd54a96c5e9bfc4ec99fe45ed) := by decide +kernel

theorem test_msqr :
    regAfter (exec (.msqr 0 1) (pair .sm montA 0 false)) 0 =
      some (.sm, 0x0d3e16a0696c34c4b3da39b8ecc7df047b9194ef985f7406e1e2e3843ed09438) := by decide +kernel

theorem test_minv :
    regAfter (exec (.minv 0 1) (pair .sm montA 0 false)) 0 =
      some (.sm, 0x03994e5ad85bbec3f63688b6e50e2952f1ab710f103b8f675a6ec57ab2d68a4f) := by decide +kernel

theorem test_minv_zero : regAfter (exec (.minv 0 1) (pair .sm 0 0 false)) 0 = some (.sm, 0) := by decide +kernel

/-! ### Select and compare (95 section 4.1) -/

theorem test_ceq :
    flagAfter (exec (.ceq 1 2) (pair .fe 5 5 false)) = some true ∧
      flagAfter (exec (.ceq 1 2) (pair .fe 5 6 true)) = some false := by decide +kernel

theorem test_csel :
    regAfter (exec (.csel 0 1 2) (pair .fe 5 6 false)) 0 = some (.fe, 5) ∧
      regAfter (exec (.csel 0 1 2) (pair .fe 5 6 true)) 0 = some (.fe, 6) := by decide +kernel

theorem test_setc :
    statusAfter (exec (.setc true) State.reset) = some 4 ∧ statusAfter (exec (.setc false) (pair .fe 0 0 true)) = some 0 := by
  decide +kernel

/-! ### Fault words from the reset state and from three tags (95 sections 4.3 and 4.4) -/

/-- Words and the `STATUS` after them, from reset. -/
def faultRows : List (Nat × Nat) :=
  [(0x00000000, 0x12), (0xFFFFFFFF, 0x12), (0x17000000, 0x12), (0x12123001, 0x12), (0x15123000, 0x12),
    (0x30412000, 0x12), (0x32000002, 0x12)] ++
  [(0x20030000, 0x22), (0x10040000, 0x22), (0x10000000, 0x22), (0x21040000, 0x22), (0x10021FFF, 0x22)] ++
  [(0x10020FE1, 0x32), (0x20040FC1, 0x32), (0x11320FF0, 0x32)] ++
  [(0x11320000, 0x42), (0x12012000, 0x42)] ++
  [(0x10020FE0, 0x00), (0x20040FC0, 0x00), (0x32000001, 0x04)]

theorem test_fault_rows :
    faultRows.all (fun p => statusAfter (step (State.reset.withFetchWord 32 p.1)) == some p.2) = true := by
  decide +kernel

/-- Words and the `STATUS` after them, from the three tags: DOMAIN, EMPTY_REG, or a completion. -/
def domainRows : List (Nat × Nat) :=
  [(0x12012000, 0x52), (0x24023000, 0x52), (0x25010000, 0x52), (0x26020000, 0x52), (0x16020000, 0x52),
    (0x30012000, 0x52), (0x31023000, 0x52), (0x21320040, 0x52), (0x11220040, 0x52), (0x23020000, 0x52),
    (0x22030000, 0x52)] ++
  [(0x12014000, 0x42), (0x12024000, 0x42), (0x30022000, 0x04), (0x31033000, 0x00)]

theorem test_domain_rows :
    domainRows.all (fun p => statusAfter (step (threeTags.withFetchWord 32 p.1)) == some p.2) = true := by
  decide +kernel

/-- A fault latches the word and changes nothing else: P4's `SST` of an `SM` register (95 section 5). -/
theorem test_fault_is_precise :
    step (threeTags.withFetchWord 32 0x21320040) = .next (latched .domain 0x21320040 threeTags) := rfl

/-- `TAGS` of the three tags, and after `CSEL r0, r3, r3` (95 section 4.4). -/
theorem test_tags :
    threeTags.tagsWord = 0xE4 ∧
      (nextOf (step (threeTags.withFetchWord 32 0x31033000))).map State.tagsWord = some 0xE7 := by decide +kernel

/-! ### The host port (95 section 6; 10_state R34 to R42) -/

/-- The bytes `eb 88 0c be` at 0x020, one command counted. -/
def portState (acts : List HostAct) : State :=
  { State.reset.memWrite 0x020 [0xEB, 0x88, 0x0C, 0xBE] with cmdcnt := 8, c := true, host := acts }

theorem test_port_reads :
    (nextOf (step (portState [.read32 0x1020]))).map State.reads = some [0xBE0C88EB] ∧
      (nextOf (step (portState [.read8 0x1021]))).map State.reads = some [0x88] ∧
      (nextOf (step (portState [.read32 0x0004]))).map State.reads = some [4] ∧
      (nextOf (step (portState [.read32 0x0010]))).map State.reads = some [8] ∧
      (nextOf (step (portState [.read32 0x0000]))).map State.reads = some [0] ∧
      (nextOf (step (portState [.read32 0x0018]))).map State.reads = some [0] := by decide +kernel

theorem test_port_write_ignored :
    (nextOf (step (portState [.write32 0x0010 0x12345678]))).map State.cmdcnt = some 8 := by decide +kernel

/-- A word written while a fault is latched is discarded (R192), and the soft reset clears the latch (P4). -/
theorem test_port_fault_discards :
    (nextOf (step { latched .domain 0x21120020 (hosted [.write32 0 0x23210000]) with c := false })).map State.pend =
        some none ∧
      (nextOf (step (latched .domain 0x21120020 (hosted [.write32 0x0008 2])))).map State.fault = some false := by
  decide +kernel

/-- `IE` is written and read in bit 0 of `CTRL` (R36). -/
theorem test_port_ctrl :
    (nextOf (step (hosted [.write32 0x0008 1]))).map State.ctrlWord = some 1 ∧
      (nextOf (step (hosted [.write32 0x0008 3]))).map State.ctrlWord = some 0 := by decide +kernel

/-- Every offset of the unmapped range reads 0 and ignores writes, also at a misaligned word (R33, R41). -/
theorem test_port_unmapped :
    (nextOf (step (portState [.read32 0x0019]))).map State.reads = some [0] ∧
      step (portState [.write32 0x0FFF 0x12345678]) = .next (portState []) := ⟨by decide +kernel, rfl⟩

/-- A misaligned word of the BUF window, and an access past the window, are no transactions (R33, R40). -/
theorem test_port_stops :
    step (hosted [.read32 0x2000]) = .fault (.outsideWindow 0x2000) ∧
      step (hosted [.read32 0x1001]) = .refused (.hostAccessForm 0x1001) ∧
      step (hosted [.read8 0x0004]) = .refused (.hostAccessForm 0x0004) := ⟨rfl, rfl, rfl⟩

/-- The host's fetch question: a word placed is decoded and run. -/
theorem test_withFetchWord :
    decodeTableWord 32 0x32000001 = some (.setc true) ∧
      (nextOf (step (State.reset.withFetchWord 32 0x32000001))).map State.cmdcnt = some 1 := by decide +kernel

/-! ### The end of a run (70_reset_and_hazards R214) -/

/-- A run of one word has ended, well or in its fault, with results still to read and a later run's word to come; it has
not ended while the host has a word to write. -/
theorem test_run_ends :
    State.endedWell 1 { (effectOf (.setc true) State.reset).retire with host := [.read32 4, .hardReset, .write32 0 7] } ∧
      State.endedInFault 0 0x12012000 (latched .emptyReg 0x12012000 (hosted [.read32 4, .read8 0x1000])) ∧
      ¬ (hosted [.read32 4, .write32 0 7]).ended := by decide +kernel

/-! ### The datapath (95 section 2.4, section 3.2; 43_datapath R168) -/

/-- `A` in five 51-bit limbs. -/
theorem test_fieldDeserialize :
    fieldDeserialize .incl intA = ⟨0x7060504030201, 0x1a18161412100, 0x4c4844403c38, 0x50c8c0b8b0a8a, 0x201f1e1d1c1b1⟩ := by
  decide +kernel

/-- `a` in five 52-bit limbs. -/
theorem test_scalarLimbs :
    scalarLimbs packA = ⟨0x23fd04a175a27, 0x4fc61bd05c57e, 0x4131210e6511a, 0x1a19181716151, 0x1f1e1d1c1b⟩ := by
  decide +kernel

/-- The limb forms of `FMUL`, `MMUL` and `SLD` give the integers of 95. -/
theorem test_datapath_values :
    value51 (canonicalize (fieldMulLimbs (fieldDeserialize .incl intA) (fieldDeserialize .incl intBv))) =
        0x2caef55ab9edd13f122553776c0c32ba7e5925beffc2e33ba70021e72ac7990c ∧
      value52 (msqrLimbs Config.default.ell (scalarLimbs montA)) =
        0x0d3e16a0696c34c4b3da39b8ecc7df047b9194ef985f7406e1e2e3843ed09438 ∧
      value52 (sld64Limbs Config.default.ell (2 ^ 512 - 1)) =
        0x0399411b7c309a3dceec73d217f5be65d00e1ba768859347a40611e3449c0f00 := by decide +kernel

/-- `FMUL` is 25 products, `FINV` 254 squarings and 11 multiplications, `MINV` 252 and 72 (R168). -/
theorem test_traces :
    (trace Config.default.ell 0x14 0).count .product = 25 ∧ (trace Config.default.ell 0x16 0).length = 265 ∧
      (trace Config.default.ell 0x26 0).length = 324 := by decide +kernel

/-! ### Witnesses: for each statement with hypotheses, a state and operands that meet them -/

/-- A command whose checks pass completes: the next state is its effect, counted. -/
abbrev ran (i : Instr) (s : State) : State := (effectOf i s).retire

theorem witness_DecodeOfEncodeIsTheCommand :
    (Instr.fld 15 255 4095).WellFormed ∧ (Instr.fadd 15 15 15).WellFormed ∧ (Instr.finv 0 15).WellFormed ∧
      (Instr.ceq 15 0).WellFormed ∧ (Instr.setc true).WellFormed := by decide

theorem witness_EncodeOfDecodeIsTheWord : decode 0x20FFFFFF = .ok (.sld 15 255 4095) := rfl

theorem witness_DecodeFollowsTheTable :
    decode 0x32000001 = .ok (.setc true) ∧
      (⟨"SETC", 0x32000000, 0xFFFFFFFE⟩ : OpRow) ∈ opTable ∧ (0x32000001 : Word) &&& 0xFFFFFFFE = 0x32000000 ∧
      (∀ row ∈ opTable, (0x33000000 : Word) &&& row.mask ≠ row.pattern) ∧
      ((0x32000002 : Word).extractLsb' 24 8 = (0x32000000 : Word).extractLsb' 24 8 ∧
        (0x32000002 : Word) &&& 0xFFFFFFFE ≠ 0x32000000) := ⟨rfl, by decide, by decide, by decide, by decide⟩

theorem witness_TableRowsAreDisjoint :
    (⟨"CEQ", 0x30000000, 0xFFF00FFF⟩ : OpRow) ∈ opTable ∧ (0x300FF000 : Word) &&& 0xFFF00FFF = 0x30000000 := by decide

theorem witness_StepRunsTheDecodedCommand :
    (pending 0x32000001).pend = some 0x32000001 ∧ decode 0x32000001 = .ok (.setc true) ∧
      (pending 0x32000001).host = [] ∧ ({ pending 0x32000001 with host := [.idle] } : State).host = .idle :: [] ∧
      ({ pending 0x32000001 with host := [.write32 0 0] } : State).host = .write32 0 0 :: [] ∧
      (HostAct.write32 0 0).waits = true := ⟨rfl, rfl, rfl, rfl, rfl, rfl⟩

theorem witness_FetchedWordRunsNext :
    decodeTableWord 32 0x30012000 = some (.ceq 1 2) ∧ (hosted [.read32 4]).host.head? ≠ some .idle := by decide

theorem witness_CompletionCountsOrLatches :
    (pending 0x12012000).host = [] ∧ (pending 0x12012000).pend = some 0x12012000 ∧
      decode 0x12012000 = .ok (.fadd 0 1 2) ∧ State.reset.host = [] ∧ State.reset.pend = none :=
  ⟨rfl, rfl, rfl, rfl, rfl⟩

theorem witness_IllegalExactlyWhenNoRowMatches :
    (pending 0x15123000).host = [] ∧ (pending 0x15123000).pend = some 0x15123000 ∧
      (pending 0x15123000).fault = false ∧ (pending 0x15123000).cause = .none ∧
      (∀ row ∈ opTable, (0x15123000 : Word) &&& row.mask ≠ row.pattern) ∧
      (pending 0x15120000).pend = some 0x15120000 ∧ ∃ row ∈ opTable, (0x15120000 : Word) &&& row.mask = row.pattern :=
  ⟨rfl, rfl, rfl, rfl, by decide, rfl, by decide⟩

theorem witness_CmdWriteAcceptedDiscardedOrHeld :
    ((hosted [.write32 0 7]).host = .write32 0x0000 7 :: [] ∧ (hosted [.write32 0 7]).pend = none ∧
        (hosted [.write32 0 7]).fault = false) ∧
      (latched .domain 0 (hosted [.write32 0 7])).fault = true ∧
      ({ hosted [.write32 0 7] with pend := some 0 } : State).pend ≠ none ∧
      (hosted [.read32 0]).host = .read32 0x0000 :: [] := ⟨⟨rfl, rfl, rfl⟩, rfl, by decide, rfl⟩

/-- A busy state with the host about to do `a`. -/
def busyHost (a : HostAct) : State := { hosted [a] with pend := some 0x32000001 }

theorem witness_HoldingWhileBusy (a : HostAct) :
    (busyHost a).pend = some 0x32000001 ∧ (busyHost a).host = a :: [] ∧
      (0x1000 ≤ 0x1000 ∧ 0x1000 < 0x2000 ∧ 0x1000 % 4 = 0) ∧ (0x1000 ≤ 0x1FFC ∧ 0x1FFC < 0x2000 ∧ 0x1FFC % 4 = 0) ∧
      (0x1000 ≤ 0x1FFF ∧ 0x1FFF < 0x2000) := ⟨rfl, rfl, by decide, by decide, by decide⟩

theorem witness_StatusFields :
    (hosted [.read32 4]).host = .read32 0x0004 :: [] ∧ (hosted [.write32 4 9]).host = .write32 0x0004 9 :: [] ∧
      (hosted [.read32 4]).Inv ∧ (hosted [.read32 4]).fault = false := ⟨rfl, rfl, by decide +kernel, rfl⟩

theorem witness_TagsFields :
    (hosted [.read32 0x14]).host = .read32 0x0014 :: [] ∧ (hosted [.write32 0x14 9]).host = .write32 0x0014 9 :: [] :=
  ⟨rfl, rfl⟩

theorem witness_CtrlReadWrite :
    (hosted [.write32 8 1]).host = .write32 0x0008 1 :: [] ∧ (hosted [.write32 8 1]).pend = none ∧
      (1 : Word).getLsbD 1 = false ∧ (2 : Word).getLsbD 1 = true ∧
      (busyHost (.write32 8 1)).pend ≠ none ∧ (hosted [.read32 8]).host = .read32 0x0008 :: [] :=
  ⟨rfl, rfl, by decide, by decide, by decide, rfl⟩

theorem witness_UnmappedAndReadOnlyOffsets (off : Nat) (b : Byte) (w : Word) :
    ((hosted [.read32 off]).host = .read32 off :: [] ∧ (hosted [.read8 off]).host = .read8 off :: [] ∧
        (hosted [.write32 off w]).host = .write32 off w :: [] ∧ (hosted [.write8 off b]).host = .write8 off b :: []) ∧
      (0x0018 ≤ 0x0018 ∧ 0x0018 < 0x1000) ∧ (0x0018 ≤ 0x0019 ∧ 0x0019 < 0x1000) ∧ (0x0018 ≤ 0x0FFF ∧ 0x0FFF < 0x1000) :=
  ⟨⟨rfl, rfl, rfl, rfl⟩, by decide, by decide, by decide⟩

theorem witness_BufWindowAccess (a : HostAct) :
    (hosted [a]).host = a :: [] ∧ (hosted [a]).pend = none ∧ (busyHost a).pend ≠ none ∧ (busyHost a).host = a :: [] ∧
      4095 < 4096 ∧ 4092 < 4096 ∧ 4092 % 4 = 0 ∧ 0 % 4 = 0 := ⟨rfl, rfl, nofun, rfl, by decide⟩

theorem witness_FaultcmdAndCmdcntAreReadOnly :
    (hosted [.read32 0x0C]).host = .read32 0x000C :: [] ∧ (hosted [.read32 0x10]).host = .read32 0x0010 :: [] ∧
      (hosted [.write32 0x0C 1]).host = .write32 0x000C 1 :: [] ∧
      (hosted [.write32 0x10 1]).host = .write32 0x0010 1 :: [] := ⟨rfl, rfl, rfl, rfl⟩

theorem witness_HardResetAtAnyTime :
    (busyHost .hardReset).host = .hardReset :: [] ∧ (busyHost .hardReset).pend ≠ none := ⟨rfl, by decide⟩

theorem witness_SoftResetKeepsBuf :
    ((hosted [.write32 8 3]).host = .write32 0x0008 3 :: [] ∧ (hosted [.write32 8 3]).pend = none ∧
        (3 : Word).getLsbD 1 = true) ∧
      ∃ t : State, (latched .domain 0 (hosted [.hardReset])).fault = true ∧
        step (latched .domain 0 (hosted [.hardReset])) = .next t ∧ t.fault = false :=
  ⟨⟨rfl, rfl, by decide⟩, _, rfl, rfl, rfl⟩

/-- Each cause at its edge: the length, the last address, an EMPTY source, a wrong tag, and a completion. -/
theorem witness_FaultPriority :
    (∀ w : Word, (pending w).host = [] ∧ (pending w).pend = some w) ∧
      decode 0x33000000 = .error (.unassignedOpcode 0x33) ∧
      (decode 0x10021000 = .ok (.fld 0 33 0) ∧ legalLens (.fld 0 33 0) = some [32] ∧ 33 ∉ [32]) ∧
      (decode 0x10020FE1 = .ok (.fld 0 32 0xFE1) ∧ 32 ∈ [32] ∧ 4096 < 0xFE1 + 32) ∧
      (decode 0x11320FE0 = .ok (.fst 3 32 0xFE0) ∧ 0xFE0 + 32 ≤ 4096 ∧
        ∃ r ∈ sources (.fst 3 32 0xFE0), (State.reset.reg r).tag = .empty) ∧
      (decode 0x12012000 = .ok (.fadd 0 1 2) ∧ (∀ r ∈ sources (.fadd 0 1 2), (threeTags.reg r).tag ≠ .empty) ∧
        ¬ tagsAgree (.fadd 0 1 2) threeTags) ∧
      (decode 0x30022000 = .ok (.ceq 2 2) ∧ (∀ r ∈ sources (.ceq 2 2), (threeTags.reg r).tag ≠ .empty) ∧
        tagsAgree (.ceq 2 2) threeTags) := by
  refine ⟨fun w => ⟨rfl, rfl⟩, rfl, ⟨rfl, rfl, by decide⟩, ⟨rfl, by decide, by decide⟩, ⟨rfl, by decide, by decide⟩,
    ⟨rfl, by decide, ?_⟩, ⟨rfl, by decide, ?_⟩⟩
  · simp only [tagsAgree, requiredTag]
    decide
  · simp only [tagsAgree, requiredTag]
    decide

/-- A faulted core whose host writes a command: a step that is no reset. -/
theorem witness_FaultedCoreRunsNothing :
    ∃ t : State, (latched .illegal 0 (hosted [.write32 0 7])).fault = true ∧
      (latched .illegal 0 (hosted [.write32 0 7])).pend = none ∧
      step (latched .illegal 0 (hosted [.write32 0 7])) = .next t ∧
      (∀ rest, (latched .illegal 0 (hosted [.write32 0 7])).host ≠ .hardReset :: rest) ∧
      (∀ w rest, (latched .illegal 0 (hosted [.write32 0 7])).host = .write32 0x0008 w :: rest → w.getLsbD 1 = false) :=
  ⟨_, rfl, rfl, rfl, nofun, nofun⟩

theorem witness_FaultOutcomeIndependentOfValues :
    (∀ r ∈ sources (.finv 0 1), ((pair .fe 0 0 false).reg r).tag = ((pair .fe 7 8 true).reg r).tag) ∧
      pair .fe 0 0 false ≠ pair .fe 7 8 true := by decide

theorem witness_IrqFollowsLatchAndEnable :
    ∃ t : State, exec (.fst 0 32 0) { State.reset with ie := true } = .next t ∧
      ({ State.reset with ie := true } : State).fault = false ∧ t.irq = true := ⟨_, rfl, rfl, rfl⟩

theorem witness_OnlyTheDestinationIsWritten :
    exec (.csel 0 1 2) (pair .sp 5 6 true) = .next (ran (.csel 0 1 2) (pair .sp 5 6 true)) ∧
      destination (.csel 0 1 2) = some (0, none) ∧ destination (.fadd 3 1 2) = some (3, some .fe) ∧
      exec (.fadd 3 1 2) (pair .fe 5 6 true) = .next (ran (.fadd 3 1 2) (pair .fe 5 6 true)) :=
  ⟨exec_of_pass (by decide), rfl, rfl, exec_of_pass (by decide)⟩

theorem witness_OnlyCompareAndSetcWriteFlag :
    (exec (.csel 0 1 2) (pair .sp 5 6 true) = .next (ran (.csel 0 1 2) (pair .sp 5 6 true)) ∧
        writesFlag (.csel 0 1 2) = false) ∧
      ∃ t : State, exec (.ceq 1 2) threeTags = .next t ∧ t.cmdcnt = threeTags.cmdcnt :=
  ⟨⟨exec_of_pass (by decide), rfl⟩, _, exec_of_fault (k := .domain) (by decide), by decide⟩

theorem witness_OnlyStoresWriteBuf :
    exec (.fst 1 32 4064) (pair .fe 5 6 true) = .next (ran (.fst 1 32 4064) (pair .fe 5 6 true)) ∧
      (exec (.fadd 0 1 2) (pair .fe 5 6 true) = .next (ran (.fadd 0 1 2) (pair .fe 5 6 true)) ∧
        isStore (.fadd 0 1 2) = false) ∧
      ∃ t : State, exec (.fst 1 32 0) threeTags.softReset = .next t ∧ t.cmdcnt = threeTags.softReset.cmdcnt :=
  ⟨exec_of_pass (by decide), ⟨exec_of_pass (by decide), rfl⟩, _, exec_of_fault (k := .emptyReg) (by decide), by decide⟩

/-- Two states that differ in `C`, in the count and in a register the command does not name. -/
theorem witness_ResultsDependOnNamedOperandsOnly :
    (pair .fe 5 6 true).cfg = (pair .fe 5 7 false).cfg ∧
      (∀ r ∈ sources (.fsqr 0 1), (pair .fe 5 6 true).reg r = (pair .fe 5 7 false).reg r) ∧
      isLoad (.fsqr 0 1) = false ∧ (¬ ∃ rd ra rb, Instr.fsqr 0 1 = .csel rd ra rb) ∧
      exec (.fsqr 0 1) (pair .fe 5 6 true) = .next (ran (.fsqr 0 1) (pair .fe 5 6 true)) ∧
      exec (.fsqr 0 1) (pair .fe 5 7 false) = .next (ran (.fsqr 0 1) (pair .fe 5 7 false)) :=
  ⟨by decide, by decide, rfl, by simp, exec_of_pass (by decide), exec_of_pass (by decide)⟩

theorem witness_EveryStepKeepsTheInvariant :
    State.Inv { pair .sp 5 6 true with pend := some 0x31012000 } ∧
      step { pair .sp 5 6 true with pend := some 0x31012000 } =
        .next (ran (.csel 0 1 2) { pair .sp 5 6 true with pend := some 0x31012000 }) :=
  ⟨by decide +kernel, (step_of_host_nil rfl).trans ((coreStep_pending (w := 0x31012000) rfl).trans
    ((completeWord_ok (i := .csel 0 1 2) rfl _).trans (exec_of_pass (by decide))))⟩

theorem witness_NoStepChangesTheConfiguration : step State.reset = .next State.reset := rfl

theorem witness_FldLoadsTheReducedInteger :
    4064 + 32 ≤ 4096 ∧ State.reset.cfg.feTopBit = .incl ∧
      ({ State.reset with cfg := { Config.default with feTopBit := .ignore } } : State).cfg.feTopBit = .ignore :=
  ⟨by decide, rfl, rfl⟩

theorem witness_TopBitReadingsDifferByNineteen :
    (2 ^ 255 - 1 < 2 ^ 256 ∧ 2 ^ 255 - 1 < 2 ^ 255) ∧ 2 ^ 255 < 2 ^ 256 ∧ 2 ^ 255 ≤ 2 ^ 255 ∧ 2 ^ 255 ≤ 2 ^ 256 - 1 := by
  decide

theorem witness_StoresWriteTheValueBytes :
    4064 + 32 ≤ 4096 ∧ ((pair .fe 5 6 false).reg 1).tag = .fe ∧ ((pair .sp 5 6 false).reg 1).tag = .sp := by decide

/-- The premises of `FADD`, `FSUB`, `FMUL`, `FSQR` and `FINV`, and both cases of an inverse. -/
theorem witness_field_arithmetic :
    ((pair .fe 0 5 false).reg 1).tag = .fe ∧ ((pair .fe 0 5 false).reg 2).tag = .fe ∧
      ((pair .fe 0 5 false).reg 1).val.toNat = 0 ∧ ¬ fieldP ∣ ((pair .fe 0 5 false).reg 2).val.toNat := by
  decide +kernel

theorem witness_FaddFsubAreModular :
    ((pair .fe 0 5 false).reg 1).tag = .fe ∧ ((pair .fe 0 5 false).reg 2).tag = .fe :=
  ⟨witness_field_arithmetic.1, witness_field_arithmetic.2.1⟩

theorem witness_FmulFsqrAreModular :
    ((pair .fe 0 5 false).reg 1).tag = .fe ∧ ((pair .fe 0 5 false).reg 2).tag = .fe :=
  ⟨witness_field_arithmetic.1, witness_field_arithmetic.2.1⟩

theorem witness_FinvIsTheFermatInverse :
    (((pair .fe 0 5 false).reg 1).tag = .fe ∧ ((pair .fe 0 5 false).reg 1).val.toNat = 0) ∧
      ((pair .fe 0 5 false).reg 2).tag = .fe ∧ ¬ fieldP ∣ ((pair .fe 0 5 false).reg 2).val.toNat :=
  ⟨⟨witness_field_arithmetic.1, witness_field_arithmetic.2.2.1⟩, witness_field_arithmetic.2.1,
    witness_field_arithmetic.2.2.2⟩

/-- The default configuration is one the claims speak of. -/
theorem default_wf : Config.default.WF := by decide +kernel

theorem witness_SldLoadsTheReducedInteger :
    State.reset.cfg.WF ∧ (32 = 32 ∨ 32 = 64) ∧ 4064 + 32 ≤ 4096 ∧ (64 = 32 ∨ 64 = 64) ∧ 4032 + 64 ≤ 4096 :=
  ⟨default_wf, .inl rfl, by decide, .inr rfl, by decide⟩

theorem witness_SunpackSpackConvert :
    (pair .sp 5 6 false).cfg.WF ∧ ((pair .sp 5 6 false).reg 1).tag = .sp ∧ (pair .sm 5 6 false).cfg.WF ∧
      ((pair .sm 5 6 false).reg 1).tag = .sm := ⟨default_wf, by decide, default_wf, by decide⟩

theorem witness_MmulMsqrAreMontgomeryProducts :
    (pair .sm 5 6 false).cfg.WF ∧ ((pair .sm 5 6 false).reg 1).tag = .sm ∧ ((pair .sm 5 6 false).reg 2).tag = .sm :=
  ⟨default_wf, by decide, by decide⟩

theorem witness_MinvIsTheMontgomeryInverse :
    (pair .sm 0 6 false).cfg.WF ∧ Nat.Prime (pair .sm 0 6 false).cfg.ell ∧
      (((pair .sm 0 6 false).reg 1).tag = .sm ∧ ((pair .sm 0 6 false).reg 1).val.toNat = 0) ∧
      ((pair .sm 0 6 false).reg 2).tag = .sm ∧
      ¬ (pair .sm 0 6 false).cfg.ell ∣ ((pair .sm 0 6 false).reg 2).val.toNat :=
  ⟨default_wf, default_ell_prime, by decide, by decide, by decide +kernel⟩

theorem witness_CeqComparesValues :
    (((pair .sm 5 5 false).reg 1).tag ≠ .empty ∧ ((pair .sm 5 5 false).reg 2).tag = ((pair .sm 5 5 false).reg 1).tag ∧
        ((pair .sm 5 5 false).reg 1).val = ((pair .sm 5 5 false).reg 2).val) ∧
      ((pair .sm 5 6 false).reg 1).val ≠ ((pair .sm 5 6 false).reg 2).val := by decide

theorem witness_CselSelectsByFlag :
    (((pair .fe 5 6 false).reg 1).tag ≠ .empty ∧ ((pair .fe 5 6 false).reg 2).tag = ((pair .fe 5 6 false).reg 1).tag ∧
        (pair .fe 5 6 false).c = false) ∧
      (pair .fe 5 6 true).c = true := by decide

theorem witness_SetcSetsFlag :
    (0x32000002 : Word).extractLsb' 24 8 = 0x32#8 ∧ (0x32000002 : Word).extractLsb' 1 23 ≠ 0 ∧
      (0x32800000 : Word).extractLsb' 24 8 = 0x32#8 ∧ (0x32800000 : Word).extractLsb' 1 23 ≠ 0 := by decide

theorem witness_CompareThenSelect :
    ((pair .sp 5 5 false).reg 1).tag ≠ .empty ∧ ((pair .sp 5 5 false).reg 2).tag = ((pair .sp 5 5 false).reg 1).tag ∧
      ((pair .sp 5 5 false).reg 1).val = ((pair .sp 5 5 false).reg 2).val ∧
      ((pair .sp 5 6 false).reg 1).val ≠ ((pair .sp 5 6 false).reg 2).val := by decide

/-- Law (a): the value 5 stored at the last 32 bytes and loaded back. -/
theorem witness_FieldLaws_roundTrip :
    ∃ t u : State, 4064 + 32 ≤ 4096 ∧ ((pair .fe 5 6 false).reg 1).tag = .fe ∧
      ((pair .fe 5 6 false).reg 1).val.toNat < fieldP ∧ exec (.fst 1 32 4064) (pair .fe 5 6 false) = .next t ∧
      exec (.fld 0 32 4064) t = .next u :=
  ⟨_, _, by decide, by decide, by decide +kernel, exec_of_pass (by decide), exec_of_pass (by decide)⟩

/-- Law (c): the inverse of 5 into `x[0]`, then the product into `x[0]`. -/
theorem witness_FieldLaws_inverse :
    ∃ t u : State, ((pair .fe 5 6 false).reg 1).tag = .fe ∧ 0 < ((pair .fe 5 6 false).reg 1).val.toNat ∧
      ((pair .fe 5 6 false).reg 1).val.toNat < fieldP ∧ (0 : RegIdx) ≠ 1 ∧
      exec (.finv 0 1) (pair .fe 5 6 false) = .next t ∧ exec (.fmul 0 1 0) t = .next u :=
  ⟨_, _, by decide, by decide +kernel, by decide +kernel, by decide, exec_of_pass (by decide),
    exec_of_pass (by decide +kernel)⟩

/-- Law (d): the fourth power of 5 by squarings into `x[0]` and by products into `x[2]`. -/
theorem witness_FieldLaws_fourthPower :
    ∃ t u p q v : State, ((pair .fe 5 6 false).reg 1).tag = .fe ∧ (0 : RegIdx) ≠ 1 ∧ (2 : RegIdx) ≠ 1 ∧
      exec (.fsqr 0 1) (pair .fe 5 6 false) = .next t ∧ exec (.fsqr 0 0) t = .next u ∧
      exec (.fmul 2 1 1) (pair .fe 5 6 false) = .next p ∧ exec (.fmul 2 2 1) p = .next q ∧
      exec (.fmul 2 2 1) q = .next v :=
  ⟨_, _, _, _, _, by decide, by decide, by decide, exec_of_pass (by decide), exec_of_pass (by decide +kernel),
    exec_of_pass (by decide), exec_of_pass (by decide +kernel), exec_of_pass (by decide +kernel)⟩

/-- Law (a) of the scalars. -/
theorem witness_ScalarLaws_pack :
    ∃ t u : State, (pair .sp 5 6 false).cfg.WF ∧ ((pair .sp 5 6 false).reg 1).tag = .sp ∧
      ((pair .sp 5 6 false).reg 1).val.toNat < (pair .sp 5 6 false).cfg.ell ∧
      exec (.sunpack 0 1) (pair .sp 5 6 false) = .next t ∧ exec (.spack 3 0) t = .next u :=
  ⟨_, _, default_wf, by decide, by decide +kernel, exec_of_pass (by decide), exec_of_pass (by decide +kernel)⟩

/-- Law (b). -/
theorem witness_ScalarLaws_product :
    ∃ t ta tb : State, (pair .sm 5 6 false).cfg.WF ∧ ((pair .sm 5 6 false).reg 1).tag = .sm ∧
      ((pair .sm 5 6 false).reg 2).tag = .sm ∧ exec (.mmul 0 1 2) (pair .sm 5 6 false) = .next t ∧
      exec (.spack 0 1) (pair .sm 5 6 false) = .next ta ∧ exec (.spack 0 2) (pair .sm 5 6 false) = .next tb :=
  ⟨_, _, _, default_wf, by decide, by decide, exec_of_pass (by decide), exec_of_pass (by decide), exec_of_pass (by decide)⟩

/-- Law (c): program P2 of 95 section 5 on the scalar 5. -/
theorem witness_ScalarLaws_inverse :
    ∃ t u v w : State, (pair .sp 5 6 false).cfg.WF ∧ Nat.Prime (pair .sp 5 6 false).cfg.ell ∧
      ((pair .sp 5 6 false).reg 1).tag = .sp ∧ 0 < ((pair .sp 5 6 false).reg 1).val.toNat ∧
      ((pair .sp 5 6 false).reg 1).val.toNat < (pair .sp 5 6 false).cfg.ell ∧ (3 : RegIdx) ≠ 0 ∧
      exec (.sunpack 0 1) (pair .sp 5 6 false) = .next t ∧ exec (.minv 3 0) t = .next u ∧
      exec (.mmul 3 0 3) u = .next v ∧ exec (.spack 3 3) v = .next w :=
  ⟨_, _, _, _, default_wf, default_ell_prime, by decide, by decide +kernel, by decide +kernel, by decide,
    exec_of_pass (by decide), exec_of_pass (by decide +kernel), exec_of_pass (by decide +kernel),
    exec_of_pass (by decide +kernel)⟩

/-- Law (d): 64 bytes at the end of the buffer, the high half written as zeros. -/
theorem witness_ScalarLaws_wideLoad :
    ∃ s t u : State, s.cfg.WF ∧ 4032 + 64 ≤ 4096 ∧ (∀ k : Nat, k < 32 → s.bufByte (4032 + 32 + k) = 0) ∧
      exec (.sld 0 64 4032) s = .next t ∧ exec (.sld 0 32 4032) s = .next u :=
  ⟨State.reset.memWrite 4032 (toLE intA 64), _, _, default_wf, by decide, by decide +kernel,
    exec_of_pass (by decide), exec_of_pass (by decide)⟩

/-- Limbs at the top of the bound `2^52`, and at the bottom. -/
theorem witness_field_limbs :
    (⟨2 ^ 52 - 1, 2 ^ 52 - 1, 2 ^ 52 - 1, 2 ^ 52 - 1, 2 ^ 52 - 1⟩ : Limbs).FeBound ∧ (⟨0, 0, 0, 0, 0⟩ : Limbs).FeBound := by
  decide +kernel

theorem witness_FieldMultiplierRefinesTheProduct : ∃ a b : Limbs, a.FeBound ∧ b.FeBound :=
  ⟨_, _, witness_field_limbs.1, witness_field_limbs.2⟩

theorem witness_FieldAdderRefinesSumAndDifference : ∃ a b : Limbs, a.FeBound ∧ b.FeBound :=
  ⟨_, _, witness_field_limbs.2, witness_field_limbs.1⟩

theorem witness_FieldSerializersRefineTheResidue :
    2 ^ 256 - 1 < 2 ^ 256 ∧ (⟨2 ^ 52 - 1, 2 ^ 52 - 1, 2 ^ 52 - 1, 2 ^ 52 - 1, 2 ^ 52 - 1⟩ : Limbs).FeBound :=
  ⟨by decide, witness_field_limbs.1⟩

theorem witness_FieldInverterRefinesThePower : (⟨0, 0, 0, 0, 0⟩ : Limbs).FeBound := witness_field_limbs.2

theorem witness_RedcIsMontgomeryReduction :
    2 ^ 252 < Config.default.ell ∧ Config.default.ell < 2 ^ 253 ∧ Config.default.ell % 2 = 1 ∧
      Config.default.ell * (2 ^ 52) ^ 5 - 1 < Config.default.ell * (2 ^ 52) ^ 5 := by decide +kernel

theorem witness_ScalarUnitRefinesTheIntegerRules :
    (datapathConfig Config.default.ell).WF ∧ (scalarLimbs (Config.default.ell - 1)).ScCanonical Config.default.ell ∧
      (scalarLimbs 0).ScCanonical Config.default.ell := by decide +kernel

theorem witness_ScalarLoadReductionIsModEll :
    (datapathConfig Config.default.ell).WF ∧ 2 ^ 256 - 1 < 2 ^ 256 ∧ 2 ^ 512 - 1 < 2 ^ 512 := by decide +kernel

theorem witness_ScalarInverterRefinesMinv :
    (datapathConfig Config.default.ell).WF ∧ 2 ^ 252 + 2 ≤ Config.default.ell ∧
      (scalarLimbs (Config.default.ell - 1)).ScCanonical Config.default.ell := by decide +kernel

theorem witness_ComparatorAndSelectRefine : ∃ a b : Limbs, a.FeBound ∧ b.FeBound :=
  ⟨_, _, witness_field_limbs.1, witness_field_limbs.2⟩

end Sys2Proof.Tests
end

section
/-!
SUPPORT. What a command's outcome depends on (00_scope R12): the check on the tags of the sources, the effect on the
operands the command names.
-/

namespace Sys2Proof.Machine

open Sys2Proof.Claims

theorem exec_next_of_pass {i : Instr} {s t : State} (h : exec i s = .next t) (hc : checkOf i s = none) :
    t = (effectOf i s).retire := by
  rw [exec_of_pass hc] at h
  injection h with h
  exact h.symm

/-- Everything a command that answers a next state can do: latch the fault of its check, or take effect and be
counted (20_memory R60, 60_exceptions R186). -/
theorem exec_next_cases {i : Instr} {s t : State} (h : exec i s = .next t) :
    (∃ k, checkOf i s = some k ∧ t = s.takeFault k (encode i)) ∨
      (checkOf i s = none ∧ t = (effectOf i s).retire) := by
  cases hc : checkOf i s with
  | some k =>
    rw [exec_of_fault hc] at h
    injection h with h
    exact .inl ⟨k, rfl, h.symm⟩
  | none => exact .inr ⟨rfl, exec_next_of_pass h hc⟩

@[simp] theorem effectOf_cmdcnt (i : Instr) (s : State) : (effectOf i s).cmdcnt = s.cmdcnt := by
  obtain ⟨_, _, _, _, hcnt, _⟩ := effectOf_frame i s
  exact hcnt

/-- A command is counted exactly when all its checks pass. -/
theorem exec_counted_iff {i : Instr} {s t : State} (h : exec i s = .next t) :
    t.cmdcnt = s.cmdcnt + 1 ↔ checkOf i s = none := by
  obtain ⟨k, hc, rfl⟩ | ⟨hc, rfl⟩ := exec_next_cases h
  · simp [hc]
  · simp [hc]

/-- The two states agree on all a command names: the configuration, its source registers, the bytes it loads, and `C`
where it is `CSEL` (R12). -/
structure SameOperands (i : Instr) (s s' : State) : Prop where
  cfg : s.cfg = s'.cfg
  regs : ∀ r ∈ sources i, s.reg r = s'.reg r
  bytes : isLoad i = true → ∀ k, k < (lenAddr i).1 → s.bufByte ((lenAddr i).2 + k) = s'.bufByte ((lenAddr i).2 + k)
  flag : (∃ rd ra rb, i = .csel rd ra rb) → s.c = s'.c

theorem State.readLE_congr {s s' : State} {addr n : Nat}
    (h : ∀ k, k < n → s.bufByte (addr + k) = s'.bufByte (addr + k)) : s.readLE addr n = s'.readLE addr n :=
  congrArg leNat (State.memRead_congr h)

/-- The checks of a command see the registers it names and nothing else. -/
theorem checkOf_congr {i : Instr} {s s' : State} (h : ∀ r ∈ sources i, s.reg r = s'.reg r) :
    checkOf i s = checkOf i s' := by
  cases i <;> simp_all [checkOf, sources, State.need1, State.need2, State.needSame]

/-- The destination register after the effect is a function of the named operands. The length check makes `FLD` read
exactly the bytes it names. -/
theorem effectOf_destination_congr {i : Instr} {s s' : State} (h : SameOperands i s s') (hc : checkOf i s = none) :
    ∀ d, destination i = some d → (effectOf i s).reg d.1 = (effectOf i s').reg d.1 := by
  obtain ⟨hcfg, hregs, hbytes, hflag⟩ := h
  cases i
  case fld rd len addr =>
    obtain ⟨hlen, -⟩ := (bufCheck_eq_none _ _ _ _).mp hc
    obtain rfl : len = 32 := by simpa using hlen
    have hread : s.readLE addr 32 = s'.readLE addr 32 := State.readLE_congr (hbytes rfl)
    simp [effectOf, destination, hcfg, hread]
  case sld rd len addr =>
    have hread : s.readLE addr len = s'.readLE addr len := State.readLE_congr (hbytes rfl)
    simp [effectOf, destination, hcfg, hread]
  case csel rd ra rb => simp_all [effectOf, sources, destination, State.selected]
  all_goals simp_all [effectOf, sources, destination, State.valOf]

/-- The flag that `CEQ` or `SETC` writes is a function of the named operands. -/
theorem effectOf_flag_congr {i : Instr} {s s' : State} (h : ∀ r ∈ sources i, s.reg r = s'.reg r)
    (hw : writesFlag i = true) : (effectOf i s).c = (effectOf i s').c := by
  cases i
  case ceq ra rb => simp_all [effectOf, sources, State.compareFlag]
  case setc imm1 => rfl
  all_goals simp [writesFlag] at hw

/-- A byte that is written is the one of the byte string, whatever the buffer held. -/
theorem State.memWrite_bufByte_inside (s : State) {addr k : Nat} {bs : List Byte} (h : k < bs.length) :
    (s.memWrite addr bs).bufByte (addr + k) = bs.getD k 0 := by
  rw [State.memWrite_bufByte, if_pos (by omega), Nat.add_sub_cancel_left]

/-- The 32 bytes a store writes are a function of its source register. -/
theorem effectOf_store_congr {i : Instr} {s s' : State} (h : ∀ r ∈ sources i, s.reg r = s'.reg r)
    (hw : isStore i = true) {k : Nat} (hk : k < 32) :
    (effectOf i s).bufByte ((lenAddr i).2 + k) = (effectOf i s').bufByte ((lenAddr i).2 + k) := by
  cases i
  case fst ra len addr | sst ra len addr =>
    simp [effectOf, lenAddr, State.memWrite_bufByte_inside, hk, State.valOf, h ra (by simp [sources])]
  all_goals simp [isStore] at hw

end Sys2Proof.Machine

namespace Sys2Proof.Proofs

open Sys2Proof.Machine Sys2Proof.Claims

/-- Settles O30: the checks and the effect are functions of the named operands, and the count tells whether the effect
took place. -/
theorem resultsDependOnNamedOperandsOnly : Obligations.ResultsDependOnNamedOperandsOnly := by
  intro i s s' t t' hcfg hregs hbytes hflag ht ht'
  have hiff : t.cmdcnt = s.cmdcnt + 1 ↔ t'.cmdcnt = s'.cmdcnt + 1 := by
    rw [exec_counted_iff ht, exec_counted_iff ht', checkOf_congr hregs]
  refine ⟨hiff, fun hn => ?_⟩
  have hc := (exec_counted_iff ht).mp hn
  obtain rfl := exec_next_of_pass ht hc
  obtain rfl := exec_next_of_pass ht' (checkOf_congr hregs ▸ hc)
  exact ⟨effectOf_destination_congr ⟨hcfg, hregs, hbytes, hflag⟩ hc,
    fun hw => effectOf_flag_congr hregs hw, fun hw k hk => effectOf_store_congr hregs hw hk⟩

/-- Settles O1: the values by evaluation; the defining equation of `RINV_MOD_L` by the law of Euclid's inverse under
`Config.WF`. -/
theorem derivedConstantsOfDefaults : Obligations.DerivedConstantsOfDefaults := by
  have hwf : Config.default.WF := by decide +kernel
  have hgcd : Nat.gcd Config.default.montR Config.default.ell = 1 := by
    obtain ⟨-, -, -, hgcd⟩ := hwf
    exact hgcd
  have hlfactor : lfactor Config.default.ell = 0x51da312547e1b := by decide +kernel
  refine ⟨by decide +kernel, rfl, hgcd, by decide +kernel, by decide +kernel, by decide +kernel, rinv_mul hwf,
    hlfactor, ?_⟩
  rw [hlfactor]
  decide +kernel

end Sys2Proof.Proofs
end

section
/-!
SUPPORT. The host's turn (10_state R33, R42): a read that is answered, a write that is taken, and an act that waits, whose
step is the completion of the pending command and does not see the host's acts.
-/

namespace Sys2Proof.Machine

/-! ### Nothing the core computes depends on the host's acts -/

@[simp] theorem State.readLE_setHost (s : State) (acts : List HostAct) (addr n : Nat) :
    State.readLE { s with host := acts } addr n = s.readLE addr n :=
  State.readLE_congr fun _ _ => rfl

@[simp] theorem State.valOf_setHost (s : State) (acts : List HostAct) (i : RegIdx) :
    State.valOf { s with host := acts } i = s.valOf i := rfl

theorem State.memWrite_setHost (s : State) (acts : List HostAct) (addr : Nat) (bs : List Byte) :
    State.memWrite { s with host := acts } addr bs = { s.memWrite addr bs with host := acts } := rfl

/-- The effect of a command is the same whatever the host has still to do, and leaves the host's acts as they are. -/
theorem effectOf_setHost (i : Instr) (s : State) (acts : List HostAct) :
    effectOf i { s with host := acts } = { effectOf i s with host := acts } := by
  cases i
  case fld | sld =>
    simp only [effectOf, State.readLE_setHost]
    rfl
  case fst | sst =>
    simp only [effectOf, State.storeVal_eq, State.valOf_setHost, State.memWrite_setHost]
  all_goals rfl

theorem State.tagsGo_setHost (s : State) (acts : List HostAct) (n : Nat) :
    State.tagsGo { s with host := acts } n = s.tagsGo n := by
  induction n with
  | zero => rfl
  | succ n ih =>
    simp only [State.tagsGo, ih]
    rfl

theorem State.readWord_setHost (s : State) (acts : List HostAct) (t : Target) :
    State.readWord { s with host := acts } t = s.readWord t := by
  cases t
  case tags => simp only [State.readWord, State.tagsWord, State.tagsGo_setHost]
  all_goals rfl

/-- The core's step with a command pending: it ends the command, leaves `IE`, the host's acts and the answers alone,
and is the same step whatever the host has still to do (20_memory R60). -/
theorem coreStep_completes {s : State} {w : Word} (h : s.pend = some w) :
    ∃ t, coreStep s = .next t ∧ t.pend = none ∧ t.host = s.host ∧ t.reads = s.reads ∧ t.ie = s.ie ∧
      ∀ acts, coreStep { s with host := acts } = .next { t with host := acts } := by
  have hcore (acts : List HostAct) : coreStep { s with host := acts } = completeWord w { s with host := acts } :=
    coreStep_pending h
  simp only [coreStep_pending h, hcore]
  cases hd : decode w with
  | error e =>
    simp only [completeWord, hd]
    exact ⟨_, rfl, rfl, rfl, rfl, rfl, fun _ => rfl⟩
  | ok i =>
    simp only [completeWord_ok hd]
    cases hc : checkOf i s with
    | some k =>
      exact ⟨_, exec_of_fault hc, rfl, rfl, rfl, rfl, fun acts => exec_of_fault ((checkOf_host i s acts).trans hc)⟩
    | none =>
      obtain ⟨-, -, -, hie, -, -, -, -, hhost, hreads⟩ := effectOf_frame i s
      refine ⟨_, exec_of_pass hc, rfl, hhost, hreads, hie, fun acts => ?_⟩
      rw [exec_of_pass ((checkOf_host i s acts).trans hc), effectOf_setHost]
      rfl

/-! ### An act that waits -/

/-- R42: the step is the core's completion, the same as with no act to come, and the act is still the next one. -/
theorem step_of_held {s : State} {a : HostAct} {rest : List HostAct} (hp : s.pend ≠ none) (hh : s.host = a :: rest)
    (hw : a.waits = true) :
    ∃ t, step s = .next t ∧ step { s with host := [] } = .next { t with host := [] } ∧ t.pend = none ∧
      t.host = a :: rest ∧ t.reads = s.reads ∧ t.ie = s.ie := by
  obtain ⟨w, hpend⟩ := Option.ne_none_iff_exists'.mp hp
  obtain ⟨t, hstep, hnone, hhost, hreads, hie, hall⟩ := coreStep_completes hpend
  have hbusy : s.busy = true := Option.isSome_iff_ne_none.mpr hp
  exact ⟨t, (step_of_host_waits hh hbusy hw).trans hstep, (step_of_host_nil rfl).trans (hall []), hnone,
    hhost.trans hh, hreads, hie⟩

/-- Every access to the BUF window waits. -/
theorem HostAct.waits_of_target_buf {act : HostAct} {a : Nat} (h : act.target = some (.buf a)) : act.waits = true := by
  cases act <;> simp_all [HostAct.target, HostAct.waits, Target.readWaits, Target.writeWaits]

/-! ### An act that is taken -/

section
variable {s : State} {off : Nat} {rest : List HostAct}

theorem step_of_read32 {v : Word} (hh : s.host = .read32 off :: rest)
    (hw : s.pend ≠ none → (target32 off).readWaits = false) (hv : s.readWord (target32 off) = some v) :
    step s = .next { s with host := rest, reads := s.reads ++ [v] } := by
  rw [step_of_host_act hh nofun (fun hb => hw (Option.isSome_iff_ne_none.mp hb)), hostAct, State.readWord_setHost, hv]
  rfl

theorem step_of_read8 {v : Word} (hh : s.host = .read8 off :: rest)
    (hw : s.pend ≠ none → (target8 off).readWaits = false) (hv : s.readByte (target8 off) = some v) :
    step s = .next { s with host := rest, reads := s.reads ++ [v] } := by
  have hv' : State.readByte { s with host := rest } (target8 off) = some v := by
    rw [← hv]
    cases target8 off <;> rfl
  rw [step_of_host_act hh nofun (fun hb => hw (Option.isSome_iff_ne_none.mp hb)), hostAct, hv']
  rfl

theorem step_of_write32 {w : Word} {u : State} (hh : s.host = .write32 off w :: rest)
    (hw : s.pend ≠ none → (target32 off).writeWaits = false)
    (hu : State.writeWord { s with host := rest } w (target32 off) = some u) : step s = .next u := by
  rw [step_of_host_act hh nofun (fun hb => hw (Option.isSome_iff_ne_none.mp hb)), hostAct, hu]
  rfl

theorem step_of_write8 {b : Byte} {u : State} (hh : s.host = .write8 off b :: rest)
    (hw : s.pend ≠ none → (target8 off).writeWaits = false)
    (hu : State.writeByte { s with host := rest } b (target8 off) = some u) : step s = .next u := by
  rw [step_of_host_act hh nofun (fun hb => hw (Option.isSome_iff_ne_none.mp hb)), hostAct, hu]
  rfl

/-- A read of `STATUS` is answered at once, a command pending or not (R35). -/
theorem step_of_readStatus (hh : s.host = .read32 0x0004 :: rest) :
    step s = .next { s with host := rest, reads := s.reads ++ [s.statusWord] } :=
  step_of_read32 hh (fun _ => rfl) rfl

/-- A read of `TAGS` is answered at once, a command pending or not (R39). -/
theorem step_of_readTags (hh : s.host = .read32 0x0014 :: rest) :
    step s = .next { s with host := rest, reads := s.reads ++ [s.tagsWord] } :=
  step_of_read32 hh (fun _ => rfl) rfl

end

end Sys2Proof.Machine
end

section
/-!
SUPPORT. The fields of the words the port returns, and the bytes of a 32-bit word (00_scope R9, R10, 10_state R35, R39,
R40).
-/

namespace Sys2Proof

/-- A bit known as an integer. -/
theorem getLsbD_of_bit {w : Word} {i : Nat} {b : Bool} (h : w.toNat / 2 ^ i % 2 = b.toNat) : w.getLsbD i = b := by
  rw [BitVec.getLsbD, Nat.testBit_eq_decide_div_mod_eq, h]
  cases b <;> rfl

end Sys2Proof

namespace Sys2Proof.Machine

theorem Cause.code_lt (k : Cause) : k.code < 16 := by cases k <;> decide

theorem Tag.code_lt (t : Tag) : t.code < 4 := by cases t <;> decide

/-! ### `STATUS` -/

theorem State.statusWord_toNat (s : State) :
    s.statusWord.toNat = s.busy.toNat + 2 * s.fault.toNat + 4 * s.c.toNat + 16 * s.cause.code := by
  have := s.busy.toNat_lt
  have := s.fault.toNat_lt
  have := s.c.toNat_lt
  have := s.cause.code_lt
  rw [State.statusWord, BitVec.toNat_ofNat, Nat.mod_eq_of_lt (by omega)]

/-- The fields of R35, each on its own: BUSY, FAULT, C, a zero, CAUSE, zeros. -/
theorem State.statusWord_fields (s : State) :
    s.statusWord.getLsbD 0 = s.busy ∧ s.statusWord.getLsbD 1 = s.fault ∧ s.statusWord.getLsbD 2 = s.c ∧
      s.statusWord.getLsbD 3 = false ∧ fieldAt s.statusWord 4 4 = s.cause.code ∧ fieldAt s.statusWord 8 24 = 0 := by
  have hw := s.statusWord_toNat
  have := s.busy.toNat_lt
  have := s.fault.toNat_lt
  have := s.c.toNat_lt
  have := s.cause.code_lt
  refine ⟨getLsbD_of_bit ?_, getLsbD_of_bit ?_, getLsbD_of_bit ?_, getLsbD_of_bit ?_, ?_, ?_⟩
  all_goals simp only [fieldAt_eq, hw, Bool.toNat_false]; omega

/-- While no fault is latched the latch holds no cause (R29). -/
theorem State.Inv.cause_eq_none {s : State} (h : s.Inv) (hf : s.fault = false) : s.cause = .none := by
  obtain ⟨-, -, hlatch, -⟩ := h
  simp only [State.latchOk, hf, Bool.false_eq_true, if_false, Bool.and_eq_true, decide_eq_true_eq] at hlatch
  exact hlatch.1

/-! ### `TAGS` -/

theorem State.tagsGo_succ (s : State) {n : Nat} (h : n < 16) :
    s.tagsGo (n + 1) = s.tagsGo n + (s.reg ⟨n, h⟩).tag.code * 4 ^ n := by
  rw [State.tagsGo, dif_pos h]

theorem State.tagsGo_lt (s : State) {n : Nat} (h : n ≤ 16) : s.tagsGo n < 4 ^ n := by
  induction n with
  | zero => exact Nat.one_pos
  | succ n ih =>
    have hlt := ih (by omega)
    have hcode : (s.reg ⟨n, h⟩).tag.code * 4 ^ n ≤ 3 * 4 ^ n :=
      Nat.mul_le_mul_right _ (Nat.le_of_lt_succ (Tag.code_lt _))
    rw [s.tagsGo_succ h, Nat.pow_succ]
    omega

/-- Digit `i` in base 4 is the code of `x[i]`: the digits added above it do not reach it. -/
theorem State.tagsGo_digit (s : State) (i : RegIdx) {n : Nat} (hi : i.val < n) (hn : n ≤ 16) :
    s.tagsGo n / 4 ^ i.val % 4 = (s.reg i).tag.code := by
  induction n with
  | zero => omega
  | succ n ih =>
    rw [s.tagsGo_succ hn]
    obtain hlt | heq := Nat.lt_succ_iff_lt_or_eq.mp hi
    · have hpow : 4 ^ n = 4 ^ i.val * (4 * 4 ^ (n - i.val - 1)) := by
        rw [← Nat.pow_succ', ← Nat.pow_add]
        congr 1
        omega
      rw [← ih hlt (by omega), hpow, Nat.mul_left_comm, Nat.add_mul_div_left _ _ (by positivity), Nat.mul_left_comm,
        Nat.add_mul_mod_self_left]
    · subst heq
      rw [Nat.add_mul_div_right _ _ (by positivity), Nat.div_eq_of_lt (s.tagsGo_lt (by omega)), Nat.zero_add]
      exact Nat.mod_eq_of_lt (Tag.code_lt _)

/-- `TAGS[2i+1:2i]` is the tag code of `x[i]` (R39). -/
theorem State.tagsWord_field (s : State) (i : RegIdx) : fieldAt s.tagsWord (2 * i.val) 2 = (s.reg i).tag.code := by
  have hlt : s.tagsGo 16 < 2 ^ 32 := s.tagsGo_lt (Nat.le_refl 16)
  rw [fieldAt_eq, State.tagsWord, BitVec.toNat_ofNat, Nat.mod_eq_of_lt hlt, Nat.pow_mul]
  exact s.tagsGo_digit i i.isLt (Nat.le_refl 16)

/-! ### The bytes of a word -/

/-- Byte `k` of `LE(b, n)` is `b[k]` (00_scope R10). -/
theorem leNat_digit (bs : List Byte) (k : Nat) : leNat bs / 256 ^ k % 256 = (bs.getD k 0).toNat := by
  induction bs generalizing k with
  | nil => simp [leNat]
  | cons b bs ih =>
    have hb : b.toNat < 256 := b.isLt
    cases k with
    | zero =>
      simp only [leNat, Nat.pow_zero, Nat.div_one, List.getD_cons_zero]
      omega
    | succ k =>
      have hdiv : (b.toNat + 256 * leNat bs) / 256 = leNat bs := by omega
      rw [leNat, Nat.pow_succ', ← Nat.div_div_eq_div_mul, hdiv, ih, List.getD_cons_succ]

/-- Byte `k` of the word a 32-bit read of the BUF window returns is `BUF[addr + k]` (R40). -/
theorem State.readWord_byte (s : State) (addr : Nat) {k : Nat} (hk : k < 4) :
    (BitVec.ofNat 32 (leNat (s.memRead addr 4))).extractLsb' (8 * k) 8 = s.bufByte (addr + k) := by
  have hlen : k < (s.memRead addr 4).length := by rwa [State.memRead_length]
  have hlt : leNat (s.memRead addr 4) < 2 ^ 32 := by
    have h := leNat_lt (s.memRead addr 4)
    rwa [State.memRead_length] at h
  have hfield : fieldAt (BitVec.ofNat 32 (leNat (s.memRead addr 4))) (8 * k) 8 = (s.bufByte (addr + k)).toNat := by
    rw [fieldAt_eq, BitVec.toNat_ofNat, Nat.mod_eq_of_lt hlt, Nat.pow_mul]
    exact (leNat_digit _ k).trans
      (congrArg BitVec.toNat ((List.getD_eq_getElem _ _ hlen).trans (State.memRead_getElem s addr 4 k hlen)))
  rw [extract_of_fieldAt hfield, BitVec.ofNat_toNat, BitVec.setWidth_eq]

/-- Byte `k` of the bytes a 32-bit write of `w` stores is `w[8k+7:8k]` (R10, R40). -/
theorem toLE_word_getD (w : Word) {k : Nat} (hk : k < 4) : (toLE w.toNat 4).getD k 0 = w.extractLsb' (8 * k) 8 := by
  have hlen : k < (toLE w.toNat 4).length := by rwa [toLE_length]
  have hfield : w.extractLsb' (8 * k) 8 = BitVec.ofNat 8 (w.toNat / 2 ^ (8 * k) % 2 ^ 8) :=
    extract_of_fieldAt (fieldAt_eq w (8 * k) 8)
  rw [List.getD_eq_getElem _ _ hlen, toLE_getElem, hfield, Nat.pow_mul]
  exact BitVec.eq_of_toNat_eq (by simp)

end Sys2Proof.Machine
end

section
/-!
The host port: holding, `STATUS`, `TAGS` and the BUF window (10_state R35, R39, R40, R42).
-/

namespace Sys2Proof.Proofs

open Sys2Proof.Machine Sys2Proof.Claims

/-- Settles O12: a held act's step is the core's completion; a read of a status register and a hard reset do not wait. -/
theorem holdingWhileBusy : Obligations.HoldingWhileBusy := by
  intro s cw rest hp
  have hpend : s.pend ≠ none := by simp [hp]
  refine ⟨fun a ha hh => ?_, step_of_readStatus, fun hh => step_of_read32 hh (fun _ => rfl) rfl,
    fun hh => step_of_read32 hh (fun _ => rfl) rfl, step_of_readTags,
    fun hh => ⟨_, step_of_host_act hh nofun (fun _ => rfl), rfl, rfl, rfl⟩⟩
  have hwaits : a.waits = true := by
    obtain ⟨w, rfl⟩ | ⟨w, rfl⟩ | ⟨off, hlo, hhi, halign, hacc⟩ | ⟨off, hlo, hhi, hacc⟩ := ha
    · rfl
    · rfl
    · obtain ⟨addr, rfl⟩ := Nat.exists_eq_add_of_le hlo
      have ht := congrArg some (target32_buf (a := addr) (by omega) (by omega))
      obtain rfl | ⟨w, rfl⟩ := hacc
      · exact HostAct.waits_of_target_buf ht
      · exact HostAct.waits_of_target_buf ht
    · obtain ⟨addr, rfl⟩ := Nat.exists_eq_add_of_le hlo
      have ht := congrArg some (target8_buf (a := addr) (by omega))
      obtain rfl | ⟨b, rfl⟩ := hacc
      · exact HostAct.waits_of_target_buf ht
      · exact HostAct.waits_of_target_buf ht
  obtain ⟨t, hstep, hnil, hnone, hhost, hreads, -⟩ := step_of_held hpend hh hwaits
  exact ⟨t, hstep, hnil, hnone, hhost, hreads⟩

/-- Settles O13: the fields are read off the integer that `STATUS` is. -/
theorem statusFields : Obligations.StatusFields := by
  intro s
  obtain ⟨hbusy, hfault, hc, hzero, hcause, hrest⟩ := s.statusWord_fields
  refine ⟨?_, hfault, hc, hzero, ?_, fun hinv hf => ?_, extract_of_fieldAt hrest, fun rest => step_of_readStatus,
    fun w rest hh => step_of_write32 hh (fun _ => rfl) rfl⟩
  · rw [hbusy]
    exact Option.isSome_iff_ne_none
  · refine hcause.trans ?_
    cases s.cause <;> rfl
  · rw [hinv.cause_eq_none hf] at hcause
    exact extract_of_fieldAt hcause

/-- Settles O14: `TAGS` holds one base-4 digit for each register. -/
theorem tagsFields : Obligations.TagsFields := by
  intro s
  refine ⟨fun i => ?_, fun rest => step_of_readTags, fun w rest hh => step_of_write32 hh (fun _ => rfl) rfl⟩
  refine (s.tagsWord_field i).trans ?_
  cases (s.reg i).tag <;> rfl

/-- Settles O17: an access to the window is a read or a write of `BUF` at its address, and waits while a command is
pending. -/
theorem bufWindowAccess : Obligations.BufWindowAccess := by
  intro s a b w rest ha
  have h8 : target8 (0x1000 + a) = .buf a := target8_buf ha
  have h32 (h4 : a % 4 = 0) : target32 (0x1000 + a) = .buf a := target32_buf ha h4
  refine ⟨fun hh hp => ?_, fun hh hp => ?_, fun hh h4 hp => ?_, fun hh h4 hp => ?_, fun hp act hact hh => ?_⟩
  · exact ⟨_, step_of_read8 hh (absurd hp) (congrArg s.readByte h8), BitVec.toNat_setWidth_of_le (by decide)⟩
  · refine ⟨_, step_of_write8 hh (absurd hp) (congrArg (State.writeByte _ b) h8), rfl, ?_, fun x hx => ?_⟩
    · exact State.memWrite_bufByte_inside _ (k := 0) (bs := [b]) Nat.one_pos
    · exact State.memWrite_bufByte_other (bs := [b]) (by simp only [List.length_singleton]; omega)
  · exact ⟨_, step_of_read32 hh (absurd hp) (congrArg s.readWord (h32 h4)), fun k hk => s.readWord_byte a hk⟩
  · refine ⟨_, step_of_write32 hh (absurd hp) (congrArg (State.writeWord _ w) (h32 h4)), rfl, fun k hk => ?_,
      fun x hx => ?_⟩
    · exact (State.memWrite_bufByte_inside _ (by rwa [toLE_length])).trans (toLE_word_getD w hk)
    · exact State.memWrite_bufByte_other (by rwa [toLE_length])
  · have htarget : act.target = some (.buf a) := by
      obtain rfl | rfl | ⟨h4, rfl | rfl⟩ := hact
      · exact congrArg some h8
      · exact congrArg some h8
      · exact congrArg some (h32 h4)
      · exact congrArg some (h32 h4)
    obtain ⟨t, hstep, -, -, hhost, hreads, -⟩ := step_of_held hp hh (HostAct.waits_of_target_buf htarget)
    exact ⟨t, hstep, hhost, hreads⟩

end Sys2Proof.Proofs
end

section
/-!
SUPPORT. A word that decodes is the word of its command (30_encoding R71, R77): format by format, the word is rebuilt from
the fields the decoder reads, a must-be-zero field contributing nothing.
-/

namespace Sys2Proof

theorem needZero_eq_ok {w : Word} {lo n : Nat} {i j : Instr} :
    needZero w lo n i = .ok j ↔ fieldAt w lo n = 0 ∧ i = j := by
  unfold needZero
  split <;> simp_all

/-- A word of three register fields and zeros is rebuilt from its fields (R71). -/
theorem wordR_fields {w : Word} (hzero : fieldAt w 0 12 = 0) :
    wordR (opcodeOf w) (regAt w 20) (regAt w 16) (regAt w 12) = w := by
  have hw := w.isLt
  apply BitVec.eq_of_toNat_eq
  rw [wordR_toNat (opcodeOf w) _ _ _ (fieldAt_lt w 24 8)]
  simp only [opcodeOf, fieldAt_eq, regAt_val] at hzero ⊢
  omega

section
variable {w : Word} {op : Nat} {i : Instr} (hop : opcodeOf w = op)
include hop

theorem encode_of_decodeM {k : RegIdx → Nat → Nat → Instr} (h : decodeM w k = .ok i)
    (hk : ∀ r len addr, encode (k r len addr) = wordM op r len addr) : encode i = w := by
  obtain rfl := Except.ok.inj h
  have hw := w.isLt
  rw [hk, ← hop]
  apply BitVec.eq_of_toNat_eq
  rw [wordM_toNat (opcodeOf w) _ _ _ (fieldAt_lt w 24 8) (fieldAt_lt w 12 8) (fieldAt_lt w 0 12)]
  simp only [opcodeOf, fieldAt_eq, regAt_val]
  omega

theorem encode_of_decodeR3 {k : RegIdx → RegIdx → RegIdx → Instr}
    (h : decodeR3 w k = .ok i) (hk : ∀ rd ra rb, encode (k rd ra rb) = wordR op rd ra rb) : encode i = w := by
  obtain ⟨hzero, rfl⟩ := needZero_eq_ok.mp h
  rw [hk, ← hop, wordR_fields hzero]

/-- The `rb` field lies in the zeros of format R2. -/
theorem encode_of_decodeR2 {k : RegIdx → RegIdx → Instr} (h : decodeR2 w k = .ok i)
    (hk : ∀ rd ra, encode (k rd ra) = wordR op rd ra 0) : encode i = w := by
  obtain ⟨hzero, rfl⟩ := needZero_eq_ok.mp h
  rw [fieldAt_eq] at hzero
  have hrb : regAt w 12 = 0 := Fin.ext (by rw [regAt_val, Fin.val_zero]; omega)
  have hlow : fieldAt w 0 12 = 0 := by rw [fieldAt_eq]; omega
  rw [hk, ← hop, ← hrb, wordR_fields hlow]

/-- The `rd` field is the zeros of format RC above `ra`. -/
theorem encode_of_decodeRC {k : RegIdx → RegIdx → Instr} (h : decodeRC w k = .ok i)
    (hk : ∀ ra rb, encode (k ra rb) = wordR op 0 ra rb) : encode i = w := by
  unfold decodeRC at h
  split at h
  next hhigh =>
    obtain ⟨hzero, rfl⟩ := needZero_eq_ok.mp h
    have hrd : regAt w 20 = 0 := Fin.ext hhigh
    rw [hk, ← hop, ← hrd, wordR_fields hzero]
  next => cases h

end

theorem encode_of_decodeI {w : Word} {i : Instr} (hop : opcodeOf w = 0x32) (h : decodeI w .setc = .ok i) :
    encode i = w := by
  obtain ⟨hzero, rfl⟩ := needZero_eq_ok.mp h
  have hw := w.isLt
  have hbit : (fieldAt w 0 1 == 1).toNat = fieldAt w 0 1 := by
    obtain h0 | h1 := Nat.le_one_iff_eq_zero_or_eq_one.mp (Nat.le_of_lt_succ (fieldAt_lt w 0 1))
    · simp [h0]
    · simp [h1]
  rw [encode, hbit, ← hop]
  apply BitVec.eq_of_toNat_eq
  simp only [opcodeOf, fieldAt_eq, BitVec.toNat_ofNat] at hzero ⊢
  omega

/-- No bit of a word that decodes is dropped: it is the word of its command (R75, R78). -/
theorem encode_of_decode {w : Word} {i : Instr} (h : decode w = .ok i) : encode i = w := by
  unfold decode at h
  split at h
  case h_1 hop | h_2 hop | h_8 hop | h_9 hop => exact encode_of_decodeM hop h fun _ _ _ => rfl
  case h_3 hop | h_4 hop | h_5 hop | h_12 hop | h_16 hop => exact encode_of_decodeR3 hop h fun _ _ _ => rfl
  case h_6 hop | h_7 hop | h_10 hop | h_11 hop | h_13 hop | h_14 hop =>
    exact encode_of_decodeR2 hop h fun _ _ => rfl
  case h_15 hop => exact encode_of_decodeRC hop h fun _ _ => rfl
  case h_17 hop => exact encode_of_decodeI hop h
  case h_18 => cases h

end Sys2Proof
end

section
/-!
SUPPORT. The end of a command: which causes its checks can raise (60_exceptions R181, R182), and what the completion of a
word leaves (20_memory R60).
-/

namespace Sys2Proof.Machine

open Sys2Proof.Claims

theorem bufCheck_cause {size : Nat} {legal : List Nat} {len addr : Nat} {k : Cause}
    (h : bufCheck size legal len addr = some k) : k = .badLength ∨ k = .bufRange := by
  unfold bufCheck at h
  split at h
  · exact .inl (Option.some.inj h).symm
  · split at h
    · exact .inr (Option.some.inj h).symm
    · cases h

theorem needAll_cause {tags : List (Tag × Tag)} {k : Cause} (h : needAll tags = some k) :
    k = .emptyReg ∨ k = .domain := by
  obtain hn | he | hd := needAll_cases tags
  · rw [hn] at h
    cases h
  · exact .inl (Option.some.inj (h.symm.trans he))
  · exact .inr (Option.some.inj (h.symm.trans hd))

/-- The four causes the checks of a decoded command raise: never `ILLEGAL`, which is the decoder's (R182). -/
theorem checkOf_cause {i : Instr} {s : State} {k : Cause} (h : checkOf i s = some k) :
    (k = .badLength ∨ k = .bufRange) ∨ k = .emptyReg ∨ k = .domain := by
  cases i
  case fld | sld => exact .inl (bufCheck_cause h)
  case fst | sst =>
    obtain hb | ⟨-, ht⟩ := Option.or_eq_some_iff.mp h
    · exact .inl (bufCheck_cause hb)
    · exact .inr (needAll_cause ht)
  case setc => cases h
  all_goals exact .inr (needAll_cause h)

/-- The completion of a word from `s` leaves `t`: the slot is free, and the word is counted with the latch untouched,
or it is latched with a cause and nothing else changes. -/
def CountedOrLatched (w : Word) (s t : State) : Prop :=
  t.pend = none ∧
    ((t.cmdcnt = s.cmdcnt + 1 ∧ t.fault = s.fault ∧ t.cause = s.cause ∧ t.faultcmd = s.faultcmd) ∨
      ∃ k : Cause, k ≠ .none ∧ t = latched k w s)

theorem retire_countedOrLatched (i : Instr) (w : Word) (s : State) : CountedOrLatched w s (effectOf i s).retire := by
  obtain ⟨hfault, hcause, hfaultcmd, -, hcnt, -⟩ := effectOf_frame i s
  exact ⟨rfl, .inl ⟨congrArg (· + 1) hcnt, hfault, hcause, hfaultcmd⟩⟩

theorem latched_countedOrLatched {k : Cause} (hk : k ≠ .none) (w : Word) (s : State) :
    CountedOrLatched w s (latched k w s) := ⟨rfl, .inr ⟨k, hk, rfl⟩⟩

/-- Every word completes, from every state: an undecodable one latches `ILLEGAL`, a command latches the first failing
check with its own word, or takes effect and is counted. -/
theorem completeWord_countedOrLatched (w : Word) (s : State) :
    ∃ t, completeWord w s = .next t ∧ CountedOrLatched w s t := by
  cases hd : decode w with
  | error e =>
    have hstep : completeWord w s = .next (latched .illegal w s) := by
      rw [completeWord, hd]
      rfl
    exact ⟨_, hstep, latched_countedOrLatched (by decide) w s⟩
  | ok i =>
    rw [completeWord_ok hd]
    cases hc : checkOf i s with
    | some k =>
      have hk : k ≠ .none := by
        rintro rfl
        simpa using checkOf_cause hc
      have hstep : exec i s = .next (latched k w s) := encode_of_decode hd ▸ exec_of_fault hc
      exact ⟨_, hstep, latched_countedOrLatched hk w s⟩
    | none => exact ⟨_, exec_of_pass hc, retire_countedOrLatched i w s⟩

end Sys2Proof.Machine
end

section
/-!
The completion step (20_memory R60).
-/

namespace Sys2Proof.Proofs

open Sys2Proof.Machine Sys2Proof.Claims

/-- Settles O9: with no act of the host the step is the core's, which completes the pending word or, with none, is idle. -/
theorem completionCountsOrLatches : Obligations.CompletionCountsOrLatches := by
  refine ⟨fun s w hh hp => ?_, fun s hh hp => (step_of_host_nil hh).trans (coreStep_idle hp)⟩
  have hstep : step s = completeWord w s := (step_of_host_nil hh).trans (coreStep_pending hp)
  obtain ⟨t, hnext, hend⟩ := completeWord_countedOrLatched w s
  exact ⟨fun i hd => hstep.trans (completeWord_ok hd s), t, hstep.trans hnext, hend⟩

end Sys2Proof.Proofs
end

section
/-!
SUPPORT. The command table against the decoder (30_encoding R75, R76, R78): what a row's mask covers is fixed in every word
that selects the row, so such a word passes the checks of its format; and a word that decodes selects the row of its
command.
-/

namespace Sys2Proof

/-- The mask of a row keeps the fields it covers: a word that selects the row has the pattern's value there (R75). -/
theorem extract_of_selects {w mask pattern : Word} {lo n : Nat} (hsel : w &&& mask = pattern)
    (hcover : mask.extractLsb' lo n = BitVec.allOnes n) : w.extractLsb' lo n = pattern.extractLsb' lo n := by
  rw [← hsel, BitVec.extractLsb'_and, hcover, BitVec.and_allOnes]

/-- The field of `n` bits at `lo` must be zero in the words of the row: the mask covers it, and it is zero in the
pattern. -/
def OpRow.MustBeZero (row : OpRow) (lo n : Nat) : Prop :=
  row.mask.extractLsb' lo n = BitVec.allOnes n ∧ row.pattern.extractLsb' lo n = 0

section
variable {w : Word} {row : OpRow} (hsel : w &&& row.mask = row.pattern)
include hsel

theorem fieldAt_of_mustBeZero {lo n : Nat} (hzero : row.MustBeZero lo n) : fieldAt w lo n = 0 := by
  rw [fieldAt, extract_of_selects hsel hzero.1, hzero.2]
  rfl

theorem needZero_of_mustBeZero {lo n : Nat} (hzero : row.MustBeZero lo n) (i : Instr) : needZero w lo n i = .ok i :=
  needZero_eq_ok.mpr ⟨fieldAt_of_mustBeZero hsel hzero, rfl⟩

end

/-! The table of R76 by columns, each fact by evaluation of the 17 rows. -/

theorem opTable_mask_opcode : ∀ row ∈ opTable, row.mask.extractLsb' 24 8 = BitVec.allOnes 8 := by decide

/-- The 17 assigned opcodes. -/
theorem opTable_opcodes : opTable.map (fun row => opcodeOf row.pattern) =
    [0x10, 0x11, 0x12, 0x13, 0x14, 0x15, 0x16, 0x20, 0x21, 0x22, 0x23, 0x24, 0x25, 0x26, 0x30, 0x31, 0x32] := by decide

/-- No two rows have one opcode. -/
theorem opTable_eq_of_opcode {r q : OpRow} (hr : r ∈ opTable) (hq : q ∈ opTable)
    (h : opcodeOf r.pattern = opcodeOf q.pattern) : r = q := by
  have hnodup : (opTable.map (fun row => opcodeOf row.pattern)).Nodup := by
    rw [opTable_opcodes]
    decide
  exact List.inj_on_of_nodup_map hnodup hr hq h

theorem opTable_mustBeZero_R3 : ∀ row ∈ opTable, opcodeOf row.pattern ∈ [0x12, 0x13, 0x14, 0x24, 0x31] →
    row.MustBeZero 0 12 := by unfold OpRow.MustBeZero; decide

theorem opTable_mustBeZero_R2 : ∀ row ∈ opTable, opcodeOf row.pattern ∈ [0x15, 0x16, 0x22, 0x23, 0x25, 0x26] →
    row.MustBeZero 0 16 := by unfold OpRow.MustBeZero; decide

theorem opTable_mustBeZero_RC : ∀ row ∈ opTable, opcodeOf row.pattern = 0x30 →
    row.MustBeZero 20 4 ∧ row.MustBeZero 0 12 := by unfold OpRow.MustBeZero; decide

theorem opTable_mustBeZero_I : ∀ row ∈ opTable, opcodeOf row.pattern = 0x32 →
    row.MustBeZero 1 23 := by unfold OpRow.MustBeZero; decide

section
variable {w : Word} {row : OpRow} (hrow : row ∈ opTable)
include hrow

/-- The mask of every row covers the opcode (R75). -/
theorem opcode_of_selects (hsel : w &&& row.mask = row.pattern) : opcodeOf w = opcodeOf row.pattern :=
  congrArg BitVec.toNat (extract_of_selects hsel (opTable_mask_opcode row hrow))

/-- The row a word selects is the only one with the word's opcode. -/
theorem eq_of_selects_of_opcode {q : OpRow} (hq : q ∈ opTable) (hsel : w &&& row.mask = row.pattern)
    (hop : opcodeOf w = opcodeOf q.pattern) : row = q :=
  opTable_eq_of_opcode hrow hq ((opcode_of_selects hrow hsel).symm.trans hop)

/-- A word that selects a row passes the checks of its format (R77, R78). -/
theorem decode_ok_of_selects (hsel : w &&& row.mask = row.pattern) : ∃ i, decode w = .ok i := by
  have hopcode := opcode_of_selects hrow hsel
  unfold decode
  split
  case h_1 | h_2 | h_8 | h_9 => exact ⟨_, rfl⟩
  case h_3 hop | h_4 hop | h_5 hop | h_12 hop | h_16 hop =>
    exact ⟨_, needZero_of_mustBeZero hsel (opTable_mustBeZero_R3 row hrow (by simp [← hopcode, hop])) _⟩
  case h_6 hop | h_7 hop | h_10 hop | h_11 hop | h_13 hop | h_14 hop =>
    exact ⟨_, needZero_of_mustBeZero hsel (opTable_mustBeZero_R2 row hrow (by simp [← hopcode, hop])) _⟩
  case h_15 hop =>
    obtain ⟨hhigh, hlow⟩ := opTable_mustBeZero_RC row hrow (hopcode.symm.trans hop)
    exact ⟨_, (if_pos (fieldAt_of_mustBeZero hsel hhigh)).trans (needZero_of_mustBeZero hsel hlow _)⟩
  case h_17 hop =>
    exact ⟨_, needZero_of_mustBeZero hsel (opTable_mustBeZero_I row hrow (hopcode.symm.trans hop)) _⟩
  case h_18 =>
    have hassigned := List.mem_map_of_mem (f := fun row => opcodeOf row.pattern) hrow
    rw [opTable_opcodes, ← hopcode] at hassigned
    simp_all

end

/-- The `len` and `addr` of a decoded command are fields of the word, so they fit it (R73). -/
theorem wellFormed_of_decode {w : Word} {i : Instr} (h : decode w = .ok i) : i.WellFormed := by
  have hfit : fieldsFit (fieldAt w 12 8) (fieldAt w 0 12) = true := by
    simp only [fieldsFit, Bool.and_eq_true, decide_eq_true_eq]
    exact ⟨fieldAt_lt w 12 8, fieldAt_lt w 0 12⟩
  unfold decode at h
  split at h
  case h_1 | h_2 | h_8 | h_9 =>
    obtain rfl := Except.ok.inj h
    exact hfit
  case h_15 =>
    unfold decodeRC at h
    split at h
    · obtain ⟨-, rfl⟩ := needZero_eq_ok.mp h
      rfl
    · cases h
  case h_18 => cases h
  all_goals
    obtain ⟨-, rfl⟩ := needZero_eq_ok.mp h
    rfl

end Sys2Proof

namespace Sys2Proof.Laws

open Sys2Proof

/-- The family over all commands. -/
theorem encodesRow : (i : Instr) → EncodesRow.Statement i
  | .fld rd len addr => EncodesRow.fld rd len addr
  | .fst ra len addr => EncodesRow.fst ra len addr
  | .fadd rd ra rb => EncodesRow.fadd rd ra rb
  | .fsub rd ra rb => EncodesRow.fsub rd ra rb
  | .fmul rd ra rb => EncodesRow.fmul rd ra rb
  | .fsqr rd ra => EncodesRow.fsqr rd ra
  | .finv rd ra => EncodesRow.finv rd ra
  | .sld rd len addr => EncodesRow.sld rd len addr
  | .sst ra len addr => EncodesRow.sst ra len addr
  | .sunpack rd ra => EncodesRow.sunpack rd ra
  | .spack rd ra => EncodesRow.spack rd ra
  | .mmul rd ra rb => EncodesRow.mmul rd ra rb
  | .msqr rd ra => EncodesRow.msqr rd ra
  | .minv rd ra => EncodesRow.minv rd ra
  | .ceq ra rb => EncodesRow.ceq ra rb
  | .csel rd ra rb => EncodesRow.csel rd ra rb
  | .setc imm1 => EncodesRow.setc imm1

/-- A word that decodes is its command's word, which selects the row of the command's mnemonic. -/
theorem selects_of_decode {w : Word} {i : Instr} (h : decode w = .ok i) :
    ∃ row ∈ opTable, row.mnemonic = i.mnemonic ∧ w &&& row.mask = row.pattern := by
  obtain ⟨row, hrow, hname, hsel⟩ := encodesRow i (wellFormed_of_decode h)
  rw [encode_of_decode h] at hsel
  exact ⟨row, hrow, hname, beq_iff_eq.mp hsel⟩

end Sys2Proof.Laws
end

section
/-!
The command table and the decoder (30_encoding R75).
-/

namespace Sys2Proof.Proofs

open Sys2Proof.Laws

/-- Settles O4: a word that decodes selects its command's row; a selected row is the only one with the word's opcode, and
its mask covers what the decoder checks. -/
theorem decodeFollowsTheTable : Obligations.DecodeFollowsTheTable := by
  refine ⟨fun w i hd => selects_of_decode hd, fun w row hrow hsel => ?_, fun w hnone i hd => ?_,
    fun w row hrow hopcode hnot i hd => ?_⟩
  · obtain ⟨i, hd⟩ := decode_ok_of_selects hrow hsel
    obtain ⟨q, hq, hname, hqsel⟩ := selects_of_decode hd
    obtain rfl := eq_of_selects_of_opcode hq hrow hqsel (opcode_of_selects hrow hsel)
    exact ⟨i, hd, hname.symm⟩
  · obtain ⟨row, hrow, -, hsel⟩ := selects_of_decode hd
    exact hnone row hrow hsel
  · obtain ⟨q, hq, -, hqsel⟩ := selects_of_decode hd
    obtain rfl := eq_of_selects_of_opcode hq hrow hqsel (congrArg BitVec.toNat hopcode)
    exact hnot hqsel

end Sys2Proof.Proofs
end

section
/-!
SUPPORT. A field command that passes its checks writes the residue of an integer to its destination, and a field store
writes bytes that are read back (40_field R101, R102, R105 to R107; 20_memory R53, R54).
-/

namespace Sys2Proof.Machine

/-- The register that holds the residue of an integer modulo `P`, as the field commands write it (40_field R100). -/
def feReg (n : Nat) : Reg := ⟨.fe, BitVec.ofNat 256 (n % fieldP)⟩

@[simp] theorem feReg_tag (n : Nat) : (feReg n).tag = .fe := rfl

@[simp] theorem feReg_val_toNat (n : Nat) : (feReg n).val.toNat = n % fieldP :=
  ofNat_val_toNat (Nat.mod_lt _ fieldP_pos) fieldP_lt.le

/-- The value is known up to residue, which is all that the next command's result depends on. -/
theorem State.valOf_modEq_of_reg {s : State} {i : RegIdx} {n : Nat} (h : s.reg i = feReg n) :
    s.valOf i ≡ n [MOD fieldP] := by
  rw [State.valOf, h, feReg_val_toNat]
  exact Nat.mod_modEq n fieldP

theorem feReg_congr {m n : Nat} (h : m ≡ n [MOD fieldP]) : feReg m = feReg n :=
  congrArg (fun k => (⟨.fe, BitVec.ofNat 256 k⟩ : Reg)) h

/-- A register with tag FE and a canonical value is the register of its own value. -/
theorem feReg_of_canonical {r : Reg} (htag : r.tag = .fe) (hval : r.val.toNat < fieldP) : feReg r.val.toNat = r := by
  obtain ⟨tag, val⟩ := r
  obtain rfl : tag = .fe := htag
  simp [feReg, Nat.mod_eq_of_lt hval]

/-- Fermat's theorem modulo `P`: a nonzero value times the power that `FINV` computes is one. -/
theorem mul_pow_sub_two_modEq_one {a : Nat} (hpos : 0 < a) (hlt : a < fieldP) :
    a * a ^ (fieldP - 2) ≡ 1 [MOD fieldP] := by
  have hexp : fieldP - 2 + 1 = fieldP - 1 := by
    have := fieldP_prime.two_le
    omega
  rw [← pow_succ', hexp]
  exact Nat.ModEq.pow_card_sub_one_eq_one fieldP_prime (Nat.coprime_of_lt_prime hpos.ne' hlt fieldP_prime).symm

/-- Both readings of bit 255 agree on an integer that has it clear (R101). -/
theorem fieldInput_of_lt {n : Nat} (h : n < 2 ^ 255) (b : TopBit) : fieldInput b n = n := by
  cases b with
  | incl => rfl
  | ignore => exact Nat.mod_eq_of_lt h

theorem State.memRead_eq_of_bytes {s : State} {addr : Nat} {bs : List Byte}
    (h : ∀ k, k < bs.length → s.bufByte (addr + k) = bs.getD k 0) : s.memRead addr bs.length = bs := by
  refine List.ext_getElem (by simp) fun k hk hk' => ?_
  rw [State.memRead_getElem, h k hk', List.getD_eq_getElem _ _ hk']

section
variable {rd ra rb : RegIdx} {addr : Nat} {s t : State}

theorem reg_of_fmul (hra : (s.reg ra).tag = .fe) (hrb : (s.reg rb).tag = .fe) (h : exec (.fmul rd ra rb) s = .next t)
    (r : RegIdx) : t.reg r = if r = rd then feReg (s.valOf ra * s.valOf rb) else s.reg r := by
  obtain rfl := exec_next_of_pass h (by simp [checkOf, hra, hrb])
  simp [effectOf, feReg]

theorem reg_of_finv (hra : (s.reg ra).tag = .fe) (h : exec (.finv rd ra) s = .next t) (r : RegIdx) :
    t.reg r = if r = rd then feReg (s.valOf ra ^ (fieldP - 2)) else s.reg r := by
  obtain rfl := exec_next_of_pass h (by simp [checkOf, hra])
  simp [effectOf, feReg, powMod_eq]

/-- The two have the same effect; only a fault would tell them apart, by the word it latches. -/
theorem exec_fsqr_eq_exec_fmul (hra : (s.reg ra).tag = .fe) (rd : RegIdx) :
    exec (.fsqr rd ra) s = exec (.fmul rd ra ra) s := by
  rw [exec_of_pass (i := .fsqr rd ra) (by simp [checkOf, hra]),
    exec_of_pass (i := .fmul rd ra ra) (by simp [checkOf, hra])]
  rfl

theorem reg_of_fsqr (hra : (s.reg ra).tag = .fe) (h : exec (.fsqr rd ra) s = .next t) (r : RegIdx) :
    t.reg r = if r = rd then feReg (s.valOf ra * s.valOf ra) else s.reg r :=
  reg_of_fmul hra hra (exec_fsqr_eq_exec_fmul hra rd ▸ h) r

theorem reg_of_fld (haddr : addr + 32 ≤ 4096) (h : exec (.fld rd 32 addr) s = .next t) (r : RegIdx) :
    t.reg r = if r = rd then feReg (fieldInput s.cfg.feTopBit (s.readLE addr 32)) else s.reg r := by
  obtain rfl := exec_next_of_pass h (by simp [checkOf, bufSize, haddr])
  simp [effectOf, feReg]

theorem checkOf_fst (haddr : addr + 32 ≤ 4096) (hra : (s.reg ra).tag = .fe) : checkOf (.fst ra 32 addr) s = none := by
  simp [checkOf, bufSize, haddr, hra]

theorem bufByte_of_fst (haddr : addr + 32 ≤ 4096) (hra : (s.reg ra).tag = .fe)
    (h : exec (.fst ra 32 addr) s = .next t) {k : Nat} (hk : k < 32) :
    t.bufByte (addr + k) = (toLE (s.valOf ra) 32).getD k 0 := by
  obtain rfl := exec_next_of_pass h (checkOf_fst haddr hra)
  simp [effectOf, State.memWrite_bufByte_inside, hk]

theorem readLE_of_fst (haddr : addr + 32 ≤ 4096) (hra : (s.reg ra).tag = .fe)
    (h : exec (.fst ra 32 addr) s = .next t) : t.readLE addr 32 = s.valOf ra := by
  have hread : t.memRead addr (toLE (s.valOf ra) 32).length = toLE (s.valOf ra) 32 :=
    State.memRead_eq_of_bytes fun k hk => bufByte_of_fst haddr hra h (by simpa using hk)
  rw [toLE_length] at hread
  rw [State.readLE, hread, leNat_toLE]
  exact Nat.mod_eq_of_lt (s.reg ra).val.isLt

end

end Sys2Proof.Machine
end

section
/-!
The laws of the field (40_field R109).
-/

namespace Sys2Proof.Proofs

open Sys2Proof.Machine

section
variable {ra rd rq : RegIdx} {addr : Nat} {s t u p q v : State}

/-- Law (a), the value: a canonical value is below `2^255`, so the load reads what was stored and reduces nothing. -/
theorem fld_after_fst (haddr : addr + 32 ≤ 4096) (htag : (s.reg ra).tag = .fe) (hval : (s.reg ra).val.toNat < fieldP)
    (hst : exec (.fst ra 32 addr) s = .next t) (hld : exec (.fld rd 32 addr) t = .next u) : u.reg rd = s.reg ra := by
  have hlt : s.valOf ra < 2 ^ 255 := hval.trans (by decide)
  rw [reg_of_fld haddr hld, if_pos rfl, readLE_of_fst haddr htag hst, fieldInput_of_lt hlt]
  exact feReg_of_canonical htag hval

/-- Law (a), the bytes: equal registers are stored as equal bytes. -/
theorem fst_again (haddr : addr + 32 ≤ 4096) (htag : (s.reg ra).tag = .fe) (hst : exec (.fst ra 32 addr) s = .next t)
    (hreg : u.reg rd = s.reg ra) :
    ∃ v : State, exec (.fst rd 32 addr) u = .next v ∧
      ∀ k : Nat, k < 32 → v.bufByte (addr + k) = t.bufByte (addr + k) := by
  have htag' : (u.reg rd).tag = .fe := by rw [hreg, htag]
  have hst' := exec_of_pass (checkOf_fst haddr htag')
  refine ⟨_, hst', fun k hk => ?_⟩
  rw [bufByte_of_fst haddr htag' hst' hk, bufByte_of_fst haddr htag hst hk, State.valOf, State.valOf, hreg]

/-- Law (c): Fermat's theorem on the value that the inversion leaves in place. -/
theorem fmul_after_finv (htag : (s.reg ra).tag = .fe) (hpos : 0 < (s.reg ra).val.toNat)
    (hval : (s.reg ra).val.toNat < fieldP) (hne : rd ≠ ra) (hinv : exec (.finv rd ra) s = .next t)
    (hmul : exec (.fmul rq ra rd) t = .next u) : u.reg rq = ⟨.fe, 1⟩ := by
  have hra : t.reg ra = s.reg ra := by rw [reg_of_finv htag hinv, if_neg hne.symm]
  have hrd : t.reg rd = feReg (s.valOf ra ^ (fieldP - 2)) := by rw [reg_of_finv htag hinv, if_pos rfl]
  have hone : t.valOf ra * t.valOf rd ≡ 1 [MOD fieldP] := by
    rw [State.valOf, hra]
    exact ((State.valOf_modEq_of_reg hrd).mul_left _).trans (mul_pow_sub_two_modEq_one hpos hval)
  rw [reg_of_fmul (by rw [hra, htag]) (by rw [hrd, feReg_tag]) hmul, if_pos rfl]
  exact feReg_congr hone

/-- Two squarings write the residue of the fourth power. -/
theorem fsqr_after_fsqr (htag : (s.reg ra).tag = .fe) (hsqr : exec (.fsqr rd ra) s = .next t)
    (hsqr' : exec (.fsqr rd rd) t = .next u) : u.reg rd = feReg (s.valOf ra ^ 4) := by
  have hrd : t.reg rd = feReg (s.valOf ra * s.valOf ra) := by rw [reg_of_fsqr htag hsqr, if_pos rfl]
  have hval : t.valOf rd ≡ s.valOf ra * s.valOf ra [MOD fieldP] := State.valOf_modEq_of_reg hrd
  rw [reg_of_fsqr (by rw [hrd, feReg_tag]) hsqr', if_pos rfl]
  exact feReg_congr ((hval.mul hval).trans (congrArg (· % fieldP) (by ring)))

/-- One more factor: from the residue of a power of the value in `ra`, the product writes that of the next power. -/
theorem fmul_next_power {r : Reg} {n : Nat} (hne : rq ≠ ra) (htag : r.tag = .fe) (hra : s.reg ra = r)
    (hrq : s.reg rq = feReg (r.val.toNat ^ n)) (hmul : exec (.fmul rq rq ra) s = .next t) :
    t.reg ra = r ∧ t.reg rq = feReg (r.val.toNat ^ (n + 1)) := by
  have hreg := reg_of_fmul (by rw [hrq, feReg_tag]) (by rw [hra, htag]) hmul
  have hval : s.valOf rq ≡ r.val.toNat ^ n [MOD fieldP] := State.valOf_modEq_of_reg hrq
  have hvra : s.valOf ra = r.val.toNat := by rw [State.valOf, hra]
  refine ⟨by rw [hreg, if_neg hne.symm, hra], ?_⟩
  rw [hreg, if_pos rfl, hvra, pow_succ]
  exact feReg_congr (hval.mul_right _)

/-- The three products write the residue of the fourth power. -/
theorem fmul_fourth_power (hne : rq ≠ ra) (htag : (s.reg ra).tag = .fe) (hp : exec (.fmul rq ra ra) s = .next p)
    (hq : exec (.fmul rq rq ra) p = .next q) (hv : exec (.fmul rq rq ra) q = .next v) :
    v.reg rq = feReg (s.valOf ra ^ 4) := by
  have hpra : p.reg ra = s.reg ra := by rw [reg_of_fmul htag htag hp, if_neg hne.symm]
  have hprq : p.reg rq = feReg (s.valOf ra ^ 2) := by rw [reg_of_fmul htag htag hp, if_pos rfl, pow_two]
  obtain ⟨hqra, hqrq⟩ := fmul_next_power hne htag hpra hprq hq
  obtain ⟨-, hvrq⟩ := fmul_next_power hne htag hqra hqrq hv
  exact hvrq

end

/-- Settles O49: law (a) by reading back the bytes stored, (b) since the two commands have one effect, (c) by Fermat's
theorem, (d) since both sequences write the residue of the fourth power. -/
theorem fieldLaws : Obligations.FieldLaws := by
  refine ⟨fun ra rd addr s t u haddr htag hval hst hld => ?_, fun ra rd s => ?_,
    fun ra rd rq s t u htag hpos hval hne hinv hmul => fmul_after_finv htag hpos hval hne hinv hmul,
    fun ra rd rq s t u p q v htag _ hne hsqr hsqr' hp hq hv => ?_⟩
  · have hreg := fld_after_fst haddr htag hval hst hld
    exact ⟨hreg, fst_again haddr htag hst hreg⟩
  · by_cases htag : (s.reg ra).tag = .fe
    · exact .inl (exec_fsqr_eq_exec_fmul htag rd)
    · exact .inr htag
  · exact (fsqr_after_fsqr htag hsqr hsqr').trans (fmul_fourth_power hne htag hp hq hv).symm

end Sys2Proof.Proofs
end

section
/-!
SUPPORT. The rules of the select and compare commands (41_select_compare R121 to R123): what `decode` asks of a word with
`SETC`'s opcode, the checks and effects of `CEQ` and `CSEL` on sources of one tag, and the bookkeeping of a completed
command.
-/

namespace Sys2Proof

/-- A word with the opcode of `SETC` is read in format I, whatever its other bits (R76). -/
theorem decode_of_opcode_setc {w : Word} (hop : opcodeOf w = 0x32) : decode w = decodeI w .setc := by
  simp only [decode, hop]

end Sys2Proof

namespace Sys2Proof.Machine

open Sys2Proof.Claims

/-- Whatever its effect, a completed command is counted and frees its slot, and the rest of the bookkeeping stays as it
was (20_memory R60). -/
theorem retire_retired (i : Instr) (s : State) : Retired s (effectOf i s).retire := by
  obtain ⟨hfault, hcause, hfaultcmd, hie, hcnt, -, hcfg, hlaunch, hhost, hreads⟩ := effectOf_frame i s
  exact ⟨congrArg (· + 1) hcnt, rfl, hfault, hcause, hfaultcmd, hie, hcfg, hlaunch, hhost, hreads⟩

section
variable {s : State} {ra rb : RegIdx}

theorem State.needSame_of_sameTag (hra : (s.reg ra).tag ≠ .empty) (hrb : (s.reg rb).tag = (s.reg ra).tag) :
    s.needSame ra rb = none :=
  (needSame_eq_none s ra rb).mpr ⟨⟨hra, hrb ▸ hra⟩, hrb⟩

/-- `CSEL` writes the tag of `ra` in both cases; on sources of one tag it copies a whole register (R122). -/
theorem State.selected_of_sameTag (hrb : (s.reg rb).tag = (s.reg ra).tag) :
    s.selected ra rb = if s.c then s.reg rb else s.reg ra := by
  unfold State.selected
  split
  · rw [← hrb]
  · rfl

theorem exec_ceq_of_sameTag (hra : (s.reg ra).tag ≠ .empty) (hrb : (s.reg rb).tag = (s.reg ra).tag) :
    exec (.ceq ra rb) s = .next (s.setC (s.compareFlag ra rb)).retire :=
  exec_of_pass (State.needSame_of_sameTag hra hrb)

theorem exec_csel_of_sameTag (rd : RegIdx) (hra : (s.reg ra).tag ≠ .empty) (hrb : (s.reg rb).tag = (s.reg ra).tag) :
    exec (.csel rd ra rb) s = .next (s.setReg rd (if s.c then s.reg rb else s.reg ra)).retire := by
  rw [← State.selected_of_sameTag hrb]
  exact exec_of_pass (State.needSame_of_sameTag hra hrb)

theorem exec_setc (b : Bool) (s : State) : exec (.setc b) s = .next (s.setC b).retire := exec_of_pass rfl

end

end Sys2Proof.Machine
end

section
/-!
Select and compare (41_select_compare R123, R124).
-/

namespace Sys2Proof.Proofs

open Sys2Proof.Machine Sys2Proof.Claims

/-- Settles O47: the two words by evaluation; a word with `SETC`'s opcode decodes only if its bits 23:1 are zero; the
command has no check, so it completes from every state. -/
theorem setcSetsFlag : Obligations.SetcSetsFlag := by
  refine ⟨by decide, fun w hop hbits i hd => ?_, fun b s => ?_⟩
  · rw [decode_of_opcode_setc (congrArg BitVec.toNat hop)] at hd
    obtain ⟨hzero, -⟩ := needZero_eq_ok.mp hd
    exact hbits (extract_of_fieldAt hzero)
  · exact ⟨_, exec_setc b s, rfl, fun _ => rfl, fun _ => rfl, retire_retired (.setc b) s⟩

/-- Settles O48: `CEQ` leaves the registers, so `CSEL` finds its sources as they were and selects by the comparison. -/
theorem compareThenSelect : Obligations.CompareThenSelect := by
  intro ra rb rc re rd s hra hrb hrc hre
  refine ⟨_, _, exec_ceq_of_sameTag hra hrb, exec_csel_of_sameTag rd hrc hre, fun heq => ?_, fun hne => ?_⟩
  · simp [State.compareFlag, heq]
  · simp [State.compareFlag, hne]

end Sys2Proof.Proofs
end

section
/-!
SUPPORT. The scalar commands compute on the integers that their operands represent (42_scalar R130 to R137): a register
with tag `SM` stands for the integer that it is the Montgomery form of, `MMUL` and `MINV` multiply and invert those
integers, `SUNPACK` and `SPACK` enter and leave the form. A load of zero bytes above others loads the others (20_memory
R52).
-/

namespace Sys2Proof.Machine

/-- The register that holds the residue of an integer modulo `ELL`, as the scalar commands write it (42_scalar R130). -/
def scReg (c : Config) (t : Tag) (n : Nat) : Reg := ⟨t, BitVec.ofNat 256 (n % c.ell)⟩

/-- The register has tag `SM` and is the Montgomery form of `x`, up to residue modulo `ELL` (R130). -/
structure Reg.Represents (c : Config) (r : Reg) (x : Nat) : Prop where
  tag_eq : r.tag = .sm
  val_modEq : r.val.toNat ≡ x * c.montR [MOD c.ell]

section
variable {c : Config}

@[simp] theorem scReg_tag (t : Tag) (n : Nat) : (scReg c t n).tag = t := rfl

theorem scReg_val_toNat (hwf : c.WF) (t : Tag) (n : Nat) : (scReg c t n).val.toNat = n % c.ell :=
  ofNat_val_toNat (Nat.mod_lt _ (wf_ell_pos hwf)) (wf_ell_lt hwf).le

theorem scReg_congr {m n : Nat} (h : m ≡ n [MOD c.ell]) (t : Tag) : scReg c t m = scReg c t n :=
  congrArg (fun k => (⟨t, BitVec.ofNat 256 k⟩ : Reg)) h

/-- A register with a canonical value is the register of its own value. -/
theorem scReg_of_canonical {r : Reg} (hval : r.val.toNat < c.ell) : scReg c r.tag r.val.toNat = r := by
  simp [scReg, Nat.mod_eq_of_lt hval]

/-! ### The Montgomery form -/

theorem mul_montR_mul_rinv (hwf : c.WF) (n : Nat) : n * c.montR * rinv c ≡ n [MOD c.ell] := by
  have hone : rinv c * c.montR ≡ 1 [MOD c.ell] := (rinv_mul hwf).trans (Nat.mod_eq_of_lt (wf_one_lt_ell hwf)).symm
  rw [mul_assoc, mul_comm c.montR]
  simpa using hone.mul_left n

theorem scReg_represents (hwf : c.WF) {n x : Nat} (h : n ≡ x * c.montR [MOD c.ell]) : (scReg c .sm n).Represents c x :=
  ⟨rfl, by rw [scReg_val_toNat hwf]; exact (Nat.mod_modEq n c.ell).trans h⟩

/-- Every register with tag `SM` represents the integer that `SPACK` writes. -/
theorem represents_of_tag_sm (hwf : c.WF) {r : Reg} (htag : r.tag = .sm) : r.Represents c (r.val.toNat * rinv c) :=
  ⟨htag, by rw [mul_right_comm]; exact (mul_montR_mul_rinv hwf _).symm⟩

theorem Reg.Represents.fromMont {r : Reg} {x : Nat} (h : r.Represents c x) (hwf : c.WF) :
    r.val.toNat * rinv c ≡ x [MOD c.ell] :=
  (h.val_modEq.mul_right _).trans (mul_montR_mul_rinv hwf x)

/-- The Montgomery product is the Montgomery form of the product of the represented integers. -/
theorem Reg.Represents.montMul {r r' : Reg} {x y : Nat} (h : r.Represents c x) (h' : r'.Represents c y) (hwf : c.WF) :
    r.val.toNat * r'.val.toNat * rinv c ≡ x * y * c.montR [MOD c.ell] :=
  calc r.val.toNat * r'.val.toNat * rinv c
    _ = r.val.toNat * rinv c * r'.val.toNat := by ring
    _ ≡ x * (y * c.montR) [MOD c.ell] := (h.fromMont hwf).mul h'.val_modEq
    _ = x * y * c.montR := by ring

/-- Fermat's theorem modulo a prime: a nonzero value times the power that `MINV` computes is one. -/
theorem mul_pow_sub_two_modEq_one_of_prime {p a : Nat} (hp : p.Prime) (hpos : 0 < a) (hlt : a < p) :
    a * a ^ (p - 2) ≡ 1 [MOD p] := by
  have hexp : p - 2 + 1 = p - 1 := by
    have := hp.two_le
    omega
  rw [← pow_succ', hexp]
  exact Nat.ModEq.pow_card_sub_one_eq_one hp (Nat.coprime_of_lt_prime hpos.ne' hlt hp).symm

end

/-! ### The commands -/

/-- Bytes that are zero above the others add nothing to the integer read (R52). -/
theorem State.readLE_add_of_zeros {s : State} {addr m n : Nat} (h : ∀ k, k < n → s.bufByte (addr + m + k) = 0) :
    s.readLE addr (m + n) = s.readLE addr m := by
  have hzero : ∑ k ∈ Finset.range n, (s.bufByte (addr + (m + k))).toNat * 256 ^ (m + k) = 0 := by
    refine Finset.sum_eq_zero fun k hk => ?_
    rw [← Nat.add_assoc, h k (Finset.mem_range.mp hk)]
    exact Nat.zero_mul _
  rw [State.readLE_eq_sum, State.readLE_eq_sum, Finset.sum_range_add, hzero, Nat.add_zero]

/-- No command changes the configuration, with a fault or without (00_scope R5). -/
theorem exec_keeps_cfg {i : Instr} {s t : State} (h : exec i s = .next t) : t.cfg = s.cfg := by
  obtain ⟨k, -, rfl⟩ | ⟨-, rfl⟩ := exec_next_cases h
  · rfl
  · obtain ⟨-, -, -, -, -, -, hcfg, -⟩ := effectOf_frame i s
    exact hcfg

section
variable {rd ra rb : RegIdx} {addr len : Nat} {s t : State} {x y : Nat}

theorem reg_of_sld (hlen : len ∈ [32, 64]) (haddr : addr + len ≤ 4096) (h : exec (.sld rd len addr) s = .next t) :
    t.reg rd = scReg s.cfg .sp (s.readLE addr len) := by
  obtain rfl := exec_next_of_pass h ((bufCheck_eq_none ..).mpr ⟨hlen, haddr⟩)
  simp [effectOf, scReg]

theorem reg_of_sunpack (hra : (s.reg ra).tag = .sp) (h : exec (.sunpack rd ra) s = .next t) :
    t.reg rd = scReg s.cfg .sm (s.valOf ra * s.cfg.montR) := by
  obtain rfl := exec_next_of_pass h (by simp [checkOf, hra])
  simp [effectOf, scReg, toMont]

theorem reg_of_spack (hra : (s.reg ra).tag = .sm) (h : exec (.spack rd ra) s = .next t) :
    t.reg rd = scReg s.cfg .sp (s.valOf ra * rinv s.cfg) := by
  obtain rfl := exec_next_of_pass h (by simp [checkOf, hra])
  simp [effectOf, scReg, fromMont]

theorem reg_of_mmul (hra : (s.reg ra).tag = .sm) (hrb : (s.reg rb).tag = .sm) (h : exec (.mmul rd ra rb) s = .next t) :
    t.reg rd = scReg s.cfg .sm (s.valOf ra * s.valOf rb * rinv s.cfg) := by
  obtain rfl := exec_next_of_pass h (by simp [checkOf, hra, hrb])
  simp [effectOf, scReg, montMul]

theorem reg_of_minv (hra : (s.reg ra).tag = .sm) (h : exec (.minv rd ra) s = .next t) (r : RegIdx) :
    t.reg r =
      if r = rd then scReg s.cfg .sm ((s.valOf ra * rinv s.cfg) ^ (s.cfg.ell - 2) * s.cfg.montR) else s.reg r := by
  obtain rfl := exec_next_of_pass h (by simp [checkOf, hra])
  simp [effectOf, scReg, montInv, toMont, fromMont, powMod_eq, ← Nat.pow_mod]

/-! The same commands on represented integers, in a run under one configuration. -/

section
variable {c : Config} (hwf : c.WF) (hc : s.cfg = c)
include hwf hc

theorem represents_of_sunpack (hra : (s.reg ra).tag = .sp) (h : exec (.sunpack rd ra) s = .next t) :
    (t.reg rd).Represents c (s.valOf ra) := by
  subst hc
  rw [reg_of_sunpack hra h]
  exact scReg_represents hwf rfl

theorem represents_of_mmul (hra : (s.reg ra).Represents c x) (hrb : (s.reg rb).Represents c y)
    (h : exec (.mmul rd ra rb) s = .next t) : (t.reg rd).Represents c (x * y) := by
  subst hc
  rw [reg_of_mmul hra.tag_eq hrb.tag_eq h]
  exact scReg_represents hwf (hra.montMul hrb hwf)

theorem represents_of_minv (hra : (s.reg ra).Represents c x) (h : exec (.minv rd ra) s = .next t) :
    (t.reg rd).Represents c (x ^ (c.ell - 2)) := by
  subst hc
  rw [reg_of_minv hra.tag_eq h, if_pos rfl]
  exact scReg_represents hwf (((hra.fromMont hwf).pow _).mul_right _)

theorem reg_of_spack_of_represents (hra : (s.reg ra).Represents c x) (h : exec (.spack rd ra) s = .next t) :
    t.reg rd = scReg c .sp x := by
  subst hc
  rw [reg_of_spack hra.tag_eq h]
  exact scReg_congr (hra.fromMont hwf) .sp

end

end

end Sys2Proof.Machine
end

section
/-!
The laws of the scalars (42_scalar R139).
-/

namespace Sys2Proof.Proofs

open Sys2Proof.Machine

section
variable {ra rb rd rq : RegIdx} {addr : Nat} {s t u v w ta tb : State}

/-- Law (a): `SPACK` writes the integer that `SUNPACK` made the Montgomery form of. -/
theorem spack_after_sunpack (hwf : s.cfg.WF) (htag : (s.reg ra).tag = .sp) (hval : (s.reg ra).val.toNat < s.cfg.ell)
    (hunpack : exec (.sunpack rd ra) s = .next t) (hpack : exec (.spack rq rd) t = .next u) : u.reg rq = s.reg ra := by
  have hrd : (t.reg rd).Represents s.cfg (s.valOf ra) := represents_of_sunpack hwf rfl htag hunpack
  rw [reg_of_spack_of_represents hwf (exec_keeps_cfg hunpack) hrd hpack, ← htag]
  exact scReg_of_canonical hval

/-- Law (b): each operand represents the integer that `SPACK` writes for it. -/
theorem mmul_eq_form_of_packed_product (hwf : s.cfg.WF) (hra : (s.reg ra).tag = .sm) (hrb : (s.reg rb).tag = .sm)
    (hmul : exec (.mmul rd ra rb) s = .next t) (ha : exec (.spack rd ra) s = .next ta)
    (hb : exec (.spack rd rb) s = .next tb) :
    (t.reg rd).val.toNat =
      (ta.reg rd).val.toNat * (tb.reg rd).val.toNat % s.cfg.ell * s.cfg.montR % s.cfg.ell := by
  have hprod := (represents_of_tag_sm hwf hra).montMul (represents_of_tag_sm hwf hrb) hwf
  have hpacked := (Nat.mod_modEq (s.valOf ra * rinv s.cfg) s.cfg.ell).mul
    (Nat.mod_modEq (s.valOf rb * rinv s.cfg) s.cfg.ell)
  rw [reg_of_mmul hra hrb hmul, reg_of_spack hra ha, reg_of_spack hrb hb]
  simp only [scReg_val_toNat hwf]
  rw [Nat.mod_mul_mod]
  exact hprod.trans (hpacked.mul_right _).symm

/-- Law (c): the product represents `x · x^(ℓ−2)`, which is one by Fermat's theorem. -/
theorem spack_of_mmul_minv (hwf : s.cfg.WF) (hprime : Nat.Prime s.cfg.ell) (htag : (s.reg ra).tag = .sp)
    (hpos : 0 < (s.reg ra).val.toNat) (hval : (s.reg ra).val.toNat < s.cfg.ell) (hne : rq ≠ rd)
    (hunpack : exec (.sunpack rd ra) s = .next t) (hinv : exec (.minv rq rd) t = .next u)
    (hmul : exec (.mmul rq rd rq) u = .next v) (hpack : exec (.spack rq rq) v = .next w) : w.reg rq = ⟨.sp, 1⟩ := by
  have ht : t.cfg = s.cfg := exec_keeps_cfg hunpack
  have hu : u.cfg = s.cfg := (exec_keeps_cfg hinv).trans ht
  have hv : v.cfg = s.cfg := (exec_keeps_cfg hmul).trans hu
  have htrd : (t.reg rd).Represents s.cfg (s.valOf ra) := represents_of_sunpack hwf rfl htag hunpack
  have hurd : u.reg rd = t.reg rd := by rw [reg_of_minv htrd.tag_eq hinv, if_neg hne.symm]
  have hurq : (u.reg rq).Represents s.cfg (s.valOf ra ^ (s.cfg.ell - 2)) := represents_of_minv hwf ht htrd hinv
  have hvrq : (v.reg rq).Represents s.cfg (s.valOf ra * s.valOf ra ^ (s.cfg.ell - 2)) :=
    represents_of_mmul hwf hu (hurd ▸ htrd) hurq hmul
  have hone : s.valOf ra * s.valOf ra ^ (s.cfg.ell - 2) ≡ 1 [MOD s.cfg.ell] :=
    mul_pow_sub_two_modEq_one_of_prime hprime hpos hval
  rw [reg_of_spack_of_represents hwf hv hvrq hpack, scReg_congr hone .sp]
  exact scReg_of_canonical (r := ⟨.sp, 1⟩) (wf_one_lt_ell hwf)

/-- Law (d). -/
theorem sld_of_high_zeros (haddr : addr + 64 ≤ 4096) (hzero : ∀ k : Nat, k < 32 → s.bufByte (addr + 32 + k) = 0)
    (hlong : exec (.sld rd 64 addr) s = .next t) (hshort : exec (.sld rd 32 addr) s = .next u) :
    t.reg rd = u.reg rd := by
  have hread : s.readLE addr 64 = s.readLE addr 32 := State.readLE_add_of_zeros (m := 32) (n := 32) hzero
  rw [reg_of_sld (by simp) haddr hlong, reg_of_sld (by simp) (by omega) hshort, hread]

end

/-- Settles O50: laws (a) to (c) on the integers that the registers with tag `SM` represent, (c) by Fermat's theorem;
law (d) since zero bytes above the others add nothing to the integer read. -/
theorem scalarLaws : Obligations.ScalarLaws :=
  ⟨fun _ _ _ _ _ _ hwf htag hval hunpack hpack => spack_after_sunpack hwf htag hval hunpack hpack,
    fun _ _ _ _ _ _ _ hwf hra hrb hmul ha hb => mmul_eq_form_of_packed_product hwf hra hrb hmul ha hb,
    fun _ _ _ _ _ _ _ _ hwf hprime htag hpos hval hne hunpack hinv hmul hpack =>
      spack_of_mmul_minv hwf hprime htag hpos hval hne hunpack hinv hmul hpack,
    fun _ _ _ _ _ _ haddr hzero hlong hshort => sld_of_high_zeros haddr hzero hlong hshort⟩

end Sys2Proof.Proofs
end

section
/-!
SUPPORT. The checks of one command in their order (30_encoding R77 steps 2 to 5, 60_exceptions R189): the fields of the
format, then the tags of all the sources; and the step that completes a pending word by what they come out as.
-/

namespace Sys2Proof.Machine

open Sys2Proof.Claims

/-! ### The check of the tags -/

theorem needAll_of_empty {tags : List (Tag × Tag)} (h : ∃ t ∈ tags, t.1 = .empty) : needAll tags = some .emptyReg := by
  have hany : tags.any (fun t => t.1 == .empty) = true := by simpa using h
  rw [needAll, if_pos hany]

theorem needAll_of_nonempty {tags : List (Tag × Tag)} (h : ∀ t ∈ tags, t.1 ≠ .empty) :
    needAll tags = if ∀ t ∈ tags, t.1 = t.2 then none else some .domain := by
  have hany : ¬ tags.any (fun t => t.1 == .empty) = true := by
    rw [List.any_eq_true]
    rintro ⟨t, ht, hempty⟩
    exact h t ht (beq_iff_eq.mp hempty)
  rw [needAll, if_neg hany]
  by_cases hall : ∀ t ∈ tags, t.1 = t.2
  · rw [if_pos hall, if_neg (by simpa using hall)]
  · rw [if_neg hall, if_pos (by simpa using hall)]

/-- The tag that every source of a command is to have: the one of R24's table or, for `CEQ` and `CSEL`, the tag of the
first source. -/
def wantedTag (i : Instr) (s : State) : Tag :=
  (requiredTag i).getD ((sources i).head?.elim .empty fun r => (s.reg r).tag)

/-- The tags of the sources of a command, each with the tag it is to have. -/
def sourceTags (i : Instr) (s : State) : List (Tag × Tag) :=
  (sources i).map fun r => ((s.reg r).tag, wantedTag i s)

/-- All elements have one image exactly when each has the first one's. -/
theorem forall_pair_iff_forall_head {α β : Type} (f : α → β) (b : β) (l : List α) :
    (∀ x ∈ l, ∀ y ∈ l, f x = f y) ↔ ∀ x ∈ l, f x = l.head?.elim b f := by
  cases l with
  | nil => simp
  | cons a l => exact ⟨fun h x hx => h x hx a List.mem_cons_self, fun h x hx y hy => (h x hx).trans (h y hy).symm⟩

theorem tagsAgree_iff (i : Instr) (s : State) : tagsAgree i s ↔ ∀ t ∈ sourceTags i s, t.1 = t.2 := by
  unfold tagsAgree sourceTags wantedTag
  rw [List.forall_mem_map]
  cases requiredTag i with
  | some t => exact Iff.rfl
  | none => exact forall_pair_iff_forall_head _ _ _

/-! ### The checks of a command -/

/-- The checks on the fields of the word alone, of length and of range: only format M has them. -/
def formatCheck (i : Instr) : Option Cause :=
  (legalLens i).bind fun legal => bufCheck bufSize legal (lenAddr i).1 (lenAddr i).2

/-- The checks of a command are those of its format, then those of its sources. -/
theorem checkOf_eq (i : Instr) (s : State) : checkOf i s = (formatCheck i).or (needAll (sourceTags i s)) := by
  cases i
  case fld | sld => exact Option.or_none.symm
  all_goals rfl

theorem checkOf_of_formatCheck {i : Instr} {k : Cause} (h : formatCheck i = some k) (s : State) :
    checkOf i s = some k := by
  rw [checkOf_eq, h]
  rfl

section
variable {i : Instr} {legal : List Nat}

theorem checkOf_badLength (h : legalLens i = some legal) (hlen : (lenAddr i).1 ∉ legal) (s : State) :
    checkOf i s = some .badLength :=
  checkOf_of_formatCheck (by rw [formatCheck, h]; exact bufCheck_badLength _ _ hlen) s

theorem checkOf_bufRange (h : legalLens i = some legal) (hlen : (lenAddr i).1 ∈ legal)
    (hrange : bufSize < (lenAddr i).2 + (lenAddr i).1) (s : State) : checkOf i s = some .bufRange :=
  checkOf_of_formatCheck (by rw [formatCheck, h]; exact bufCheck_bufRange hlen hrange) s

/-- The two checks of the format pass. -/
theorem formatCheck_eq_none_iff : formatCheck i = none ↔
    ∀ legal, legalLens i = some legal → (lenAddr i).1 ∈ legal ∧ (lenAddr i).2 + (lenAddr i).1 ≤ bufSize := by
  simp [formatCheck, Option.bind_eq_none_iff]

variable {s : State}

theorem checkOf_emptyReg (hformat : formatCheck i = none) (hempty : ∃ r ∈ sources i, (s.reg r).tag = .empty) :
    checkOf i s = some .emptyReg := by
  obtain ⟨r, hr, htag⟩ := hempty
  rw [checkOf_eq, hformat]
  exact needAll_of_empty ⟨_, List.mem_map_of_mem hr, htag⟩

/-- With no `EMPTY` source the last check left is that of the domain. -/
theorem checkOf_of_nonempty (hformat : formatCheck i = none) (hfull : ∀ r ∈ sources i, (s.reg r).tag ≠ .empty) :
    checkOf i s = if ∀ t ∈ sourceTags i s, t.1 = t.2 then none else some .domain := by
  rw [checkOf_eq, hformat]
  exact needAll_of_nonempty (List.forall_mem_map.mpr hfull)

theorem checkOf_domain (hformat : formatCheck i = none) (hfull : ∀ r ∈ sources i, (s.reg r).tag ≠ .empty)
    (hdiffer : ¬ tagsAgree i s) : checkOf i s = some .domain :=
  (checkOf_of_nonempty hformat hfull).trans (if_neg (mt (tagsAgree_iff i s).mpr hdiffer))

theorem checkOf_eq_none (hformat : formatCheck i = none) (hfull : ∀ r ∈ sources i, (s.reg r).tag ≠ .empty)
    (hagree : tagsAgree i s) : checkOf i s = none :=
  (checkOf_of_nonempty hformat hfull).trans (if_pos ((tagsAgree_iff i s).mp hagree))

end

/-! ### The step that completes a word -/

section
variable {s : State} {w : Word}

theorem step_completes (hh : s.host = []) (hp : s.pend = some w) : step s = completeWord w s :=
  (step_of_host_nil hh).trans (coreStep_pending hp)

theorem completeWord_error {e : DecodeError} (h : decode w = .error e) (s : State) :
    completeWord w s = .next (latched .illegal w s) := by
  rw [completeWord, h]
  rfl

variable {i : Instr}

/-- The failing check is latched with the word itself, which is what its command encodes to (60_exceptions R186). -/
theorem completeWord_of_fault {k : Cause} (hd : decode w = .ok i) (hc : checkOf i s = some k) :
    completeWord w s = .next (latched k w s) := by
  rw [completeWord_ok hd, exec_of_fault hc, encode_of_decode hd]
  rfl

theorem completeWord_of_pass (hd : decode w = .ok i) (hc : checkOf i s = none) :
    ∃ t, completeWord w s = .next t ∧ Retired s t :=
  ⟨_, (completeWord_ok hd s).trans (exec_of_pass hc), retire_retired i s⟩

/-- A decoded word does not latch `ILLEGAL`: its checks raise the four other causes, and a command that passes them
leaves the latch alone (60_exceptions R182). -/
theorem completeWord_cause_ne_illegal (hd : decode w = .ok i) (hs : s.cause ≠ .illegal) :
    ∃ t, completeWord w s = .next t ∧ t.cause ≠ .illegal := by
  cases hc : checkOf i s with
  | some k =>
    refine ⟨_, completeWord_of_fault hd hc, ?_⟩
    rintro (rfl : k = .illegal)
    simpa using checkOf_cause hc
  | none =>
    obtain ⟨t, hnext, -, -, -, hcause, -⟩ := completeWord_of_pass hd hc
    exact ⟨t, hnext, hcause ▸ hs⟩

end

end Sys2Proof.Machine

namespace Sys2Proof.Laws

/-- A word that no row selects is refused by the decoder (30_encoding R75). -/
theorem decode_error_of_no_row {w : Word} (h : ∀ row ∈ opTable, w &&& row.mask ≠ row.pattern) :
    ∃ e, decode w = .error e := by
  cases hd : decode w with
  | error e => exact ⟨e, rfl⟩
  | ok i =>
    obtain ⟨row, hrow, -, hsel⟩ := selects_of_decode hd
    exact absurd hsel (h row hrow)

end Sys2Proof.Laws
end

section
/-!
The faults of one command word (60_exceptions R182, R189).
-/

namespace Sys2Proof.Proofs

open Sys2Proof.Laws Sys2Proof.Machine Sys2Proof.Claims

/-- Settles O10: a word that no row selects does not decode, and latches `ILLEGAL`; one that a row selects decodes, and
nothing after the decoder raises `ILLEGAL`. -/
theorem illegalExactlyWhenNoRowMatches : Obligations.IllegalExactlyWhenNoRowMatches := by
  intro s w hh hp _ hcause
  rw [step_completes hh hp]
  refine ⟨fun hnone => ?_, fun ⟨row, hrow, hsel⟩ => ?_⟩
  · obtain ⟨e, hd⟩ := decode_error_of_no_row hnone
    exact completeWord_error hd s
  · obtain ⟨i, hd⟩ := decode_ok_of_selects hrow hsel
    exact completeWord_cause_ne_illegal hd (by simp [hcause])

/-- Settles O22: an undecodable word latches `ILLEGAL`; for a command each condition of the order fixes what its checks
come out as, and so how the word completes. -/
theorem faultPriority : Obligations.FaultPriority := by
  intro s w hh hp
  rw [step_completes hh hp]
  refine ⟨fun e hd => completeWord_error hd s, fun i hd => ⟨?_, ?_, fun hfields => ?_⟩⟩
  · intro legal hlegal hlen
    exact completeWord_of_fault hd (checkOf_badLength hlegal hlen s)
  · intro legal hlegal hlen hrange
    exact completeWord_of_fault hd (checkOf_bufRange hlegal hlen hrange s)
  · have hformat : formatCheck i = none := formatCheck_eq_none_iff.mpr hfields
    refine ⟨fun hempty => ?_, fun hfull hdiffer => ?_, fun hfull hagree => ?_⟩
    · exact completeWord_of_fault hd (checkOf_emptyReg hformat hempty)
    · exact completeWord_of_fault hd (checkOf_domain hformat hfull hdiffer)
    · exact completeWord_of_pass hd (checkOf_eq_none hformat hfull hagree)

end Sys2Proof.Proofs
end

section
/-!
SUPPORT. What clears `FAULT` (60_exceptions R193, 70_reset_and_hazards R211): the resets of the host, and neither
another act of the host nor the core.
-/

namespace Sys2Proof.Machine

theorem portOutcome_eq_next_iff {off : Nat} {r : Option State} {t : State} :
    portOutcome off r = .next t ↔ r = some t := by
  cases r with
  | some u => simp [portOutcome]
  | none =>
    simp only [portOutcome, noTransaction]
    split <;> simp

/-- `CTRL` is at offset 0x0008 and nowhere else (10_state R33). -/
theorem target32_eq_ctrl_iff {off : Nat} : target32 off = .ctrl ↔ off = 0x0008 := by
  refine ⟨fun h => ?_, fun h => h ▸ rfl⟩
  unfold target32 at h
  split_ifs at h
  assumption

/-- The acts of the host that reset: `rst`, and a write to `CTRL` with bit 1 set. -/
theorem HostAct.isReset_iff (a : HostAct) :
    a.isReset = true ↔ a = .hardReset ∨ ∃ w, a = .write32 0x0008 w ∧ w.getLsbD 1 = true := by
  cases a with
  | write32 off w => simp [HostAct.isReset, target32_eq_ctrl_iff, and_assoc]
  | _ => simp [HostAct.isReset]

/-! ### `FAULT` after an act of the host -/

section
variable {s t : State}

theorem State.writeCmd_fault (s : State) (w : Word) : (s.writeCmd w).fault = s.fault := by
  unfold State.writeCmd
  split <;> rfl

theorem State.writeCtrl_of_srst {w : Word} (h : w.getLsbD 1 = true) (s : State) : s.writeCtrl w = s.softReset :=
  if_pos h

theorem State.writeCtrl_fault {w : Word} (h : w.getLsbD 1 = false) (s : State) : (s.writeCtrl w).fault = s.fault := by
  rw [State.writeCtrl, h]
  rfl

theorem State.writeWord_fault {w : Word} {tgt : Target} (h : s.writeWord w tgt = some t)
    (hr : tgt = .ctrl → w.getLsbD 1 = false) : t.fault = s.fault := by
  cases tgt
  case unlisted | outside => cases h
  case cmd => exact Option.some.inj h ▸ s.writeCmd_fault w
  case ctrl => exact Option.some.inj h ▸ s.writeCtrl_fault (hr rfl)
  all_goals exact Option.some.inj h ▸ rfl

theorem State.writeByte_fault {b : Byte} {tgt : Target} (h : s.writeByte b tgt = some t) : t.fault = s.fault := by
  cases tgt
  case buf | unmapped => exact Option.some.inj h ▸ rfl
  all_goals cases h

theorem State.map_answer_fault {r : Option Word} (h : r.map s.answer = some t) : t.fault = s.fault := by
  obtain ⟨v, -, rfl⟩ := Option.map_eq_some_iff.mp h
  rfl

/-- An act of the host that is no reset leaves `FAULT` as it is. -/
theorem hostAct_fault {a : HostAct} (h : hostAct a s = .next t) (hr : a.isReset = false) : t.fault = s.fault := by
  cases a with
  | idle => exact Host.Outcome.next.inj h ▸ rfl
  | hardReset => cases hr
  | read32 off => exact State.map_answer_fault (portOutcome_eq_next_iff.mp h)
  | read8 off => exact State.map_answer_fault (portOutcome_eq_next_iff.mp h)
  | write8 off b => exact State.writeByte_fault (portOutcome_eq_next_iff.mp h)
  | write32 off w =>
    refine State.writeWord_fault (portOutcome_eq_next_iff.mp h) fun hctrl => ?_
    simpa [HostAct.isReset, hctrl] using hr

/-! ### `FAULT` after the core's step -/

theorem State.coreTurn_fault (s : State) : s.coreTurn.fault = s.fault := by
  unfold State.coreTurn
  split <;> rfl

/-- No command clears `FAULT`: it latches one, or leaves the latch alone. -/
theorem exec_keeps_fault {i : Instr} (h : exec i s = .next t) (hf : s.fault = true) : t.fault = true := by
  obtain ⟨k, -, rfl⟩ | ⟨-, rfl⟩ := exec_next_cases h
  · rfl
  · obtain ⟨hfault, -⟩ := effectOf_frame i s
    exact hfault.trans hf

/-- A step that clears `FAULT` takes a reset of the host (60_exceptions R193). -/
theorem step_clears_fault (hf : s.fault = true) (h : step s = .next t) (ht : t.fault = false) :
    ∃ a rest, s.host = a :: rest ∧ a.isReset = true := by
  obtain ⟨a, rest, hh, -, hact⟩ | ⟨s0, hturn, hcore⟩ := step_next_cases h
  · refine ⟨a, rest, hh, ?_⟩
    by_contra hr
    have hkept := hostAct_fault hact (Bool.eq_false_of_not_eq_true hr)
    simp [hf, ht] at hkept
  · have hf0 : s0.fault = true := hturn ▸ s.coreTurn_fault.trans hf
    have hkept : t.fault = true := by
      obtain ⟨w, i, -, -, hexec⟩ | ⟨w, -, rfl⟩ | ⟨-, rfl⟩ := hcore
      · exact exec_keeps_fault hexec hf0
      · rfl
      · exact hf0
    simp [ht] at hkept

end

/-- A write to `CTRL` with bit 1 set, taken while nothing is pending, is the soft reset (R211). -/
theorem step_of_softReset {s : State} {w : Word} {rest : List HostAct} (hh : s.host = .write32 0x0008 w :: rest)
    (hp : s.pend = none) (hw : w.getLsbD 1 = true) : step s = .next (State.softReset { s with host := rest }) :=
  step_of_write32 hh (absurd hp) (congrArg some (State.writeCtrl_of_srst hw _))

end Sys2Proof.Machine
end

section
/-!
The resets (70_reset_and_hazards R210, R211).
-/

namespace Sys2Proof.Proofs

open Sys2Proof.Machine Sys2Proof.Claims

/-- Settles O21: the write is the soft reset, which leaves `BUF` alone; and a step that clears `FAULT` takes an act that
is a reset, of which there are two kinds. -/
theorem softResetKeepsBuf : Obligations.SoftResetKeepsBuf := by
  refine ⟨fun s w rest hh hp hw => ?_, fun s t hf hstep ht => ?_⟩
  · exact ⟨_, step_of_softReset hh hp hw, State.softReset_reg _, rfl, rfl, rfl, rfl, rfl, rfl, rfl, rfl,
      fun _ => rfl, rfl, rfl, rfl⟩
  · obtain ⟨a, rest, hh, ha⟩ := step_clears_fault hf hstep ht
    obtain rfl | ⟨w, rfl, hw⟩ := a.isReset_iff.mp ha
    · exact .inl ⟨rest, hh⟩
    · exact .inr ⟨w, rest, hh, hw⟩

end Sys2Proof.Proofs
end

section
/-!
SUPPORT. The fields that the decoder reads from a word that the encoder built (30_encoding R71, R72): format by format, a
word of given operands decodes to the command of those operands.
-/

namespace Sys2Proof

theorem regAt_val_eq_fieldAt (w : Word) (lo : Nat) : (regAt w lo).val = fieldAt w lo 4 := rfl

section
variable {op : Nat} (hop : op < 256) {r rd ra rb : RegIdx} {len addr : Nat}
include hop

theorem opcodeOf_wordM (hfit : fieldsFit len addr = true) : opcodeOf (wordM op r len addr) = op := by
  simp only [fieldsFit, Bool.and_eq_true, decide_eq_true_eq] at hfit
  obtain ⟨hlen, haddr⟩ := hfit
  have hr := r.isLt
  rw [opcodeOf, fieldAt_eq, wordM_toNat op r len addr hop hlen haddr]
  omega

theorem decodeM_wordM (hfit : fieldsFit len addr = true) (k : RegIdx → Nat → Nat → Instr) :
    decodeM (wordM op r len addr) k = .ok (k r len addr) := by
  simp only [fieldsFit, Bool.and_eq_true, decide_eq_true_eq] at hfit
  obtain ⟨hlen, haddr⟩ := hfit
  have hr := r.isLt
  have hword := wordM_toNat op r len addr hop hlen haddr
  have hreg : regAt (wordM op r len addr) 20 = r := Fin.ext (by rw [regAt_val, hword]; omega)
  have hlenAt : fieldAt (wordM op r len addr) 12 8 = len := by rw [fieldAt_eq, hword]; omega
  have haddrAt : fieldAt (wordM op r len addr) 0 12 = addr := by rw [fieldAt_eq, hword]; omega
  rw [decodeM, hreg, hlenAt, haddrAt]

/-- Every field of a word of three registers. -/
theorem wordR_fieldsAt : opcodeOf (wordR op rd ra rb) = op ∧ regAt (wordR op rd ra rb) 20 = rd ∧
    regAt (wordR op rd ra rb) 16 = ra ∧ regAt (wordR op rd ra rb) 12 = rb ∧ fieldAt (wordR op rd ra rb) 0 12 = 0 := by
  have hword := wordR_toNat op rd ra rb hop
  have hrd := rd.isLt
  have hra := ra.isLt
  have hrb := rb.isLt
  refine ⟨?_, Fin.ext ?_, Fin.ext ?_, Fin.ext ?_, ?_⟩
  all_goals simp only [opcodeOf, regAt_val, fieldAt_eq, hword]; omega

theorem opcodeOf_wordR (rd ra rb : RegIdx) : opcodeOf (wordR op rd ra rb) = op := (wordR_fieldsAt hop).1

theorem decodeR3_wordR (k : RegIdx → RegIdx → RegIdx → Instr) :
    decodeR3 (wordR op rd ra rb) k = .ok (k rd ra rb) := by
  obtain ⟨-, hrd, hra, hrb, hzero⟩ := wordR_fieldsAt hop (rd := rd) (ra := ra) (rb := rb)
  rw [decodeR3, hrd, hra, hrb, needZero_eq_ok]
  exact ⟨hzero, rfl⟩

theorem decodeR2_wordR (k : RegIdx → RegIdx → Instr) : decodeR2 (wordR op rd ra 0) k = .ok (k rd ra) := by
  obtain ⟨-, hrd, hra, hrb, hzero⟩ := wordR_fieldsAt hop (rd := rd) (ra := ra) (rb := 0)
  rw [decodeR2, hrd, hra, needZero_eq_ok]
  refine ⟨?_, rfl⟩
  have hrb' := congrArg Fin.val hrb
  rw [regAt_val, Fin.val_zero] at hrb'
  rw [fieldAt_eq] at hzero ⊢
  omega

theorem decodeRC_wordR (k : RegIdx → RegIdx → Instr) : decodeRC (wordR op 0 ra rb) k = .ok (k ra rb) := by
  obtain ⟨-, hrd, hra, hrb, hzero⟩ := wordR_fieldsAt hop (rd := 0) (ra := ra) (rb := rb)
  have hhigh : fieldAt (wordR op 0 ra rb) 20 4 = 0 := by rw [← regAt_val_eq_fieldAt, hrd, Fin.val_zero]
  rw [decodeRC, hra, hrb, if_pos hhigh, needZero_eq_ok]
  exact ⟨hzero, rfl⟩

end

theorem decode_encode_setc (b : Bool) : decode (encode (.setc b)) = .ok (.setc b) := by
  cases b <;> rfl

/-- The opcode selects the format, and the format gives the operands back (R71, R76). -/
theorem decode_encode {i : Instr} (h : i.WellFormed) : decode (encode i) = .ok i := by
  cases i
  case setc b => exact decode_encode_setc b
  case fld r len addr | fst r len addr | sld r len addr | sst r len addr =>
    have hfit : fieldsFit len addr = true := h
    simp [encode, decode, opcodeOf_wordM, decodeM_wordM, hfit]
  all_goals simp [encode, decode, opcodeOf_wordR, decodeR3_wordR, decodeR2_wordR, decodeRC_wordR]

end Sys2Proof
end

section
/-!
Encoding and decoding (30_encoding sections 1 to 3).
-/

namespace Sys2Proof.Proofs

/-- Settles O2: format by format. -/
theorem decodeOfEncodeIsTheCommand : Obligations.DecodeOfEncodeIsTheCommand :=
  fun _ => decode_encode

/-- Settles O3: the fields of a word fit it, and none is dropped. -/
theorem encodeOfDecodeIsTheWord : Obligations.EncodeOfDecodeIsTheWord :=
  fun _ _ h => ⟨wellFormed_of_decode h, encode_of_decode h⟩

/-- Settles O5: every row's mask covers the opcode, which no two rows share. -/
theorem tableRowsAreDisjoint : Obligations.TableRowsAreDisjoint := by
  intro w r q hr hq hrsel hqsel
  exact eq_of_selects_of_opcode hr hq hrsel (opcode_of_selects hq hqsel)

/-- Settles O6: by evaluation of the decoder on each word. -/
theorem sampleWordsDecode : Obligations.SampleWordsDecode := by
  refine ⟨rfl, rfl, rfl, rfl, rfl, rfl, rfl, rfl, rfl, rfl, fun i => ⟨?_, ?_, ?_, ?_, ?_, ?_, ?_⟩⟩
  all_goals exact nofun

end Sys2Proof.Proofs
end

section
/-!
SUPPORT. Everything an act of the host can do, said once (10_state R33 to R42), and what the core's turn leaves: later
proofs about all steps cite these and unfold no access to the port.
-/

namespace Sys2Proof.Machine

/-- A word of the BUF window lies inside the buffer (R40). -/
theorem target32_buf_bound {off addr : Nat} (h : target32 off = .buf addr) : addr + 4 ≤ bufSize := by
  unfold target32 at h
  split_ifs at h with hout hun halign hwin
  have haddr : off - 0x1000 = addr := Target.buf.inj h
  unfold bufSize
  omega

theorem target8_buf_bound {off addr : Nat} (h : target8 off = .buf addr) : addr + 1 ≤ bufSize := by
  unfold target8 at h
  split_ifs at h with hout hun hwin
  have haddr : off - 0x1000 = addr := Target.buf.inj h
  unfold bufSize
  omega

section
variable {s t : State}

/-- A write to `CMD` is accepted, or discarded while a fault is latched (R34, 60_exceptions R192). -/
theorem State.writeCmd_of_fault (h : s.fault = true) (w : Word) : s.writeCmd w = s := if_pos h

theorem State.writeCmd_of_noFault (h : s.fault = false) (w : Word) : s.writeCmd w = { s with pend := some w } := by
  rw [State.writeCmd, h]
  rfl

/-- A write to `CTRL` without bit 1 sets `IE` and nothing else (R36). -/
theorem State.writeCtrl_of_noSrst {w : Word} (h : w.getLsbD 1 = false) (s : State) :
    s.writeCtrl w = { s with ie := w.getLsbD 0 } := by
  rw [State.writeCtrl, h]
  rfl

theorem State.writeWord_cases {off : Nat} {w : Word} (h : s.writeWord w (target32 off) = some t) :
    t = s ∨ t = s.writeCmd w ∨ (off = 0x0008 ∧ t = s.writeCtrl w) ∨
      ∃ addr bs, addr + bs.length ≤ bufSize ∧ t = s.memWrite addr bs := by
  cases htgt : target32 off with rw [htgt] at h
  | unlisted | outside => cases h
  | cmd => exact .inr (.inl (Option.some.inj h).symm)
  | ctrl => exact .inr (.inr (.inl ⟨target32_eq_ctrl_iff.mp htgt, (Option.some.inj h).symm⟩))
  | buf addr =>
    refine .inr (.inr (.inr ⟨addr, toLE w.toNat 4, ?_, (Option.some.inj h).symm⟩))
    rw [toLE_length]
    exact target32_buf_bound htgt
  | _ => exact .inl (Option.some.inj h).symm

theorem State.writeByte_cases {off : Nat} {b : Byte} (h : s.writeByte b (target8 off) = some t) :
    t = s ∨ ∃ addr bs, addr + bs.length ≤ bufSize ∧ t = s.memWrite addr bs := by
  cases htgt : target8 off with rw [htgt] at h
  | buf addr => exact .inr ⟨addr, [b], target8_buf_bound htgt, (Option.some.inj h).symm⟩
  | unmapped => exact .inl (Option.some.inj h).symm
  | _ => cases h

/-- Everything an act of the host that goes on can do: nothing, answer a read, write to `BUF`, write to `CMD` or `CTRL`,
reset. -/
theorem hostAct_next_cases {a : HostAct} (h : hostAct a s = .next t) :
    t = s ∨ (∃ v, t = s.answer v) ∨ (∃ addr bs, addr + bs.length ≤ bufSize ∧ t = s.memWrite addr bs) ∨
      (∃ w, t = s.writeCmd w) ∨ (∃ w, a = .write32 0x0008 w ∧ t = s.writeCtrl w) ∨
      (a = .hardReset ∧ t = s.hardReset) := by
  cases a with
  | idle => exact .inl (Host.Outcome.next.inj h).symm
  | hardReset => exact .inr (.inr (.inr (.inr (.inr ⟨rfl, (Host.Outcome.next.inj h).symm⟩))))
  | read32 off | read8 off =>
    obtain ⟨v, -, ht⟩ := Option.map_eq_some_iff.mp (portOutcome_eq_next_iff.mp h)
    exact .inr (.inl ⟨v, ht.symm⟩)
  | write32 off w =>
    obtain ht | ht | ⟨rfl, ht⟩ | hbuf := State.writeWord_cases (portOutcome_eq_next_iff.mp h)
    · exact .inl ht
    · exact .inr (.inr (.inr (.inl ⟨w, ht⟩)))
    · exact .inr (.inr (.inr (.inr (.inl ⟨w, rfl, ht⟩))))
    · exact .inr (.inr (.inl hbuf))
  | write8 off b =>
    obtain ht | hbuf := State.writeByte_cases (portOutcome_eq_next_iff.mp h)
    · exact .inl ht
    · exact .inr (.inr (.inl hbuf))

/-- Everything a step that goes on can be, the host's acts apart: an act of the host, the latching of an undecodable
word, a command, or nothing. -/
theorem step_next_effects (h : step s = .next t) : ∃ acts : List HostAct,
    (∃ a rest, s.host = a :: rest ∧ acts = rest ∧ hostAct a { s with host := acts } = .next t) ∨
    (∃ w, s.pend = some w ∧ t = State.takeFault { s with host := acts } .illegal w) ∨
    (∃ w i, s.pend = some w ∧ decode w = .ok i ∧ exec i { s with host := acts } = .next t) ∨
    (s.pend = none ∧ t = { s with host := acts }) := by
  obtain ⟨a, rest, hh, -, hact⟩ | ⟨s0, hturn, hcore⟩ := step_next_cases h
  · exact ⟨rest, .inl ⟨a, rest, hh, rfl, hact⟩⟩
  · obtain ⟨acts, rfl⟩ : ∃ acts : List HostAct, s0 = { s with host := acts } := by
      rw [← hturn]
      unfold State.coreTurn
      split
      · exact ⟨s.host.tail, rfl⟩
      · exact ⟨s.host, rfl⟩
    refine ⟨acts, .inr ?_⟩
    obtain hrun | hill | hidle := hcore
    · exact .inr (.inl hrun)
    · exact .inl hill
    · exact .inr (.inr hidle)

end

end Sys2Proof.Machine
end

section
/-!
SUPPORT. The invariant of the state (10_state R22, R29, 20_memory R50) and each thing a step can do: the registers, the
latch and the buffer, one after the other.
-/

namespace Sys2Proof.Machine

open Sys2Proof.Claims

/-! ### The registers -/

section
variable {c : Config} {v : Nat}

theorem Reg.ok_fe (h : v < fieldP) : Reg.ok c ⟨.fe, BitVec.ofNat 256 v⟩ = true := by
  simp only [Reg.ok, c.p_eq, ofNat_val_toNat h fieldP_lt.le, h, decide_true]

theorem Reg.ok_sp (hwf : c.WF) (h : v < c.ell) : Reg.ok c ⟨.sp, BitVec.ofNat 256 v⟩ = true := by
  simp only [Reg.ok, ofNat_val_toNat h (wf_ell_lt hwf).le, h, decide_true]

theorem Reg.ok_sm (hwf : c.WF) (h : v < c.ell) : Reg.ok c ⟨.sm, BitVec.ofNat 256 v⟩ = true := Reg.ok_sp hwf h

theorem toMont_lt (hwf : c.WF) (v : Nat) : toMont c v < c.ell := Nat.mod_lt _ (wf_ell_pos hwf)

theorem fromMont_lt (hwf : c.WF) (v : Nat) : fromMont c v < c.ell := Nat.mod_lt _ (wf_ell_pos hwf)

theorem montMul_lt (hwf : c.WF) (a b : Nat) : montMul c a b < c.ell := Nat.mod_lt _ (wf_ell_pos hwf)

end

/-- Every register holds a value of its tag's range (R22). -/
def State.RegsOk (s : State) : Prop := ∀ r : RegIdx, (s.reg r).ok s.cfg = true

section
variable {s : State}

theorem State.RegsOk.setReg (h : s.RegsOk) (rd : RegIdx) {r : Reg} (hr : r.ok s.cfg = true) : (s.setReg rd r).RegsOk := by
  intro i
  rw [State.setReg_reg, State.setReg_cfg]
  split
  · exact hr
  · exact h i

theorem State.RegsOk.setVal_fe (h : s.RegsOk) (rd : RegIdx) {v : Nat} (hv : v < fieldP) : (s.setVal rd .fe v).RegsOk :=
  h.setReg rd (Reg.ok_fe hv)

theorem State.RegsOk.setVal_sp (h : s.RegsOk) (hwf : s.cfg.WF) (rd : RegIdx) {v : Nat} (hv : v < s.cfg.ell) :
    (s.setVal rd .sp v).RegsOk := h.setReg rd (Reg.ok_sp hwf hv)

theorem State.RegsOk.setVal_sm (h : s.RegsOk) (hwf : s.cfg.WF) (rd : RegIdx) {v : Nat} (hv : v < s.cfg.ell) :
    (s.setVal rd .sm v).RegsOk := h.setReg rd (Reg.ok_sm hwf hv)

theorem State.RegsOk.of_sameRegs {t : State} (h : s.RegsOk) (hregs : SameRegs s t) (hcfg : t.cfg = s.cfg) : t.RegsOk := by
  intro r
  rw [hregs r, hcfg]
  exact h r

theorem regsOk_of_cleared {t : State} (h : ∀ r : RegIdx, t.reg r = ⟨.empty, 0⟩) : t.RegsOk :=
  fun r => by rw [h r]; rfl

/-- A command that passes its checks writes its destination below the modulus of the tag it writes (R24, R25). -/
theorem effectOf_regsOk (h : s.RegsOk) (hwf : s.cfg.WF) {i : Instr} (hc : checkOf i s = none) :
    (effectOf i s).RegsOk := by
  have hell := wf_ell_pos hwf
  cases i <;> rw [effectOf]
  case fst | sst | ceq | setc => exact h.of_sameRegs (by simp [SameRegs]) (by simp)
  case fld | fadd | fmul | fsqr => exact h.setVal_fe _ (Nat.mod_lt _ fieldP_pos)
  case fsub => exact h.setVal_fe _ (fieldSubVal_lt fieldP_pos _ _)
  case finv => exact h.setVal_fe _ (powMod_lt _ _ fieldP_pos)
  case sld => exact h.setVal_sp hwf _ (Nat.mod_lt _ hell)
  case spack => exact h.setVal_sp hwf _ (fromMont_lt hwf _)
  case sunpack | minv => exact h.setVal_sm hwf _ (toMont_lt hwf _)
  case mmul | msqr => exact h.setVal_sm hwf _ (montMul_lt hwf _ _)
  case csel rd ra rb =>
    obtain ⟨-, htag⟩ := (needSame_eq_none s ra rb).mp hc
    refine h.setReg rd ?_
    rw [State.selected_of_sameTag htag]
    split
    · exact h rb
    · exact h ra

/-! ### The latch and the buffer -/

/-- The latch stays whole where it is untouched and no word becomes pending (R29, 60_exceptions R186). -/
theorem latchOk_of_sameLatch {t : State} (h : s.latchOk = true) (hfault : t.fault = s.fault) (hcause : t.cause = s.cause)
    (hfaultcmd : t.faultcmd = s.faultcmd) (hpend : t.pend = s.pend ∨ t.pend = none) : t.latchOk = true := by
  unfold State.latchOk at h ⊢
  rw [hfault, hcause, hfaultcmd]
  obtain hp | hp := hpend
  · rw [hp]
    exact h
  · rw [hp]
    cases hf : s.fault with
    | false => simpa [hf] using h
    | true =>
      have hboth : s.cause ≠ .none ∧ s.pend = none := by simpa [hf] using h
      simp [hboth.1]

theorem latchOk_takeFault {k : Cause} (hk : k ≠ .none) (w : Word) (s : State) : (s.takeFault k w).latchOk = true := by
  simp [State.latchOk, hk]

/-- A store that passes its range check writes inside the buffer. -/
theorem effectOf_buf_wf (h : Mem.wf s.buf = true) {i : Instr} (hc : checkOf i s = none) :
    Mem.wf (effectOf i s).buf = true := by
  cases i with
  | fst ra len addr | sst ra len addr =>
    obtain ⟨hfields, -⟩ := Option.or_eq_none_iff.mp hc
    obtain ⟨hlen, hrange⟩ := (bufCheck_eq_none _ _ _ _).mp hfields
    obtain rfl : len = 32 := by simpa using hlen
    exact State.storeVal_wf h hrange ra
  | _ => exact h

/-! ### The invariant -/

variable {t : State}

theorem inv_iff : s.Inv ↔ s.cfg.WF ∧ s.RegsOk ∧ s.latchOk = true ∧ Mem.wf s.buf = true := Iff.rfl

theorem inv_setHost (h : s.Inv) (acts : List HostAct) : State.Inv { s with host := acts } := h

theorem State.Inv.takeFault (h : s.Inv) {k : Cause} (hk : k ≠ .none) (w : Word) : (s.takeFault k w).Inv := by
  obtain ⟨hwf, hregs, -, hbuf⟩ := h
  exact ⟨hwf, hregs, latchOk_takeFault hk w s, hbuf⟩

theorem exec_keeps_inv {i : Instr} (h : s.Inv) (hexec : exec i s = .next t) : t.Inv := by
  obtain ⟨k, hc, rfl⟩ | ⟨hc, rfl⟩ := exec_next_cases hexec
  · refine h.takeFault ?_ _
    rintro rfl
    simpa using checkOf_cause hc
  · obtain ⟨hwf, hregs, hlatch, hbuf⟩ := inv_iff.mp h
    obtain ⟨-, -, hfault, hcause, hfaultcmd, -, hcfg, -⟩ := retire_retired i s
    refine ⟨hcfg ▸ hwf, effectOf_regsOk hregs hwf hc, ?_, effectOf_buf_wf hbuf hc⟩
    exact latchOk_of_sameLatch hlatch hfault hcause hfaultcmd (.inr rfl)

theorem softReset_inv (h : s.Inv) : s.softReset.Inv := by
  obtain ⟨hwf, -, -, hbuf⟩ := h
  exact ⟨hwf, regsOk_of_cleared s.softReset_reg, rfl, hbuf⟩

theorem hardReset_inv (h : s.Inv) : s.hardReset.Inv := by
  obtain ⟨hwf, -⟩ := h
  exact ⟨hwf, regsOk_of_cleared s.hardReset_reg, rfl, rfl⟩

/-- A word becomes pending only while no fault is latched (R34). -/
theorem writeCmd_inv (h : s.Inv) (w : Word) : (s.writeCmd w).Inv := by
  cases hf : s.fault with
  | true => rwa [State.writeCmd_of_fault hf]
  | false =>
    rw [State.writeCmd_of_noFault hf]
    obtain ⟨hwf, hregs, hlatch, hbuf⟩ := h
    refine ⟨hwf, hregs, ?_, hbuf⟩
    simpa [State.latchOk, hf] using hlatch

theorem writeCtrl_inv (h : s.Inv) (w : Word) : (s.writeCtrl w).Inv := by
  cases hw : w.getLsbD 1 with
  | true =>
    rw [State.writeCtrl_of_srst hw]
    exact softReset_inv h
  | false =>
    rw [State.writeCtrl_of_noSrst hw]
    exact h

theorem hostAct_keeps_inv {a : HostAct} (h : s.Inv) (hact : hostAct a s = .next t) : t.Inv := by
  obtain rfl | ⟨v, rfl⟩ | ⟨addr, bs, hrange, rfl⟩ | ⟨w, rfl⟩ | ⟨w, -, rfl⟩ | ⟨-, rfl⟩ := hostAct_next_cases hact
  · exact h
  · exact h
  · obtain ⟨hwf, hregs, hlatch, hbuf⟩ := h
    exact ⟨hwf, hregs, hlatch, Mem.putAll_wf hbuf hrange⟩
  · exact writeCmd_inv h w
  · exact writeCtrl_inv h w
  · exact hardReset_inv h

end

theorem step_keeps_inv {s t : State} (h : s.Inv) (hstep : step s = .next t) : t.Inv := by
  obtain ⟨acts, hcases⟩ := step_next_effects hstep
  have h' := inv_setHost h acts
  obtain ⟨a, rest, -, -, hact⟩ | ⟨w, -, rfl⟩ | ⟨w, i, -, -, hexec⟩ | ⟨-, rfl⟩ := hcases
  · exact hostAct_keeps_inv h' hact
  · exact h'.takeFault (by decide) w
  · exact exec_keeps_inv h' hexec
  · exact h'

/-! ### The configuration -/

theorem State.writeCmd_cfg (s : State) (w : Word) : (s.writeCmd w).cfg = s.cfg := by
  unfold State.writeCmd
  split <;> rfl

theorem State.writeCtrl_cfg (s : State) (w : Word) : (s.writeCtrl w).cfg = s.cfg := by
  unfold State.writeCtrl
  split <;> rfl

theorem hostAct_keeps_cfg {a : HostAct} {s t : State} (hact : hostAct a s = .next t) : t.cfg = s.cfg := by
  obtain rfl | ⟨v, rfl⟩ | ⟨addr, bs, -, rfl⟩ | ⟨w, rfl⟩ | ⟨w, -, rfl⟩ | ⟨-, rfl⟩ := hostAct_next_cases hact
  · rfl
  · rfl
  · rfl
  · exact s.writeCmd_cfg w
  · exact s.writeCtrl_cfg w
  · rfl

theorem step_keeps_cfg {s t : State} (hstep : step s = .next t) : t.cfg = s.cfg := by
  obtain ⟨acts, ⟨a, rest, -, -, hact⟩ | ⟨w, -, rfl⟩ | ⟨w, i, -, -, hexec⟩ | ⟨-, rfl⟩⟩ := step_next_effects hstep
  · exact hostAct_keeps_cfg (s := { s with host := acts }) hact
  · rfl
  · exact exec_keeps_cfg (s := { s with host := acts }) hexec
  · rfl

end Sys2Proof.Machine
end

section
/-!
The invariant and the configuration (10_state R22, R29, 20_memory R50, 00_scope R5).
-/

namespace Sys2Proof.Proofs

open Sys2Proof.Machine Sys2Proof.Claims

/-- Settles O32: by the cases of a step, each of which keeps the registers' ranges, the latch and the buffer's form. -/
theorem everyStepKeepsTheInvariant : Obligations.EveryStepKeepsTheInvariant :=
  fun _ _ => step_keeps_inv

/-- Settles O31: every register is cleared, the latch is clear and the buffer unwritten. -/
theorem invariantAtReset : Obligations.InvariantAtReset := by
  refine ⟨?_, regsOk_of_cleared State.reset_reg, rfl, reset_buf_wf⟩
  decide +kernel

/-- Settles O33: by the cases of a step. -/
theorem noStepChangesTheConfiguration : Obligations.NoStepChangesTheConfiguration :=
  fun _ _ => step_keeps_cfg

end Sys2Proof.Proofs
end

section
/-!
SUPPORT. The core's turn: it always ends in a next state, and a pending word that decodes is run (20_memory R60, 10_state
R26).
-/

namespace Sys2Proof.Machine

open Sys2Proof.Claims

theorem coreStep_next (s : State) : ∃ t, coreStep s = .next t := by
  cases hp : s.pend with
  | none => exact ⟨s, coreStep_idle hp⟩
  | some w =>
    obtain ⟨t, ht, -⟩ := completeWord_countedOrLatched w s
    exact ⟨t, (coreStep_pending hp).trans ht⟩

theorem coreStep_decoded {s : State} {w : Word} {i : Instr} (hp : s.pend = some w) (hd : decode w = .ok i) :
    coreStep s = exec i s := (coreStep_pending hp).trans (completeWord_ok hd s)

theorem State.busy_of_pend {s : State} {w : Word} (hp : s.pend = some w) : s.busy = true := by
  rw [State.busy, hp]
  rfl

theorem decode_of_decodeTableWord {nbits w : Nat} {i : Instr} (h : decodeTableWord nbits w = some i) :
    decode (BitVec.ofNat 32 (w % 2 ^ nbits)) = .ok i := by
  unfold decodeTableWord at h
  split at h
  next hd => rw [hd, Option.some.inj h]
  next => cases h

/-- With the word placed the turn is the core's, whatever the host's next act is, and of the host's acts at most an `idle`
is used up. -/
theorem State.withFetchWord_turn (s : State) (nbits w : Nat) : (s.withFetchWord nbits w).hostTurn = none ∧
    ∃ acts, (s.withFetchWord nbits w).coreTurn =
        { s with pend := some (BitVec.ofNat 32 (w % 2 ^ nbits)), host := acts } ∧
      (s.host.head? ≠ some .idle → acts = s.host) := by
  unfold State.hostTurn State.coreTurn State.withFetchWord
  match hh : s.host with
  | [] => exact ⟨rfl, [], rfl, fun _ => rfl⟩
  | .idle :: rest => exact ⟨rfl, rest, rfl, fun hne => absurd rfl hne⟩
  | .hardReset :: rest => exact ⟨rfl, _, rfl, fun _ => rfl⟩
  | .read32 off :: rest | .write32 off v :: rest | .read8 off :: rest | .write8 off b :: rest =>
    dsimp only
    split_ifs with hw
    · simp [State.busy, hw]
    · exact ⟨rfl, _, rfl, fun _ => rfl⟩

/-! ### A step is the core's, the host's, or no transaction -/

/-- The accesses that are no transaction of the port (10_state R33, R40, R41; logs 5 and 6). -/
def HostAct.NoTransaction (a : HostAct) : Prop :=
  (∃ off, (a = .read32 off ∨ ∃ w, a = .write32 off w) ∧
      (0x2000 ≤ off ∨ (off % 4 ≠ 0 ∧ (off < 0x0018 ∨ 0x1000 ≤ off)))) ∨
    ∃ off, (a = .read8 off ∨ ∃ b, a = .write8 off b) ∧ (0x2000 ≤ off ∨ off < 0x0018)

theorem State.readByte_isSome (s : State) {t : Target} (h : (∃ addr, t = .buf addr) ∨ t = .unmapped) :
    ∃ v, s.readByte t = some v := by
  obtain ⟨addr, rfl⟩ | rfl := h
  · exact ⟨_, rfl⟩
  · exact ⟨_, rfl⟩

theorem State.writeByte_isSome (s : State) (b : Byte) {t : Target} (h : (∃ addr, t = .buf addr) ∨ t = .unmapped) :
    ∃ u, s.writeByte b t = some u := by
  obtain ⟨addr, rfl⟩ | rfl := h
  · exact ⟨_, rfl⟩
  · exact ⟨_, rfl⟩

/-- The host's turn is an act of the host that goes on, or stops at an access that is no transaction. -/
theorem hostAct_next_or_noTransaction (a : HostAct) (s : State) : (∃ t, hostAct a s = .next t) ∨ a.NoTransaction := by
  have hword (off : Nat) (hacc : ¬ (0x2000 ≤ off ∨ (off % 4 ≠ 0 ∧ (off < 0x0018 ∨ 0x1000 ≤ off)))) :
      target32 off ≠ .outside ∧ target32 off ≠ .unlisted := target32_transaction (by omega) (by omega)
  have hbyte (off : Nat) (hacc : ¬ (0x2000 ≤ off ∨ off < 0x0018)) :
      (∃ addr, target8 off = .buf addr) ∨ target8 off = .unmapped := target8_transaction (by omega) (by omega)
  refine or_iff_not_imp_right.mpr fun hno => ?_
  simp only [HostAct.NoTransaction, not_or, not_exists, not_and] at hno
  obtain ⟨h32, h8⟩ := hno
  cases a with
  | idle => exact ⟨_, rfl⟩
  | hardReset => exact ⟨_, rfl⟩
  | read32 off =>
    obtain ⟨v, hv⟩ := s.readWord_isSome (hword off (by simpa using h32 off))
    exact ⟨s.answer v, portOutcome_eq_next_iff.mpr (by rw [hv]; rfl)⟩
  | write32 off w =>
    obtain ⟨u, hu⟩ := s.writeWord_isSome w (hword off (by simpa using h32 off))
    exact ⟨u, portOutcome_eq_next_iff.mpr hu⟩
  | read8 off =>
    obtain ⟨v, hv⟩ := s.readByte_isSome (hbyte off (by simpa using h8 off))
    exact ⟨s.answer v, portOutcome_eq_next_iff.mpr (by rw [hv]; rfl)⟩
  | write8 off b =>
    obtain ⟨u, hu⟩ := s.writeByte_isSome b (hbyte off (by simpa using h8 off))
    exact ⟨u, portOutcome_eq_next_iff.mpr hu⟩

/-- A step goes on, unless the host's next act is an access that is no transaction (60_exceptions R195). -/
theorem step_next_or_noTransaction (s : State) :
    (∃ t, step s = .next t) ∨ ∃ a rest, s.host = a :: rest ∧ a.NoTransaction := by
  unfold step
  cases hturn : s.hostTurn with
  | none => exact .inl (coreStep_next _)
  | some a =>
    refine (hostAct_next_or_noTransaction a s.popHost).imp_right fun hno => ?_
    unfold State.hostTurn at hturn
    split at hturn
    · cases hturn
    · cases hturn
    next b rest _ hh =>
      obtain rfl : b = a := by simp_all
      exact ⟨b, rest, hh, hno⟩

/-! ### `CTRL` -/

theorem State.ctrlWord_toNat (s : State) : s.ctrlWord.toNat = s.ie.toNat := by
  have := s.ie.toNat_lt
  rw [State.ctrlWord, BitVec.toNat_ofNat, Nat.mod_eq_of_lt (by omega)]

/-- The fields of R36: IE, then zeros. -/
theorem State.ctrlWord_fields (s : State) : s.ctrlWord.getLsbD 0 = s.ie ∧ fieldAt s.ctrlWord 1 31 = 0 := by
  have := s.ie.toNat_lt
  have hw := s.ctrlWord_toNat
  refine ⟨getLsbD_of_bit ?_, ?_⟩
  · rw [hw]
    omega
  · rw [fieldAt_eq, hw]
    omega

/-! ### While a fault is latched -/

/-- What R192 keeps while a fault is latched: the registers, `C`, the latch, the count and the empty slot. -/
def Halted (s t : State) : Prop :=
  SameRegs s t ∧ t.c = s.c ∧ t.fault = true ∧ t.cause = s.cause ∧ t.faultcmd = s.faultcmd ∧
    t.cmdcnt = s.cmdcnt ∧ t.pend = none

theorem hostAct_halted {a : HostAct} {s t : State} (hf : s.fault = true) (hp : s.pend = none) (hr : a.isReset = false)
    (h : hostAct a s = .next t) : Halted s t := by
  have hsame : Halted s s := ⟨fun _ => rfl, rfl, hf, rfl, rfl, rfl, hp⟩
  obtain rfl | ⟨v, rfl⟩ | ⟨addr, bs, -, rfl⟩ | ⟨w, rfl⟩ | ⟨w, rfl, rfl⟩ | ⟨rfl, -⟩ := hostAct_next_cases h
  · exact hsame
  · exact hsame
  · exact hsame
  · rwa [State.writeCmd_of_fault hf]
  · have hw : w.getLsbD 1 = false := hr
    rw [State.writeCtrl_of_noSrst hw]
    exact hsame
  · cases hr

end Sys2Proof.Machine
end

section
/-!
The step and the host port (20_memory section 5, 10_state R34 to R41, R45, 60_exceptions R192, R195).
-/

namespace Sys2Proof.Proofs

open Sys2Proof.Machine Sys2Proof.Claims

/-- Settles O7: the core's turn completes the pending word. -/
theorem stepRunsTheDecodedCommand : Obligations.StepRunsTheDecodedCommand := by
  intro s w i hp hd
  refine ⟨fun hh => ?_, fun rest hh => ?_, fun a rest hh hw => ?_⟩
  · exact (step_of_host_nil hh).trans (coreStep_decoded hp hd)
  · exact (step_of_host_idle hh).trans (coreStep_decoded hp hd)
  · exact (step_of_host_waits hh (State.busy_of_pend hp) hw).trans (coreStep_decoded hp hd)

/-- Settles O8: whatever the host's next act is, the core's turn comes first. -/
theorem fetchedWordRunsNext : Obligations.FetchedWordRunsNext := by
  intro s nbits w i htable
  obtain ⟨hturn, acts, hcore, hacts⟩ := s.withFetchWord_turn nbits w
  have hstep : step (s.withFetchWord nbits w) = coreStep (s.withFetchWord nbits w).coreTurn := by rw [step, hturn]
  rw [hstep, hcore]
  exact ⟨_, coreStep_decoded rfl (decode_of_decodeTableWord htable), rfl, hacts, rfl⟩

/-- Settles O11: `writeCmd` accepts or discards by `FAULT`; while a command is pending the write waits. -/
theorem cmdWriteAcceptedDiscardedOrHeld : Obligations.CmdWriteAcceptedDiscardedOrHeld := by
  intro s w rest
  refine ⟨fun hh hp hf => ?_, fun hh hp hf => ?_, fun hh hp => ?_, fun hh => step_of_read32 hh (fun _ => rfl) rfl⟩
  · exact step_of_write32 hh (absurd hp) (congrArg some (State.writeCmd_of_noFault (s := { s with host := rest }) hf w))
  · exact step_of_write32 hh (absurd hp) (congrArg some (State.writeCmd_of_fault (s := { s with host := rest }) hf w))
  · obtain ⟨t, hstep, -, hnone, hhost, -⟩ := step_of_held hp hh rfl
    exact ⟨t, hstep, hnone, hhost⟩

/-- Settles O15: `writeCtrl` resets or sets `IE` by bit 1; while a command is pending the write waits. -/
theorem ctrlReadWrite : Obligations.CtrlReadWrite := by
  intro s w rest
  refine ⟨fun hh hp hw => ?_, fun hh hp hw => ⟨step_of_softReset hh hp hw, rfl⟩, fun hh hp => ?_, fun hh => ?_⟩
  · exact step_of_write32 hh (absurd hp) (congrArg some (State.writeCtrl_of_noSrst hw _))
  · obtain ⟨t, hstep, -, -, hhost, -, hie⟩ := step_of_held hp hh rfl
    exact ⟨t, hstep, hhost, hie⟩
  · obtain ⟨hbit, hzero⟩ := s.ctrlWord_fields
    exact ⟨s.ctrlWord, step_of_read32 hh (fun _ => rfl) rfl, hbit, extract_of_fieldAt hzero⟩

/-- Settles O16: none of these offsets waits, the reads answer zero and the writes leave the state. -/
theorem unmappedAndReadOnlyOffsets : Obligations.UnmappedAndReadOnlyOffsets := by
  intro s w b off rest
  refine ⟨fun hh hoff => ?_, fun hh hlo hhi => ?_, fun hh hoff => ?_, fun hh hlo hhi => ?_⟩
  · obtain rfl | ⟨hlo, hhi⟩ := hoff
    · exact step_of_read32 hh (fun _ => rfl) rfl
    · have htgt := target32_unmapped hlo hhi
      exact step_of_read32 hh (fun _ => congrArg Target.readWaits htgt) (congrArg s.readWord htgt)
  · have htgt := target8_unmapped hlo hhi
    exact step_of_read8 hh (fun _ => congrArg Target.readWaits htgt) (congrArg s.readByte htgt)
  · obtain rfl | rfl | rfl | rfl | ⟨hlo, hhi⟩ := hoff
    · exact step_of_write32 hh (fun _ => rfl) rfl
    · exact step_of_write32 hh (fun _ => rfl) rfl
    · exact step_of_write32 hh (fun _ => rfl) rfl
    · exact step_of_write32 hh (fun _ => rfl) rfl
    · have htgt := target32_unmapped hlo hhi
      exact step_of_write32 hh (fun _ => congrArg Target.writeWaits htgt) (congrArg (State.writeWord _ w) htgt)
  · have htgt := target8_unmapped hlo hhi
    exact step_of_write8 hh (fun _ => congrArg Target.writeWaits htgt) (congrArg (State.writeByte _ b) htgt)

/-- Settles O18: reads of the two registers do not wait, and writes leave the state. -/
theorem faultcmdAndCmdcntAreReadOnly : Obligations.FaultcmdAndCmdcntAreReadOnly := by
  intro s w rest
  refine ⟨fun hh => step_of_read32 hh (fun _ => rfl) rfl, fun hh => step_of_read32 hh (fun _ => rfl) rfl, ?_⟩
  rintro (hh | hh)
  · exact step_of_write32 hh (fun _ => rfl) rfl
  · exact step_of_write32 hh (fun _ => rfl) rfl

/-- Settles O19: by evaluation, each register by the law of the reset state. -/
theorem resetLeavesTheResetValues : Obligations.ResetLeavesTheResetValues :=
  ⟨State.reset_reg, rfl, rfl, rfl, rfl, rfl, rfl, rfl, rfl, by decide, by decide, by decide⟩

/-- Settles O20: a hard reset waits for nothing, and leaves `hardReset` of the state. -/
theorem hardResetAtAnyTime : Obligations.HardResetAtAnyTime := by
  intro s rest hh
  exact ⟨_, step_of_host_act hh nofun (fun _ => rfl), State.hardReset_reg _, rfl, rfl, rfl, rfl, rfl, rfl, rfl, rfl,
    rfl, rfl, rfl⟩

/-- Settles O24: with nothing pending the core is idle, and of the host's acts only a reset changes what R192 names. -/
theorem faultedCoreRunsNothing : Obligations.FaultedCoreRunsNothing := by
  intro s t hf hp hstep hrst hsrst
  obtain ⟨acts, ⟨a, rest, hh, -, hact⟩ | ⟨w, hw, -⟩ | ⟨w, i, hw, -⟩ | ⟨-, rfl⟩⟩ := step_next_effects hstep
  · have hr : a.isReset = false := by
      by_contra hne
      obtain rfl | ⟨w, rfl, hw⟩ := a.isReset_iff.mp (Bool.eq_true_of_not_eq_false hne)
      · exact hrst rest hh
      · exact Bool.noConfusion ((hsrst w rest hh).symm.trans hw)
    exact hostAct_halted (s := { s with host := acts }) hf hp hr hact
  · cases hp.symm.trans hw
  · cases hp.symm.trans hw
  · exact ⟨fun _ => rfl, rfl, hf, rfl, rfl, rfl, hp⟩

/-- Settles O34: the core's turn always goes on, and so does every act of the host that is a transaction. -/
theorem onlyANonTransactionStopsTheStep : Obligations.OnlyANonTransactionStopsTheStep :=
  step_next_or_noTransaction

end Sys2Proof.Proofs
end

section
/-!
SUPPORT. What the effect of a command leaves alone (10_state R25, R27, 20_memory R54), and that its faults depend on the
tags of its sources only (00_scope section 5).
-/

namespace Sys2Proof.Machine

open Sys2Proof.Claims

section
variable {i : Instr} {s t : State}

/-! ### The outcome of a command -/

/-- A command that was not counted latched its fault. -/
theorem exec_uncounted (h : exec i s = .next t) (hcnt : t.cmdcnt = s.cmdcnt) : ∃ k, t = s.takeFault k (encode i) := by
  obtain ⟨k, -, rfl⟩ | ⟨-, rfl⟩ := exec_next_cases h
  · exact ⟨k, rfl⟩
  · simp at hcnt

theorem checkOf_eq_none_of_retired (h : exec i s = .next t) (hret : Retired s t) : checkOf i s = none := by
  obtain ⟨hcnt, -⟩ := hret
  exact (exec_counted_iff h).mp hcnt

theorem exec_retires_iff (i : Instr) (s : State) : (∃ t, exec i s = .next t ∧ Retired s t) ↔ checkOf i s = none :=
  ⟨fun ⟨_, h, hret⟩ => checkOf_eq_none_of_retired h hret, fun hc => ⟨_, exec_of_pass hc, retire_retired i s⟩⟩

theorem exec_latches_iff (i : Instr) (s : State) (k : Cause) :
    exec i s = .next (latched k (encode i) s) ↔ checkOf i s = some k := by
  refine ⟨fun h => ?_, fun hc => exec_of_fault hc⟩
  obtain ⟨k', hc, heq⟩ | ⟨-, heq⟩ := exec_next_cases h
  · have hk : k = k' := congrArg State.cause heq
    rw [hc, hk]
  · have hcnt := congrArg State.cmdcnt heq
    simp [latched] at hcnt

/-- The check of the tags is a function of the tags (60_exceptions R189). -/
theorem checkOf_congr_tags {s' : State} (h : ∀ r ∈ sources i, (s.reg r).tag = (s'.reg r).tag) :
    checkOf i s = checkOf i s' := by
  have hwanted : wantedTag i s = wantedTag i s' := by
    unfold wantedTag
    cases hs : sources i with
    | nil => rfl
    | cons r rs => rw [List.head?_cons, Option.elim_some, Option.elim_some, h r (hs ▸ List.mem_cons_self)]
  have htags : sourceTags i s = sourceTags i s' := List.map_congr_left fun r hr => by rw [h r hr, hwanted]
  rw [checkOf_eq, checkOf_eq, htags]

/-! ### The frames of the effect -/

theorem effectOf_reg_other (s : State) {r : RegIdx} (h : ∀ d, destination i = some d → r ≠ d.1) :
    (effectOf i s).reg r = s.reg r := by
  cases i <;> simp_all [effectOf, destination]

/-- The destination gets the tag of R24's table. -/
theorem effectOf_tag (s : State) {rd : RegIdx} {tag : Tag} (h : destination i = some (rd, some tag)) :
    ((effectOf i s).reg rd).tag = tag := by
  cases i <;> simp_all [effectOf, destination]

/-- The one command whose destination has no tag of its own is `CSEL`, which gives it that of its sources (R24). -/
theorem effectOf_tag_of_sources {rd : RegIdx} (h : destination i = some (rd, none)) (hc : checkOf i s = none) :
    ∀ r ∈ sources i, ((effectOf i s).reg rd).tag = (s.reg r).tag := by
  cases i
  case csel d ra rb =>
    obtain ⟨-, htag⟩ := (needSame_eq_none s ra rb).mp hc
    obtain rfl : d = rd := by simpa [destination] using h
    simp [effectOf, sources, State.selected, htag]
  all_goals simp [destination] at h

theorem effectOf_c (s : State) (h : writesFlag i = false) : (effectOf i s).c = s.c := by
  cases i <;> simp_all [effectOf, writesFlag]

theorem effectOf_sameBytes (s : State) (h : isStore i = false) : SameBytes s (effectOf i s) := by
  intro a
  cases i <;> simp_all [effectOf, isStore]

/-- No command writes a byte outside the 32 from its `addr`. -/
theorem effectOf_bufByte_outside (s : State) {a : Nat} (h : a < (lenAddr i).2 ∨ (lenAddr i).2 + 32 ≤ a) :
    (effectOf i s).bufByte a = s.bufByte a := by
  cases hstore : isStore i with
  | false => exact effectOf_sameBytes s hstore a
  | true =>
    cases i
    case fst ra len addr | sst ra len addr => exact State.memWrite_bufByte_other (by rwa [toLE_length])
    all_goals cases hstore

/-- No command writes `IE`. -/
theorem exec_keeps_ie (h : exec i s = .next t) : t.ie = s.ie := by
  obtain ⟨k, -, rfl⟩ | ⟨-, rfl⟩ := exec_next_cases h
  · rfl
  · obtain ⟨-, -, -, -, -, hie, -⟩ := retire_retired i s
    exact hie

theorem State.irq_iff (s : State) : s.irq = true ↔ s.fault = true ∧ s.ie = true := Bool.and_eq_true_iff

end

end Sys2Proof.Machine
end

section
/-!
Faults and frames over all commands (60_exceptions R186, R190, R191, 00_scope section 5, 10_state R25, R27, 20_memory
R54).
-/

namespace Sys2Proof.Proofs

open Sys2Proof.Machine Sys2Proof.Claims

/-- Settles O23: by the outcome of the command's check. -/
theorem faultsArePrecise : Obligations.FaultsArePrecise := by
  intro i s
  cases hc : checkOf i s with
  | none => exact .inl ((exec_retires_iff i s).mpr hc)
  | some k =>
    refine .inr ⟨k, ?_, ?_, (exec_latches_iff i s k).mpr hc⟩
    · rintro rfl
      simpa using checkOf_cause hc
    · rintro rfl
      simpa using checkOf_cause hc

/-- Settles O25: the outcome is that of the check, which is a function of the sources' tags. -/
theorem faultOutcomeIndependentOfValues : Obligations.FaultOutcomeIndependentOfValues := by
  intro i s s' h
  simp only [exec_retires_iff, exec_latches_iff, checkOf_congr_tags h, true_and, implies_true]

/-- Settles O26: by the definition of `irq`; a command leaves `IE` as it is. -/
theorem irqFollowsLatchAndEnable : Obligations.IrqFollowsLatchAndEnable := by
  refine fun s => ⟨s.irq_iff, fun _ _ => rfl, rfl, rfl, fun i t h _ hirq => ?_⟩
  obtain ⟨hfault, hie⟩ := t.irq_iff.mp hirq
  exact ⟨hfault, (exec_keeps_ie h).symm.trans hie⟩

/-- Settles O27: a faulting command writes no register; a counted one writes its destination under the table's tag. -/
theorem onlyTheDestinationIsWritten : Obligations.OnlyTheDestinationIsWritten := by
  intro i s t h
  refine ⟨fun r hr => ?_, fun rd tag hd hret => ?_, fun rd hd hret => ?_⟩
  · obtain ⟨k, -, rfl⟩ | ⟨-, rfl⟩ := exec_next_cases h
    · rfl
    · exact effectOf_reg_other s hr
  · obtain rfl := exec_next_of_pass h (checkOf_eq_none_of_retired h hret)
    exact effectOf_tag s hd
  · have hc := checkOf_eq_none_of_retired h hret
    obtain rfl := exec_next_of_pass h hc
    exact effectOf_tag_of_sources hd hc

/-- Settles O28: by the flag's frame of the effect. -/
theorem onlyCompareAndSetcWriteFlag : Obligations.OnlyCompareAndSetcWriteFlag := by
  rintro i s t h (hw | hcnt)
  · obtain ⟨k, -, rfl⟩ | ⟨-, rfl⟩ := exec_next_cases h
    · rfl
    · exact effectOf_c s hw
  · obtain ⟨k, rfl⟩ := exec_uncounted h hcnt
    rfl

/-- Settles O29: by the buffer's frames of the effect. -/
theorem onlyStoresWriteBuf : Obligations.OnlyStoresWriteBuf := by
  intro i s t h
  refine ⟨fun hno => ?_, fun a ha => ?_⟩
  · obtain hstore | hcnt := hno
    · obtain ⟨k, -, rfl⟩ | ⟨-, rfl⟩ := exec_next_cases h
      · exact fun _ => rfl
      · exact effectOf_sameBytes s hstore
    · obtain ⟨k, rfl⟩ := exec_uncounted h hcnt
      exact fun _ => rfl
  · obtain ⟨k, -, rfl⟩ | ⟨-, rfl⟩ := exec_next_cases h
    · rfl
    · exact effectOf_bufByte_outside s ha

end Sys2Proof.Proofs
end

section
/-!
SUPPORT. What a command that passes its checks writes (20_memory R60), and the integer identities behind the field and
the scalar commands (40_field R101, R104, R107, 42_scalar R133 to R137).
-/

namespace Sys2Proof.Machine

open Sys2Proof.Claims

/-! ### Completed commands -/

section
variable {i : Instr} {s : State} (hc : checkOf i s = none)
include hc

/-- A command whose effect is one register write. -/
theorem exec_wroteReg {rd : RegIdx} {r : Reg} (heff : effectOf i s = s.setReg rd r) :
    ∃ t, exec i s = .next t ∧ WroteReg rd r.tag r.val.toNat s t := by
  refine ⟨_, exec_of_pass hc, ?_, ?_, fun q hq => ?_, ?_, fun a => ?_, retire_retired i s⟩
  all_goals rw [heff]
  · rw [State.retire_reg, State.setReg_reg_same]
  · rw [State.retire_reg, State.setReg_reg_same]
  · exact State.setReg_reg_other s hq r
  · rfl
  · rfl

theorem exec_wroteVal {rd : RegIdx} {tag : Tag} {v m : Nat} (heff : effectOf i s = s.setVal rd tag v) (hv : v < m)
    (hm : m ≤ 2 ^ 256) : ∃ t, exec i s = .next t ∧ WroteReg rd tag v s t := by
  have h := exec_wroteReg hc heff
  rwa [ofNat_val_toNat hv hm] at h

/-- A command whose effect is a store. -/
theorem exec_wroteBytes {ra : RegIdx} {addr : Nat} (heff : effectOf i s = s.storeVal ra addr) :
    ∃ t, exec i s = .next t ∧ WroteBytes addr (s.reg ra).val.toNat s t := by
  refine ⟨_, exec_of_pass hc, fun k hk => ?_, fun a ha => ?_, fun r => ?_, ?_, retire_retired i s⟩
  all_goals rw [heff, State.storeVal_eq]
  · have hlen : k < (toLE (s.valOf ra) 32).length := by rwa [toLE_length]
    rw [State.retire_bufByte, State.memWrite_bufByte_inside s hlen, List.getD_eq_getElem _ _ hlen, toLE_getElem,
      Nat.pow_mul]
    rfl
  · rw [State.retire_bufByte, State.memWrite_bufByte_other (by rwa [toLE_length])]
  · rw [State.retire_reg, State.memWrite_reg]
  · rw [State.retire_c, State.memWrite_c]

/-- A command whose effect is the flag alone. -/
theorem exec_wroteFlag {b : Bool} (heff : effectOf i s = s.setC b) :
    ∃ t, exec i s = .next t ∧ WroteFlag b s t := by
  refine ⟨_, exec_of_pass hc, ?_, fun r => ?_, fun a => ?_, retire_retired i s⟩
  all_goals rw [heff]; rfl

end

/-! ### Loads and stores -/

theorem leSum_eq_readLE (s : State) (addr n : Nat) : leSum s addr n = s.readLE addr n := by
  simp only [leSum, State.readLE_eq_sum, pow_mul, Nat.reducePow]

theorem bufCheck_pass {legal : List Nat} {len addr : Nat} (hlen : len ∈ legal) (haddr : addr + len ≤ 4096) :
    bufCheck bufSize legal len addr = none := (bufCheck_eq_none _ _ _ _).mpr ⟨hlen, haddr⟩

theorem need1_pass {s : State} {ra : RegIdx} {t : Tag} (h : (s.reg ra).tag = t) (ht : t ≠ .empty) : s.need1 ra t = none :=
  (need1_eq_none s ra t).mpr ⟨h ▸ ht, h⟩

theorem need2_pass {s : State} {ra rb : RegIdx} {t : Tag} (ha : (s.reg ra).tag = t) (hb : (s.reg rb).tag = t)
    (ht : t ≠ .empty) : s.need2 ra rb t = none := (need2_eq_none s ra rb t).mpr ⟨⟨ha ▸ ht, hb ▸ ht⟩, ha, hb⟩

theorem store_pass {s : State} {ra : RegIdx} {addr : Nat} {t : Tag} (haddr : addr + 32 ≤ 4096)
    (h : (s.reg ra).tag = t) (ht : t ≠ .empty) :
    (bufCheck bufSize [32] 32 addr).or (s.need1 ra t) = none :=
  Option.or_eq_none_iff.mpr ⟨bufCheck_pass List.mem_cons_self haddr, need1_pass h ht⟩

/-- The two have the same effect on equal operands. -/
theorem exec_msqr_eq_exec_mmul {s : State} {ra : RegIdx} (hra : (s.reg ra).tag = .sm) (rd : RegIdx) :
    exec (.msqr rd ra) s = exec (.mmul rd ra ra) s := by
  rw [exec_of_pass (i := .msqr rd ra) (need1_pass hra (by decide)),
    exec_of_pass (i := .mmul rd ra ra) (need2_pass hra hra (by decide))]
  rfl

/-! ### Residues -/

theorem fieldSubVal_cast {p : Nat} (hp : 0 < p) (a b : Nat) : (fieldSubVal p a b : Int) = ((a : Int) - b) % p :=
  Int.toNat_of_nonneg (Int.emod_nonneg _ (by omega))

theorem fieldInput_incl (n : Nat) : fieldInput .incl n = n := rfl

theorem fieldInput_ignore (n : Nat) : fieldInput .ignore n = n % 2 ^ 255 := rfl

/-- What bit 255 is worth modulo `P` (R101). -/
theorem pow_255_modEq : 2 ^ 255 ≡ 19 [MOD fieldP] := by decide

/-- Fermat's theorem for every integer that the prime does not divide. -/
theorem mul_pow_sub_two_of_not_dvd {p a : Nat} (hp : p.Prime) (h : ¬ p ∣ a) : a * a ^ (p - 2) ≡ 1 [MOD p] := by
  have hres : a % p ≡ a [MOD p] := Nat.mod_modEq a p
  have hpos : 0 < a % p := Nat.pos_of_ne_zero fun h0 => h (Nat.dvd_of_mod_eq_zero h0)
  exact (hres.mul (hres.pow _)).symm.trans (mul_pow_sub_two_modEq_one_of_prime hp hpos (Nat.mod_lt _ hp.pos))

theorem montInv_eq (c : Config) (v : Nat) :
    montInv c v = fromMont c v ^ (c.ell - 2) % c.ell * c.montR % c.ell := by
  rw [montInv, toMont, powMod_eq]

section
variable {c : Config} (hwf : c.WF)
include hwf

/-- `SPACK`'s integer times `R` is the operand (R134). -/
theorem fromMont_mul_montR (v : Nat) : fromMont c v * c.montR ≡ v [MOD c.ell] := by
  have h : v * rinv c * c.montR ≡ v [MOD c.ell] := by
    rw [mul_right_comm]
    exact mul_montR_mul_rinv hwf v
  exact ((Nat.mod_modEq _ _).mul_right _).trans h

/-- The Montgomery product times `R` is the product (R135). -/
theorem montMul_mul_montR (a b : Nat) : montMul c a b * c.montR ≡ a * b [MOD c.ell] := fromMont_mul_montR hwf (a * b)

theorem montInv_zero : montInv c 0 = 0 := by
  have hexp : 0 < c.ell - 2 := by
    obtain ⟨hlow, -⟩ := hwf
    omega
  rw [montInv, fromMont, Nat.zero_mul, Nat.zero_mod, powMod_zero _ hexp, toMont, Nat.zero_mul, Nat.zero_mod]

/-- For a prime modulus the Montgomery product of a value and its `MINV` is the form of one (R137). -/
theorem montMul_montInv (hp : c.ell.Prime) {v : Nat} (h : ¬ c.ell ∣ v) : montMul c v (montInv c v) = c.montR % c.ell := by
  have hform := fromMont_mul_montR hwf v
  have hu : ¬ c.ell ∣ fromMont c v := fun hdvd =>
    h ((Nat.ModEq.dvd_iff hform dvd_rfl).mp (hdvd.mul_right _))
  have hinv : montInv c v ≡ fromMont c v ^ (c.ell - 2) * c.montR [MOD c.ell] := by
    rw [montInv_eq]
    exact (Nat.mod_modEq _ _).trans ((Nat.mod_modEq _ _).mul_right _)
  have hv : v * rinv c ≡ fromMont c v [MOD c.ell] := (Nat.mod_modEq _ _).symm
  refine (Nat.mod_eq_of_lt (montMul_lt hwf v _)).symm.trans ?_
  change montMul c v (montInv c v) ≡ c.montR [MOD c.ell]
  calc montMul c v (montInv c v)
    _ ≡ v * rinv c * montInv c v [MOD c.ell] := by
      rw [montMul, mul_right_comm]
      exact Nat.mod_modEq _ _
    _ ≡ fromMont c v * (fromMont c v ^ (c.ell - 2) * c.montR) [MOD c.ell] := hv.mul hinv
    _ = fromMont c v * fromMont c v ^ (c.ell - 2) * c.montR := (mul_assoc _ _ _).symm
    _ ≡ 1 * c.montR [MOD c.ell] := (mul_pow_sub_two_of_not_dvd hp hu).mul_right _
    _ = c.montR := one_mul _

end

end Sys2Proof.Machine
end

section
/-!
The commands (40_field sections 2 to 5, 41_select_compare R121, R122, 42_scalar sections 2 to 5).
-/

namespace Sys2Proof.Proofs

open Sys2Proof.Machine Sys2Proof.Claims

/-- Settles O35: the effect under each reading of the top bit. -/
theorem fldLoadsTheReducedInteger : Obligations.FldLoadsTheReducedInteger := by
  intro rd addr s haddr
  have hc : checkOf (.fld rd 32 addr) s = none := bufCheck_pass List.mem_cons_self haddr
  obtain ⟨t, hexec, hwrote⟩ := exec_wroteVal hc rfl (Nat.mod_lt _ fieldP_pos) fieldP_lt.le
  rw [← leSum_eq_readLE] at hwrote
  refine ⟨t, hexec, fun hincl => ?_, fun hignore => ?_⟩
  · rwa [hincl] at hwrote
  · rwa [hignore] at hwrote

/-- Settles O36: bit 255 is worth 2^255, which is 19 modulo `P`. -/
theorem topBitReadingsDifferByNineteen : Obligations.TopBitReadingsDifferByNineteen := by
  refine fun n hn => ⟨fun hlow => by rw [fieldInput_of_lt hlow, fieldInput_of_lt hlow], fun hhigh => ?_⟩
  obtain ⟨m, rfl⟩ := Nat.exists_eq_add_of_le hhigh
  have hm : m < 2 ^ 255 := by omega
  rw [fieldInput_ignore, fieldInput_incl, Nat.add_mod_left, Nat.mod_eq_of_lt hm]
  have heq : 2 ^ 255 + m ≡ m + 19 [MOD fieldP] := by
    rw [Nat.add_comm]
    exact pow_255_modEq.add_left m
  refine ⟨heq, fun hsame => ?_⟩
  have hdvd : 19 ≡ 0 [MOD fieldP] := (heq.symm.trans hsame).add_left_cancel' m
  exact absurd hdvd (by decide)

/-- Settles O37: the two stores have one effect, under the checks of their own tags. -/
theorem storesWriteTheValueBytes : Obligations.StoresWriteTheValueBytes :=
  fun _ _ _ haddr => ⟨fun htag => exec_wroteBytes (i := .fst _ 32 _) (store_pass haddr htag (by decide)) rfl,
    fun htag => exec_wroteBytes (i := .sst _ 32 _) (store_pass haddr htag (by decide)) rfl⟩

/-- Settles O38: the effects of the two commands. -/
theorem faddFsubAreModular : Obligations.FaddFsubAreModular := by
  intro rd ra rb s ha hb
  have hc : s.need2 ra rb .fe = none := need2_pass ha hb (by decide)
  have hlt := fieldSubVal_lt fieldP_pos (s.valOf ra) (s.valOf rb)
  refine ⟨exec_wroteVal (i := .fadd rd ra rb) hc rfl (Nat.mod_lt _ fieldP_pos) fieldP_lt.le, ?_⟩
  obtain ⟨t, hexec, hwrote⟩ := exec_wroteVal (i := .fsub rd ra rb) hc rfl hlt fieldP_lt.le
  exact ⟨t, _, hexec, hwrote, hlt, fieldSubVal_cast fieldP_pos _ _⟩

/-- Settles O39: the effect of `FMUL`, which is that of `FSQR` on equal operands. -/
theorem fmulFsqrAreModular : Obligations.FmulFsqrAreModular := by
  intro rd ra rb s ha
  have hmul (rb : RegIdx) (hb : (s.reg rb).tag = .fe) :
      ∃ t, exec (.fmul rd ra rb) s = .next t ∧ WroteReg rd .fe (s.valOf ra * s.valOf rb % fieldP) s t :=
    exec_wroteVal (i := .fmul rd ra rb) (need2_pass ha hb (by decide)) rfl (Nat.mod_lt _ fieldP_pos) fieldP_lt.le
  refine ⟨hmul rb, ?_⟩
  obtain ⟨t, hexec, hwrote⟩ := hmul ra ha
  rw [← pow_two] at hwrote
  exact ⟨t, (exec_fsqr_eq_exec_fmul ha rd).trans hexec, hexec, hwrote⟩

/-- Settles O40: the power is the inverse by Fermat's theorem. -/
theorem finvIsTheFermatInverse : Obligations.FinvIsTheFermatInverse := by
  intro rd ra s ha
  have hc : checkOf (.finv rd ra) s = none := need1_pass ha (by decide)
  obtain ⟨t, hexec, hwrote⟩ := exec_wroteVal hc rfl (powMod_lt _ _ fieldP_pos) fieldP_lt.le
  refine ⟨t, _, hexec, hwrote, powMod_eq _ _ _, fun hzero => ?_, fun hdvd => ?_⟩
  · rw [State.valOf, hzero]
    exact powMod_zero _ (by decide)
  · rw [powMod_eq, Nat.mul_mod_mod]
    exact Eq.trans (mul_pow_sub_two_of_not_dvd fieldP_prime hdvd) (Nat.mod_eq_of_lt fieldP_prime.one_lt)

/-- Settles O41: both lengths are legal, and the effect reads all the bytes. -/
theorem sldLoadsTheReducedInteger : Obligations.SldLoadsTheReducedInteger := by
  intro rd len addr s hwf hlen haddr
  have hc : checkOf (.sld rd len addr) s = none := bufCheck_pass (by simpa using hlen) haddr
  rw [leSum_eq_readLE]
  exact exec_wroteVal hc rfl (Nat.mod_lt _ (wf_ell_pos hwf)) (wf_ell_lt hwf).le

/-- Settles O42: the effects, and `R` times its inverse is one. -/
theorem sunpackSpackConvert : Obligations.SunpackSpackConvert := by
  intro rd ra s hwf
  refine ⟨fun htag => ?_, fun htag => ?_⟩
  · exact exec_wroteVal (i := .sunpack rd ra) (need1_pass htag (by decide)) rfl (toMont_lt hwf _) (wf_ell_lt hwf).le
  · have hlt := fromMont_lt hwf (s.valOf ra)
    obtain ⟨t, hexec, hwrote⟩ :=
      exec_wroteVal (i := .spack rd ra) (need1_pass htag (by decide)) rfl hlt (wf_ell_lt hwf).le
    exact ⟨t, _, hexec, hwrote, hlt, fromMont_mul_montR hwf _⟩

/-- Settles O43: the effect of `MMUL`, which is that of `MSQR` on equal operands. -/
theorem mmulMsqrAreMontgomeryProducts : Obligations.MmulMsqrAreMontgomeryProducts := by
  intro rd ra rb s hwf ha
  have hmul (rb : RegIdx) (hb : (s.reg rb).tag = .sm) : ∃ (t : State) (v : Nat), exec (.mmul rd ra rb) s = .next t ∧
      WroteReg rd .sm v s t ∧ v < s.cfg.ell ∧ v * s.cfg.montR ≡ s.valOf ra * s.valOf rb [MOD s.cfg.ell] := by
    have hlt := montMul_lt hwf (s.valOf ra) (s.valOf rb)
    obtain ⟨t, hexec, hwrote⟩ :=
      exec_wroteVal (i := .mmul rd ra rb) (need2_pass ha hb (by decide)) rfl hlt (wf_ell_lt hwf).le
    exact ⟨t, _, hexec, hwrote, hlt, montMul_mul_montR hwf _ _⟩
  refine ⟨hmul rb, ?_⟩
  obtain ⟨t, v, hexec, hwrote, hlt, hprod⟩ := hmul ra ha
  rw [← pow_two] at hprod
  exact ⟨t, v, (exec_msqr_eq_exec_mmul ha rd).trans hexec, hexec, hwrote, hlt, hprod⟩

/-- Settles O44: `MINV` computes on the integer that `SPACK` would write. -/
theorem minvIsTheMontgomeryInverse : Obligations.MinvIsTheMontgomeryInverse := by
  intro rd ra s hwf htag
  have hlt : montInv s.cfg (s.valOf ra) < s.cfg.ell := toMont_lt hwf _
  obtain ⟨t, hexec, hwrote⟩ :=
    exec_wroteVal (i := .minv rd ra) (need1_pass htag (by decide)) rfl hlt (wf_ell_lt hwf).le
  refine ⟨t, _, fromMont s.cfg (s.valOf ra), hexec, hwrote, hlt, fromMont_lt hwf _, fromMont_mul_montR hwf _,
    montInv_eq _ _, fun hzero => ?_, fun hp hdvd => montMul_montInv hwf hp hdvd⟩
  rw [State.valOf, hzero]
  exact montInv_zero hwf

/-- Settles O45: the flag is the equality of the values. -/
theorem ceqComparesValues : Obligations.CeqComparesValues := by
  intro ra rb s ha hb
  obtain ⟨t, hexec, hwrote⟩ := exec_wroteFlag (i := .ceq ra rb) (State.needSame_of_sameTag ha hb) rfl
  refine ⟨t, hexec, fun heq => ?_, fun hne => ?_⟩
  · rwa [State.compareFlag, beq_iff_eq.mpr heq] at hwrote
  · rwa [State.compareFlag, beq_eq_false_iff_ne.mpr hne] at hwrote

/-- Settles O46: `CSEL` copies the whole register that the flag names, the sources having one tag. -/
theorem cselSelectsByFlag : Obligations.CselSelectsByFlag := by
  intro rd ra rb s ha hb
  have hsel (rb : RegIdx) (hb : (s.reg rb).tag = (s.reg ra).tag) : ∃ t, exec (.csel rd ra rb) s = .next t ∧
      WroteReg rd (s.reg ra).tag (s.selected ra rb).val.toNat s t :=
    exec_wroteReg (i := .csel rd ra rb) (State.needSame_of_sameTag ha hb) rfl
  refine ⟨fun hc => ?_, fun hc => ?_, ?_⟩
  · have h := hsel rb hb
    rwa [State.selected_of_sameTag hb, hc] at h
  · have h := hsel rb hb
    rwa [State.selected_of_sameTag hb, hc] at h
  · have h := hsel ra rfl
    rwa [State.selected_of_sameTag rfl, ite_self] at h

end Sys2Proof.Proofs
end

section
/-!
SUPPORT. The field datapath (43_datapath R150 to R156, R165): each carry keeps the integer of the limbs modulo `P` and
brings the limbs below a bound; products, sums and differences of limbs are those of the integers.
-/

namespace Sys2Proof.Machine

theorem and_m51 (n : Nat) : n &&& m51 = n % 2 ^ 51 := Nat.and_two_pow_sub_one_eq_mod n 51

theorem modEq_of_add_mul_fieldP {x y k : Nat} (h : x + k * fieldP = y) : x ≡ y [MOD fieldP] := by
  rw [← h, Nat.ModEq, Nat.add_mul_mod_self_right]

/-! ### The carries -/

/-- The carry out of the top limb goes round as 19 times itself, 2^255 being 19 modulo `P` (R154). -/
theorem carryChain_value (c : Limbs) : value51 (carryChain c) ≡ value51 c [MOD fieldP] := by
  refine modEq_of_add_mul_fieldP
    (k := (c.l4 + (c.l3 + (c.l2 + (c.l1 + c.l0 / 2 ^ 51) / 2 ^ 51) / 2 ^ 51) / 2 ^ 51) / 2 ^ 51) ?_
  simp only [carryChain, and_m51, Nat.shiftRight_eq_div_pow, value51, fieldP]
  omega

/-- Columns in the multiplier's bounds leave a carry below 2^57 to go round, so limb 1 alone exceeds 51 bits (R154). -/
theorem carryChain_bounds {c : Limbs} (h : c.below (2 ^ 112)) (h4 : c.l4 < 2 ^ 107) :
    (carryChain c).l0 ≤ 2 ^ 51 - 1 ∧ (carryChain c).l1 < 2 ^ 51 + 2 ^ 11 ∧ (carryChain c).l2 ≤ 2 ^ 51 - 1 ∧
      (carryChain c).l3 ≤ 2 ^ 51 - 1 ∧ (carryChain c).l4 ≤ 2 ^ 51 - 1 := by
  obtain ⟨h0, h1, h2, h3, -⟩ := h
  simp only [carryChain, and_m51, Nat.shiftRight_eq_div_pow]
  omega

theorem weakReduce_value (h : Limbs) : value51 (weakReduce h) ≡ value51 h [MOD fieldP] := by
  refine modEq_of_add_mul_fieldP (k := h.l4 / 2 ^ 51) ?_
  simp only [weakReduce, and_m51, Nat.shiftRight_eq_div_pow, value51, fieldP]
  omega

theorem weakReduce_feBound {h : Limbs} (hb : h.below (2 ^ 56)) : (weakReduce h).FeBound := by
  obtain ⟨h0, h1, h2, h3, h4⟩ := hb
  simp only [Limbs.FeBound, Limbs.below, weakReduce, and_m51, Nat.shiftRight_eq_div_pow]
  omega

/-! ### The multiplier and the squarer -/

/-- The integer of the columns exceeds the product by the folded terms, a multiple of `P` (R153). -/
theorem fieldColumns_value (a b : Limbs) : value51 (fieldColumns a b) ≡ value51 a * value51 b [MOD fieldP] := by
  refine modEq_of_add_mul_fieldP
    (k := a.l1 * b.l4 + a.l2 * b.l3 + a.l3 * b.l2 + a.l4 * b.l1 +
      (a.l2 * b.l4 + a.l3 * b.l3 + a.l4 * b.l2) * 2 ^ 51 + (a.l3 * b.l4 + a.l4 * b.l3) * 2 ^ 102 +
      a.l4 * b.l4 * 2 ^ 153) ?_
  simp only [fieldColumns, value51, fieldP]
  ring

/-- No limb of the first exceeds the second's. -/
structure Limbs.Le (a b : Limbs) : Prop where
  l0 : a.l0 ≤ b.l0
  l1 : a.l1 ≤ b.l1
  l2 : a.l2 ≤ b.l2
  l3 : a.l3 ≤ b.l3
  l4 : a.l4 ≤ b.l4

/-- The largest limbs below 2^52. -/
def maxLimbs : Limbs := ⟨m52, m52, m52, m52, m52⟩

theorem Limbs.le_maxLimbs {a : Limbs} (h : a.below (2 ^ 52)) : a.Le maxLimbs := by
  obtain ⟨h0, h1, h2, h3, h4⟩ := h
  exact ⟨Nat.le_pred_of_lt h0, Nat.le_pred_of_lt h1, Nat.le_pred_of_lt h2, Nat.le_pred_of_lt h3, Nat.le_pred_of_lt h4⟩

theorem fieldColumns_mono {a a' b b' : Limbs} (ha : a.Le a') (hb : b.Le b') :
    (fieldColumns a b).Le (fieldColumns a' b') := by
  obtain ⟨a0, a1, a2, a3, a4⟩ := ha
  obtain ⟨b0, b1, b2, b3, b4⟩ := hb
  constructor <;> simp only [fieldColumns] <;> gcongr

/-- The columns are largest for the largest limbs (R153). -/
theorem fieldColumns_bounds {a b : Limbs} (ha : a.FeBound) (hb : b.FeBound) :
    (fieldColumns a b).below (2 ^ 112) ∧ (fieldColumns a b).l4 < 2 ^ 107 := by
  obtain ⟨h0, h1, h2, h3, h4⟩ := fieldColumns_mono (Limbs.le_maxLimbs ha) (Limbs.le_maxLimbs hb)
  exact ⟨⟨h0.trans_lt (by decide), h1.trans_lt (by decide), h2.trans_lt (by decide), h3.trans_lt (by decide),
    h4.trans_lt (by decide)⟩, h4.trans_lt (by decide)⟩

theorem fieldMulLimbs_value (a b : Limbs) : value51 (fieldMulLimbs a b) ≡ value51 a * value51 b [MOD fieldP] :=
  (carryChain_value _).trans (fieldColumns_value a b)

theorem fieldMulLimbs_feBound {a b : Limbs} (ha : a.FeBound) (hb : b.FeBound) : (fieldMulLimbs a b).FeBound := by
  obtain ⟨hcols, hcol4⟩ := fieldColumns_bounds ha hb
  obtain ⟨h0, h1, h2, h3, h4⟩ := carryChain_bounds hcols hcol4
  simp only [Limbs.FeBound, Limbs.below, fieldMulLimbs]
  omega

/-- Equal factors make the products of a column equal in pairs (R155). -/
theorem squareColumns_eq (a : Limbs) : squareColumns a = fieldColumns a a := by
  simp only [squareColumns, fieldColumns, Limbs.mk.injEq]
  refine ⟨?_, ?_, ?_, ?_, ?_⟩ <;> ring

theorem fieldSqrLimbs_eq (a : Limbs) : fieldSqrLimbs a = fieldMulLimbs a a := congrArg carryChain (squareColumns_eq a)

/-! ### The adder -/

section
variable {a b : Limbs} (ha : a.FeBound) (hb : b.FeBound)
include ha hb

theorem add_below : Limbs.below (2 ^ 53) ⟨a.l0 + b.l0, a.l1 + b.l1, a.l2 + b.l2, a.l3 + b.l3, a.l4 + b.l4⟩ := by
  obtain ⟨a0, a1, a2, a3, a4⟩ := ha
  obtain ⟨b0, b1, b2, b3, b4⟩ := hb
  simp only [Limbs.below]
  omega

omit ha in
/-- No limb of the difference borrows (R156). -/
theorem below_subBias : b.l0 < subBias.l0 ∧ b.l1 < subBias.l1 ∧ b.l2 < subBias.l2 ∧ b.l3 < subBias.l3 ∧
    b.l4 < subBias.l4 := by
  obtain ⟨b0, b1, b2, b3, b4⟩ := hb
  simp only [subBias]
  omega

omit hb in
theorem sub_below (b : Limbs) : Limbs.below (2 ^ 56)
    ⟨a.l0 + subBias.l0 - b.l0, a.l1 + subBias.l1 - b.l1, a.l2 + subBias.l2 - b.l2, a.l3 + subBias.l3 - b.l3,
      a.l4 + subBias.l4 - b.l4⟩ := by
  obtain ⟨a0, a1, a2, a3, a4⟩ := ha
  simp only [Limbs.below, subBias]
  omega

theorem fieldAddLimbs_feBound : (fieldAddLimbs a b).FeBound := by
  obtain ⟨h0, h1, h2, h3, h4⟩ := add_below ha hb
  refine weakReduce_feBound ⟨?_, ?_, ?_, ?_, ?_⟩ <;> dsimp only at * <;> omega

omit hb in
theorem fieldSubLimbs_feBound (b : Limbs) : (fieldSubLimbs a b).FeBound := weakReduce_feBound (sub_below ha b)

omit ha in
/-- The bias is a multiple of `P`, so adding `b` back gives `a` modulo `P` (R156). -/
theorem fieldSubLimbs_value (a : Limbs) : value51 (fieldSubLimbs a b) + value51 b ≡ value51 a [MOD fieldP] := by
  obtain ⟨h0, h1, h2, h3, h4⟩ := below_subBias hb
  refine ((weakReduce_value _).add_right _).trans (Nat.ModEq.symm (modEq_of_add_mul_fieldP (k := 16) ?_))
  simp only [subBias] at h0 h1 h2 h3 h4
  simp only [value51, subBias, fieldP]
  omega

end

theorem fieldAddLimbs_value (a b : Limbs) : value51 (fieldAddLimbs a b) ≡ value51 a + value51 b [MOD fieldP] := by
  refine (weakReduce_value _).trans (congrArg (· % fieldP) ?_)
  simp only [value51]
  ring

end Sys2Proof.Machine
end

section
/-!
SUPPORT. The ends of the field datapath (43_datapath R152, R165): the deserializer's slices and the canonical form.
-/

namespace Sys2Proof.Machine

/-! ### The deserializer -/

/-- The slices of 51 bits make up the low 255 bits. -/
theorem slices51 (n : Nat) : n % 2 ^ 51 + n / 2 ^ 51 % 2 ^ 51 * 2 ^ 51 + n / 2 ^ 102 % 2 ^ 51 * 2 ^ 102 +
    n / 2 ^ 153 % 2 ^ 51 * 2 ^ 153 + n / 2 ^ 204 % 2 ^ 51 * 2 ^ 204 = n % 2 ^ 255 := by
  omega

/-- The top bit counts 19 where it counts (R152). -/
theorem fieldDeserialize_value (tb : TopBit) {n : Nat} (hn : n < 2 ^ 256) :
    value51 (fieldDeserialize tb n) ≡ fieldInput tb n [MOD fieldP] := by
  have hslices := slices51 n
  cases tb with
  | incl =>
    refine modEq_of_add_mul_fieldP (k := n / 2 ^ 255) ?_
    simp only [fieldDeserialize, fieldInput, value51, and_m51, Nat.and_one_is_mod, Nat.shiftRight_eq_div_pow, fieldP]
    omega
  | ignore =>
    simp only [fieldDeserialize, fieldInput, value51, and_m51, Nat.shiftRight_eq_div_pow, Nat.add_zero, hslices]
    rfl

theorem fieldDeserialize_bounds (tb : TopBit) (n : Nat) :
    (fieldDeserialize tb n).l0 < 2 ^ 51 + 19 ∧ (fieldDeserialize tb n).FeBound := by
  have hbit : n / 2 ^ 255 % 2 < 2 := Nat.mod_lt _ (by decide)
  cases tb
  all_goals
    simp only [fieldDeserialize, Limbs.FeBound, Limbs.below, and_m51, Nat.and_one_is_mod, Nat.shiftRight_eq_div_pow]
    omega

/-! ### The canonical form -/

/-- The weak reduction leaves an integer below twice `P` (R165). -/
theorem weakReduce_lt {x : Limbs} (h : x.FeBound) : value51 (weakReduce x) < 2 * fieldP := by
  obtain ⟨h0, h1, h2, h3, h4⟩ := h
  simp only [value51, weakReduce, and_m51, Nat.shiftRight_eq_div_pow, fieldP]
  omega

/-- What the carries take out of the top limb when `c` is added at the bottom. -/
def carryOut (c : Nat) (h : Limbs) : Nat :=
  (h.l4 + (h.l3 + (h.l2 + (h.l1 + (h.l0 + c) / 2 ^ 51) / 2 ^ 51) / 2 ^ 51) / 2 ^ 51) / 2 ^ 51

/-- The limbs left when `c` is added at the bottom and every carry is taken, the last one dropped. -/
def carryLimbs (c : Nat) (h : Limbs) : Limbs :=
  ⟨(h.l0 + c) % 2 ^ 51, (h.l1 + (h.l0 + c) / 2 ^ 51) % 2 ^ 51,
    (h.l2 + (h.l1 + (h.l0 + c) / 2 ^ 51) / 2 ^ 51) % 2 ^ 51,
    (h.l3 + (h.l2 + (h.l1 + (h.l0 + c) / 2 ^ 51) / 2 ^ 51) / 2 ^ 51) % 2 ^ 51,
    (h.l4 + (h.l3 + (h.l2 + (h.l1 + (h.l0 + c) / 2 ^ 51) / 2 ^ 51) / 2 ^ 51) / 2 ^ 51) % 2 ^ 51⟩

theorem carryOut_eq (c : Nat) (h : Limbs) : carryOut c h = (value51 h + c) / 2 ^ 255 := by
  simp only [carryOut, value51]
  omega

theorem carryLimbs_value (c : Nat) (h : Limbs) : value51 (carryLimbs c h) = (value51 h + c) % 2 ^ 255 := by
  simp only [carryLimbs, value51]
  omega

theorem carryLimbs_below (c : Nat) (h : Limbs) : (carryLimbs c h).below (2 ^ 51) := by
  simp only [carryLimbs, Limbs.below]
  omega

/-- R165 in two passes: the first finds whether `P` is to be subtracted, the second subtracts it. -/
theorem canonicalize_eq (x : Limbs) :
    canonicalize x = carryLimbs (19 * carryOut 19 (weakReduce x)) (weakReduce x) := by
  simp only [canonicalize, carryLimbs, carryOut, and_m51, Nat.shiftRight_eq_div_pow]

/-- One conditional subtraction of `P`, by adding 19 and dropping bit 255. -/
theorem mod_fieldP_of_lt {v : Nat} (hv : v < 2 * fieldP) :
    (v + 19 * ((v + 19) / 2 ^ 255)) % 2 ^ 255 = v % fieldP := by
  obtain hlow | hhigh := Nat.lt_or_ge (v + 19) (2 ^ 255)
  · have hlt : v < fieldP := by
      unfold fieldP
      omega
    rw [Nat.div_eq_of_lt hlow, Nat.mul_zero, Nat.add_zero, Nat.mod_eq_of_lt hlt, Nat.mod_eq_of_lt (by omega)]
  · have hle : fieldP ≤ v := by
      unfold fieldP
      omega
    have hsub : v - fieldP < fieldP := by omega
    have hquot : (v + 19) / 2 ^ 255 = 1 := by
      unfold fieldP at hv
      omega
    have hsplit : v + 19 = v - fieldP + 2 ^ 255 := by
      unfold fieldP at hle ⊢
      omega
    rw [hquot, Nat.mul_one, hsplit, Nat.add_mod_right, Nat.mod_eq_sub_mod hle, Nat.mod_eq_of_lt hsub,
      Nat.mod_eq_of_lt (hsub.trans (by decide))]

theorem canonicalize_value {x : Limbs} (h : x.FeBound) : value51 (canonicalize x) = value51 x % fieldP := by
  rw [canonicalize_eq, carryLimbs_value, carryOut_eq, mod_fieldP_of_lt (weakReduce_lt h)]
  exact weakReduce_value x

theorem canonicalize_feCanonical {x : Limbs} (h : x.FeBound) : (canonicalize x).FeCanonical := by
  refine ⟨?_, ?_⟩
  · rw [canonicalize_eq]
    exact carryLimbs_below _ _
  · rw [canonicalize_value h]
    exact Nat.mod_lt _ fieldP_pos

end Sys2Proof.Machine
end

section
/-!
SUPPORT. The inversion chain over any multiplier (43_datapath R157): what the squarer and the multiplier keep of a row and
its exponent, the chain keeps of all its rows.
-/

namespace Sys2Proof.Machine

section
variable {α β : Type} {R : α → β → Prop} {sqr : α → α} {mul : α → α → α} {sqr' : β → β} {mul' : β → β → β} {a : α} {b : β}

theorem sqrTimes_rel (hsqr : ∀ x y, R x y → R (sqr x) (sqr' y)) (n : Nat) {x : α} {y : β} (h : R x y) :
    R (sqrTimes sqr n x) (sqrTimes sqr' n y) := by
  induction n generalizing x y with
  | zero => exact h
  | succ n ih => exact ih (hsqr x y h)

theorem getD_rel {rows : List α} {rows' : List β} (hrows : List.Forall₂ R rows rows') (h : R a b) (k : Nat) :
    R (rows.getD k a) (rows'.getD k b) := by
  induction hrows generalizing k with
  | nil => simpa using h
  | cons hhead _ ih =>
    cases k with
    | zero => simpa using hhead
    | succ k => simpa using ih k

variable (hsqr : ∀ x y, R x y → R (sqr x) (sqr' y))
  (hmul : ∀ x y x' y', R x y → R x' y' → R (mul x x') (mul' y y')) (h : R a b)
include hsqr hmul h

theorem chainRow_rel {rows : List α} {rows' : List β} (hrows : List.Forall₂ R rows rows') (op : ChainOp) :
    R (chainRow sqr mul a rows op) (chainRow sqr' mul' b rows' op) := by
  cases op with
  | sqr n x => exact sqrTimes_rel hsqr n (getD_rel hrows h x)
  | mul x y => exact hmul _ _ _ _ (getD_rel hrows h x) (getD_rel hrows h y)

theorem chainRows_rel (ops : List ChainOp) {rows : List α} {rows' : List β} (hrows : List.Forall₂ R rows rows') :
    List.Forall₂ R (chainRows sqr mul a ops rows) (chainRows sqr' mul' b ops rows') := by
  induction ops generalizing rows rows' with
  | nil => exact hrows
  | cons op ops ih => exact ih (List.rel_append hrows (.cons (chainRow_rel hsqr hmul h hrows op) .nil))

theorem runChain_rel (ops : List ChainOp) : R (runChain sqr mul ops a) (runChain sqr' mul' ops b) := by
  have hrows := chainRows_rel hsqr hmul h ops (.cons h .nil)
  unfold runChain
  generalize chainRows sqr mul a ops [a] = rows at hrows
  generalize chainRows sqr' mul' b ops [b] = rows' at hrows
  rw [List.getLastD_eq_getLast?, List.getLastD_eq_getLast?, List.getLast?_eq_getElem?, List.getLast?_eq_getElem?,
    ← List.getD_eq_getElem?_getD, ← List.getD_eq_getElem?_getD, hrows.length_eq]
  exact getD_rel hrows h _

end

/-- The limbs are in the bound and represent the power `v^e` (R157). -/
structure IsPower (v : Nat) (h : Limbs) (e : Nat) : Prop where
  feBound : h.FeBound
  value_modEq : value51 h ≡ v ^ e [MOD fieldP]

theorem IsPower.mul {v : Nat} {g h : Limbs} {d e : Nat} (hg : IsPower v g d) (hh : IsPower v h e) :
    IsPower v (fieldMulLimbs g h) (d + e) := by
  refine ⟨fieldMulLimbs_feBound hg.feBound hh.feBound, (fieldMulLimbs_value g h).trans ?_⟩
  rw [pow_add]
  exact hg.value_modEq.mul hh.value_modEq

theorem IsPower.sqr {v : Nat} {h : Limbs} {e : Nat} (hh : IsPower v h e) : IsPower v (fieldSqrLimbs h) (2 * e) := by
  rw [fieldSqrLimbs_eq, two_mul]
  exact hh.mul hh

/-- The exponents of the rows of `FINV`'s chain, the operand's first (R157). -/
theorem finvChain_exponents : chainRows (fun e : Nat => 2 * e) (fun e f : Nat => e + f) 1 finvChain [1] =
    [1, 2, 8, 9, 11, 22, 2 ^ 5 - 1, 2 ^ 10 - 2 ^ 5, 2 ^ 10 - 1, 2 ^ 20 - 2 ^ 10, 2 ^ 20 - 1, 2 ^ 40 - 2 ^ 20,
      2 ^ 40 - 1, 2 ^ 50 - 2 ^ 10, 2 ^ 50 - 1, 2 ^ 100 - 2 ^ 50, 2 ^ 100 - 1, 2 ^ 200 - 2 ^ 100, 2 ^ 200 - 1,
      2 ^ 250 - 2 ^ 50, 2 ^ 250 - 1, 2 ^ 255 - 2 ^ 5, fieldP - 2] := by decide +kernel

theorem fieldInvLimbs_isPower {a : Limbs} (h : a.FeBound) : IsPower (value51 a) (fieldInvLimbs a) (fieldP - 2) := by
  have hone : IsPower (value51 a) a 1 := ⟨h, by rw [pow_one]⟩
  have hrun := runChain_rel (fun _ _ => IsPower.sqr) (fun _ _ _ _ => IsPower.mul) hone finvChain
  have hlast : runChain (fun e : Nat => 2 * e) (fun e f : Nat => e + f) finvChain 1 = fieldP - 2 := by
    rw [runChain, finvChain_exponents]
    rfl
  rwa [hlast] at hrun

end Sys2Proof.Machine
end

section
/-!
SUPPORT. The comparator and the select (43_datapath R166, R167).
-/

namespace Sys2Proof.Machine

theorem orBits_eq_false_iff (d : Val) (n : Nat) : orBits d n = false ↔ ∀ k < n, d.getLsbD k = false := by
  induction n with
  | zero => simp [orBits]
  | succ n ih =>
    rw [orBits, Bool.or_eq_false_iff, ih, Nat.forall_lt_succ_right, and_comm]

theorem compareVals_iff (a b : Val) : compareVals a b = true ↔ a = b := by
  rw [compareVals, Bool.not_eq_true', orBits_eq_false_iff]
  refine ⟨fun h => ?_, fun h k _ => ?_⟩
  · refine BitVec.eq_of_getLsbD_eq fun k hk => ?_
    simpa using h k hk
  · simp [h]

/-- Canonical limbs have equal integers exactly for equal residues, and the integers fit the comparator (R166). -/
theorem compareFieldLimbs_iff {a b : Limbs} (ha : a.FeBound) (hb : b.FeBound) :
    compareFieldLimbs a b = true ↔ value51 a % fieldP = value51 b % fieldP := by
  rw [compareFieldLimbs, compareVals_iff, canonicalize_value ha, canonicalize_value hb]
  refine ⟨fun h => ?_, fun h => by rw [h]⟩
  have hnat := congrArg BitVec.toNat h
  rwa [ofNat_val_toNat (Nat.mod_lt _ fieldP_pos) fieldP_lt.le, ofNat_val_toNat (Nat.mod_lt _ fieldP_pos) fieldP_lt.le]
    at hnat

theorem choiceMask_false (n : Nat) : choiceMask n false = 0 := by simp [choiceMask]

theorem choiceMask_true (n : Nat) : choiceMask n true = BitVec.allOnes n := by
  have hone : (BitVec.ofBool true).setWidth n = 1#n := BitVec.eq_of_toNat_eq (by simp)
  rw [choiceMask, hone, zero_sub, BitVec.neg_one_eq_allOnes]

/-- The bitmask select on words of `n` bits (R122, R167). -/
theorem xor_and_choiceMask {n : Nat} (c : Bool) (a b : BitVec n) :
    a ^^^ (choiceMask n c &&& (a ^^^ b)) = if c then b else a := by
  cases c with
  | false => simp [choiceMask_false]
  | true => rw [choiceMask_true, BitVec.allOnes_and, ← BitVec.xor_assoc, BitVec.xor_self, BitVec.zero_xor]; rfl

theorem selectLimb_eq (c : Bool) {a b : Nat} (ha : a < 2 ^ 52) (hb : b < 2 ^ 52) :
    selectLimb c a b = if c then b else a := by
  rw [selectLimb, xor_and_choiceMask]
  cases c
  · exact Nat.mod_eq_of_lt (ha.trans (by decide))
  · exact Nat.mod_eq_of_lt (hb.trans (by decide))

theorem selectLimbs_eq (c : Bool) {a b : Limbs} (ha : a.FeBound) (hb : b.FeBound) :
    selectLimbs c a b = if c then b else a := by
  obtain ⟨a0, a1, a2, a3, a4⟩ := ha
  obtain ⟨b0, b1, b2, b3, b4⟩ := hb
  rw [selectLimbs, selectLimb_eq c a0 b0, selectLimb_eq c a1 b1, selectLimb_eq c a2 b2, selectLimb_eq c a3 b3,
    selectLimb_eq c a4 b4]
  cases c <;> rfl

end Sys2Proof.Machine
end

section
/-!
The field datapath, the comparator and the select (43_datapath sections 1 to 3, 6 and 7).
-/

namespace Sys2Proof.Proofs

open Sys2Proof.Machine

/-- Settles O51: the columns in their bounds, then the carry chain on such columns. -/
theorem fieldMultiplierRefinesTheProduct : Obligations.FieldMultiplierRefinesTheProduct := by
  intro a b ha hb
  obtain ⟨hcols, hcol4⟩ := fieldColumns_bounds ha hb
  obtain ⟨h0, h1, h2, h3, h4⟩ := carryChain_bounds hcols hcol4
  exact ⟨hcols, hcol4, fieldMulLimbs_feBound ha hb, h0, h1, h2, h3, h4, fieldMulLimbs_value a b⟩

/-- Settles O52: by the symmetry of the factors. -/
theorem squarerGivesTheMultipliersLimbs : Obligations.SquarerGivesTheMultipliersLimbs :=
  fun a => ⟨squareColumns_eq a, fieldSqrLimbs_eq a⟩

/-- Settles O53: the weak reduction of the sum, and of the difference biased by a multiple of `P`. -/
theorem fieldAdderRefinesSumAndDifference : Obligations.FieldAdderRefinesSumAndDifference := by
  refine ⟨by decide, fun a b ha hb => ⟨add_below ha hb, below_subBias hb, sub_below ha b, fieldAddLimbs_feBound ha hb,
    fieldSubLimbs_feBound ha b, fieldAddLimbs_value a b, ?_⟩⟩
  have hsum := (Int.natCast_modEq_iff.mpr (fieldSubLimbs_value hb a)).sub_right (value51 b : Int)
  rwa [Nat.cast_add, add_sub_cancel_right] at hsum

/-- Settles O54: the slices, the canonical form and its bytes. -/
theorem fieldSerializersRefineTheResidue : Obligations.FieldSerializersRefineTheResidue := by
  refine ⟨fun tb n hn => ?_, fun h hb => ⟨canonicalize_feCanonical hb, canonicalize_value hb, ?_⟩⟩
  · obtain ⟨hlow, hbound⟩ := fieldDeserialize_bounds tb n
    exact ⟨hlow, hbound, fieldDeserialize_value tb hn⟩
  · rw [fieldSerialize, canonicalize_value hb]

/-- Settles O55: the counts and the exponents by evaluation; the limbs keep the power of each row's exponent. -/
theorem fieldInverterRefinesThePower : Obligations.FieldInverterRefinesThePower := by
  refine ⟨by decide +kernel, by decide +kernel, finvChain_exponents, fun a ha => ?_⟩
  obtain ⟨hbound, hpower⟩ := fieldInvLimbs_isPower ha
  refine ⟨hbound, ?_⟩
  rw [powMod_eq, ← Nat.pow_mod]
  exact hpower

/-- Settles O60: the XOR is zero exactly for equal values; the mask is all ones or all zeros. -/
theorem comparatorAndSelectRefine : Obligations.ComparatorAndSelectRefine :=
  ⟨compareVals_iff, fun _ _ => compareFieldLimbs_iff, fun c a b => xor_and_choiceMask c a b,
    fun c _ _ => selectLimbs_eq c⟩

end Sys2Proof.Proofs
end

section
/-!
SUPPORT. The scalar datapath (43_datapath R158 to R164): the limb form, the Montgomery reduction word by word, the final
masked subtraction, and the exponentiation by the bits of its exponent.
-/

namespace Sys2Proof.Machine

open Sys2Proof.Claims

/-! ### The limb form -/

theorem shiftRight_words (n k : Nat) : n >>> (52 * k) = n / (2 ^ 52) ^ k := by
  rw [Nat.shiftRight_eq_div_pow, pow_mul]

theorem and_m52 (n : Nat) : n &&& m52 = n % 2 ^ 52 := Nat.and_two_pow_sub_one_eq_mod n 52

theorem scalarLimbs_below (n : Nat) : (scalarLimbs n).below (2 ^ 52) := by
  simp only [scalarLimbs, Limbs.below, and_m52]
  omega

/-- The slices of 52 bits make up the low 260 bits (R158). -/
theorem scalarLimbs_value {n : Nat} (h : n < (2 ^ 52) ^ 5) : value52 (scalarLimbs n) = n := by
  simp only [scalarLimbs, value52, and_m52, Nat.shiftRight_eq_div_pow]
  omega

/-! ### The columns -/

theorem scalarProduct_eq (a b : Limbs) : scalarProduct a b = value52 a * value52 b := by
  simp only [scalarProduct, scalarColumns, columnSum, value52]
  ring

theorem scalarColumns_mono {a a' b b' : Limbs} (ha : a.Le a') (hb : b.Le b') :
    List.Forall₂ (· ≤ ·) (scalarColumns a b) (scalarColumns a' b') := by
  obtain ⟨a0, a1, a2, a3, a4⟩ := ha
  obtain ⟨b0, b1, b2, b3, b4⟩ := hb
  simp only [scalarColumns, List.forall₂_cons, List.Forall₂.nil, and_true]
  refine ⟨?_, ?_, ?_, ?_, ?_, ?_, ?_, ?_, ?_⟩ <;> gcongr

/-- The columns are largest for the largest limbs (R159). -/
theorem scalarColumns_bound {a b : Limbs} (ha : a.below (2 ^ 52)) (hb : b.below (2 ^ 52)) :
    ∀ z ∈ scalarColumns a b, z < 2 ^ 107 := by
  intro z hz
  have hmono := scalarColumns_mono (Limbs.le_maxLimbs ha) (Limbs.le_maxLimbs hb)
  have hmax : ∀ m ∈ scalarColumns maxLimbs maxLimbs, m < 2 ^ 107 := by decide
  obtain ⟨k, hk, rfl⟩ := List.getElem_of_mem hz
  have hk' : k < (scalarColumns maxLimbs maxLimbs).length := hmono.length_eq ▸ hk
  exact (hmono.get hk hk').trans_lt (hmax _ (List.getElem_mem hk'))

/-! ### The masked subtraction -/

/-- One limb of the subtraction: the borrow is one bit, and stands for 2^52 (R161). -/
theorem subLimb_spec {u l bw : Nat} (hu : u < 2 ^ 52) (hl : l < 2 ^ 52) (hbw : bw ≤ 1) :
    (subLimb u l bw).1 < 2 ^ 52 ∧ (subLimb u l bw).2 ≤ 1 ∧
      (subLimb u l bw).1 + l + bw = u + (subLimb u l bw).2 * 2 ^ 52 := by
  simp only [subLimb, and_m52, Nat.shiftRight_eq_div_pow]
  omega

/-- The limbs of `u − l` with borrow, and the last borrow. -/
def subLimbs (u l : Limbs) : Limbs × Nat :=
  let d0 := subLimb u.l0 l.l0 0
  let d1 := subLimb u.l1 l.l1 d0.2
  let d2 := subLimb u.l2 l.l2 d1.2
  let d3 := subLimb u.l3 l.l3 d2.2
  let d4 := subLimb u.l4 l.l4 d3.2
  (⟨d0.1, d1.1, d2.1, d3.1, d4.1⟩, d4.2)

/-- The limbs of `d + l` with carry, the last carry dropped. -/
def addLimbs (d l : Limbs) : Limbs :=
  let e0 := addLimb d.l0 l.l0 0
  let e1 := addLimb d.l1 l.l1 e0.2
  let e2 := addLimb d.l2 l.l2 e1.2
  let e3 := addLimb d.l3 l.l3 e2.2
  let e4 := addLimb d.l4 l.l4 e3.2
  ⟨e0.1, e1.1, e2.1, e3.1, e4.1⟩

/-- The limbs of `l`, all of them under the mask of the borrow `b` (R161). -/
def maskLimbs (b : Nat) (l : Limbs) : Limbs :=
  let mask := (2 ^ 52 - b) &&& m52
  ⟨l.l0 &&& mask, l.l1 &&& mask, l.l2 &&& mask, l.l3 &&& mask, l.l4 &&& mask⟩

theorem maskedSub_eq (ell : Nat) (u : Limbs) : maskedSub ell u =
    addLimbs (subLimbs u (scalarLimbs ell)).1 (maskLimbs (subLimbs u (scalarLimbs ell)).2 (scalarLimbs ell)) := rfl

theorem value52_lt {h : Limbs} (hb : h.below (2 ^ 52)) : value52 h < (2 ^ 52) ^ 5 := by
  obtain ⟨h0, h1, h2, h3, h4⟩ := hb
  simp only [value52]
  omega

theorem subLimbs_spec {u l : Limbs} (hu : u.below (2 ^ 52)) (hl : l.below (2 ^ 52)) :
    (subLimbs u l).1.below (2 ^ 52) ∧ (subLimbs u l).2 ≤ 1 ∧
      value52 (subLimbs u l).1 + value52 l = value52 u + (subLimbs u l).2 * (2 ^ 52) ^ 5 := by
  obtain ⟨u0, u1, u2, u3, u4⟩ := hu
  obtain ⟨l0, l1, l2, l3, l4⟩ := hl
  obtain ⟨hd0, hb0, he0⟩ := subLimb_spec u0 l0 (Nat.zero_le 1)
  obtain ⟨hd1, hb1, he1⟩ := subLimb_spec u1 l1 hb0
  obtain ⟨hd2, hb2, he2⟩ := subLimb_spec u2 l2 hb1
  obtain ⟨hd3, hb3, he3⟩ := subLimb_spec u3 l3 hb2
  obtain ⟨hd4, hb4, he4⟩ := subLimb_spec u4 l4 hb3
  refine ⟨⟨hd0, hd1, hd2, hd3, hd4⟩, hb4, ?_⟩
  simp only [subLimbs, value52]
  omega

theorem addLimbs_below (d l : Limbs) : (addLimbs d l).below (2 ^ 52) := by
  simp only [addLimbs, addLimb, Limbs.below, and_m52]
  omega

theorem addLimbs_value (d l : Limbs) : value52 (addLimbs d l) = (value52 d + value52 l) % (2 ^ 52) ^ 5 := by
  simp only [addLimbs, addLimb, value52, and_m52, Nat.shiftRight_eq_div_pow]
  omega

theorem maskLimbs_zero (l : Limbs) : maskLimbs 0 l = ⟨0, 0, 0, 0, 0⟩ := by
  have hmask : (2 ^ 52 - 0) &&& m52 = 0 := by decide
  simp only [maskLimbs, hmask, Nat.and_zero]

theorem maskLimbs_one {l : Limbs} (h : l.below (2 ^ 52)) : maskLimbs 1 l = l := by
  obtain ⟨h0, h1, h2, h3, h4⟩ := h
  have hmask : (2 ^ 52 - 1) &&& m52 = m52 := by decide
  simp only [maskLimbs, hmask, and_m52, Nat.mod_eq_of_lt h0, Nat.mod_eq_of_lt h1, Nat.mod_eq_of_lt h2,
    Nat.mod_eq_of_lt h3, Nat.mod_eq_of_lt h4]

theorem maskedSub_below (ell : Nat) (u : Limbs) : (maskedSub ell u).below (2 ^ 52) := by
  rw [maskedSub_eq]
  exact addLimbs_below _ _

/-- The masked subtraction is one conditional subtraction (R161): without a borrow `u − ℓ` stands, with one `ℓ` is added
back. -/
theorem maskedSub_value {ell : Nat} {u : Limbs} (hell : ell < (2 ^ 52) ^ 5) (hu : u.below (2 ^ 52)) (hlt : value52 u < 2 * ell) :
    value52 (maskedSub ell u) = value52 u % ell := by
  obtain ⟨hd, hb, hsub⟩ := subLimbs_spec hu (scalarLimbs_below ell)
  have hdlt := value52_lt hd
  have hult := value52_lt hu
  rw [maskedSub_eq, addLimbs_value]
  rw [scalarLimbs_value hell] at hsub
  obtain hzero | hone := Nat.le_one_iff_eq_zero_or_eq_one.mp hb
  · rw [hzero] at hsub ⊢
    have hge : ell ≤ value52 u := by omega
    rw [maskLimbs_zero, Nat.mod_eq_sub_mod hge, Nat.mod_eq_of_lt (by omega : value52 u - ell < ell)]
    simp only [value52] at hsub hdlt ⊢
    omega
  · rw [hone] at hsub ⊢
    rw [maskLimbs_one (scalarLimbs_below ell), scalarLimbs_value hell, hsub, Nat.one_mul, Nat.add_mod_right,
      Nat.mod_eq_of_lt hult, Nat.mod_eq_of_lt (by omega)]

/-! ### The Montgomery reduction -/

theorem invModGo_lt {k r0 r1 t0 t1 m : Nat} (h0 : t0 < m) (h1 : t1 < m) : invModGo k r0 r1 t0 t1 m < m := by
  induction k generalizing r0 r1 t0 t1 with
  | zero => exact h0
  | succ k ih =>
    rw [invModGo]
    split
    · exact h0
    · exact ih h1 (Nat.mod_lt _ (Nat.zero_lt_of_lt h0))

theorem invMod_lt (a : Nat) {m : Nat} (hm : 1 < m) : invMod a m < m :=
  invModGo_lt (Nat.zero_lt_of_lt hm) (Nat.mod_lt _ (Nat.zero_lt_of_lt hm))

/-- `LFACTOR · ℓ ≡ −1` modulo one word (00_scope R8). -/
theorem lfactor_mul {ell : Nat} (hodd : ell % 2 = 1) : lfactor ell * ell + 1 ≡ 0 [MOD 2 ^ 52] := by
  have hcop : Nat.gcd (ell % 2 ^ 52) (2 ^ 52) = 1 :=
    Nat.Coprime.pow_right 52 (Nat.coprime_two_right.mpr (Nat.odd_iff.mpr (by omega)))
  have hlt := invMod_lt (ell % 2 ^ 52) (m := 2 ^ 52) (by decide)
  have hinv : 1 ≡ invMod (ell % 2 ^ 52) (2 ^ 52) * ell [MOD 2 ^ 52] := by
    have h := invMod_mul (ell % 2 ^ 52) (2 ^ 52) (by decide) hcop
    rw [Nat.mul_mod_mod] at h
    exact h.symm
  unfold lfactor
  generalize invMod (ell % 2 ^ 52) (2 ^ 52) = inv at hlt hinv
  calc (2 ^ 52 - inv) % 2 ^ 52 * ell + 1
    _ ≡ (2 ^ 52 - inv) * ell + inv * ell [MOD 2 ^ 52] := ((Nat.mod_modEq _ _).mul_right ell).add hinv
    _ = 2 ^ 52 * ell := by rw [← Nat.add_mul, Nat.sub_add_cancel hlt.le]
    _ ≡ 0 [MOD 2 ^ 52] := Nat.modEq_zero_iff_dvd.mpr (dvd_mul_right _ _)

/-- One more word of zeros at the bottom, at the price of at most a word of multiples of `ℓ` (R160). -/
theorem redcStep_spec {ell i t : Nat} (hodd : ell % 2 = 1) (ht : (2 ^ 52) ^ i ∣ t) :
    (2 ^ 52) ^ (i + 1) ∣ redcStep ell i t ∧ redcStep ell i t ≤ t + (2 ^ 52 - 1) * ell * (2 ^ 52) ^ i ∧
      redcStep ell i t ≡ t [MOD ell] := by
  obtain ⟨u, rfl⟩ := ht
  have hpos : 0 < (2 ^ 52) ^ i := Nat.pow_pos (by decide)
  simp only [redcStep, and_m52, shiftRight_words, pow_mul, Nat.mul_div_cancel_left u hpos]
  have hq : u % 2 ^ 52 * lfactor ell % 2 ^ 52 ≡ u * lfactor ell [MOD 2 ^ 52] :=
    (Nat.mod_modEq _ _).trans ((Nat.mod_modEq _ _).mul_right _)
  have hqlt : u % 2 ^ 52 * lfactor ell % 2 ^ 52 ≤ 2 ^ 52 - 1 := Nat.le_pred_of_lt (Nat.mod_lt _ (by decide))
  generalize u % 2 ^ 52 * lfactor ell % 2 ^ 52 = q at hq hqlt
  have hword : u + q * ell ≡ 0 [MOD 2 ^ 52] :=
    calc u + q * ell
      _ ≡ u + u * lfactor ell * ell [MOD 2 ^ 52] := (hq.mul_right ell).add_left u
      _ = u * (lfactor ell * ell + 1) := by ring
      _ ≡ u * 0 [MOD 2 ^ 52] := (lfactor_mul hodd).mul_left u
  refine ⟨?_, ?_, ?_⟩
  · rw [Nat.mul_comm _ u, ← Nat.add_mul, pow_succ']
    exact Nat.mul_dvd_mul (Nat.modEq_zero_iff_dvd.mp hword) dvd_rfl
  · gcongr
  · rw [Nat.mul_right_comm]
    exact (Nat.modEq_zero_iff_dvd.mpr (dvd_mul_left _ _)).add_left _

/-- The five words (R160). -/
theorem redcLoop_spec {ell : Nat} (hodd : ell % 2 = 1) (t : Nat) :
    (2 ^ 52) ^ 5 ∣ redcLoop ell t ∧ redcLoop ell t ≤ t + ((2 ^ 52) ^ 5 - 1) * ell ∧ redcLoop ell t ≡ t [MOD ell] := by
  obtain ⟨hdvd0, hle0, hmod0⟩ := redcStep_spec (i := 0) (t := t) hodd (one_dvd t)
  obtain ⟨hdvd1, hle1, hmod1⟩ := redcStep_spec (i := 1) hodd hdvd0
  obtain ⟨hdvd2, hle2, hmod2⟩ := redcStep_spec (i := 2) hodd hdvd1
  obtain ⟨hdvd3, hle3, hmod3⟩ := redcStep_spec (i := 3) hodd hdvd2
  obtain ⟨hdvd4, hle4, hmod4⟩ := redcStep_spec (i := 4) hodd hdvd3
  refine ⟨hdvd4, ?_, (((hmod4.trans hmod3).trans hmod2).trans hmod1).trans hmod0⟩
  unfold redcLoop
  omega

section
variable {ell t : Nat} (hodd : ell % 2 = 1) (ht : t < ell * (2 ^ 52) ^ 5)
include hodd ht

theorem redcLoop_quot_lt : redcLoop ell t / (2 ^ 52) ^ 5 < 2 * ell := by
  obtain ⟨-, hle, -⟩ := redcLoop_spec hodd t
  rw [Nat.div_lt_iff_lt_mul (Nat.pow_pos (by decide))]
  omega

variable (hell : ell < 2 ^ 253)
include hell

theorem redc_value : value52 (redc ell t) = redcLoop ell t / (2 ^ 52) ^ 5 % ell := by
  have hquot := redcLoop_quot_lt hodd ht
  have hlimbs : value52 (scalarLimbs (redcLoop ell t >>> 260)) = redcLoop ell t / (2 ^ 52) ^ 5 := by
    have hshift : redcLoop ell t >>> 260 = redcLoop ell t / (2 ^ 52) ^ 5 := shiftRight_words _ 5
    rw [hshift]
    exact scalarLimbs_value (by omega)
  rw [redc, maskedSub_value (by omega) (scalarLimbs_below _) (by rw [hlimbs]; exact hquot), hlimbs]

theorem redc_canonical : (redc ell t).ScCanonical ell := by
  refine ⟨maskedSub_below _ _, ?_⟩
  rw [redc_value hodd ht hell]
  exact Nat.mod_lt _ (by omega)

/-- What is shifted out is zero, so the result times `R` is the loop's integer, which is `T` modulo `ℓ`. -/
theorem redc_mul_radix : value52 (redc ell t) * (2 ^ 52) ^ 5 ≡ t [MOD ell] := by
  obtain ⟨hdvd, -, hmod⟩ := redcLoop_spec hodd t
  have hexact : redcLoop ell t / (2 ^ 52) ^ 5 * (2 ^ 52) ^ 5 = redcLoop ell t := Nat.div_mul_cancel hdvd
  rw [redc_value hodd ht hell]
  refine ((Nat.mod_modEq _ _).mul_right _).trans ?_
  rwa [hexact]

end

/-! ### The commands of the scalar unit -/

theorem fromMont_eq_of_modEq {c : Config} (hwf : c.WF) {t x : Nat} (h : t ≡ x * c.montR [MOD c.ell]) :
    fromMont c t = x % c.ell := (h.mul_right _).trans (mul_montR_mul_rinv hwf x)

theorem eq_fromMont_of_mul_montR {c : Config} (hwf : c.WF) {x t : Nat} (hx : x < c.ell)
    (h : x * c.montR ≡ t [MOD c.ell]) : x = fromMont c t := by
  rw [fromMont_eq_of_modEq hwf h.symm, Nat.mod_eq_of_lt hx]

/-- A factor below `R` and one below `ℓ` leave the product in the range of `REDC`. -/
theorem product_lt {ell x y : Nat} (hx : x < (2 ^ 52) ^ 5) (hy : y < ell) : x * y < ell * (2 ^ 52) ^ 5 := by
  rw [Nat.mul_comm ell]
  exact Nat.mul_lt_mul'' hx hy

section
variable {ell : Nat} (hwf : (datapathConfig ell).WF)
include hwf

/-- `REDC` is the model's `· R^−1 mod ℓ` (R160). -/
theorem redc_eq_fromMont {t : Nat} (ht : t < ell * (2 ^ 52) ^ 5) :
    value52 (redc ell t) = fromMont (datapathConfig ell) t ∧ (redc ell t).ScCanonical ell := by
  have ⟨_, hell, hodd, _⟩ := hwf
  have hcanon := redc_canonical hodd ht hell
  have ⟨_, hlt⟩ := hcanon
  exact ⟨eq_fromMont_of_mul_montR hwf hlt (redc_mul_radix hodd ht hell), hcanon⟩

/-- `REDC` of a multiple of `R`, up to residue, divides it out. -/
theorem redc_of_modEq {t x : Nat} (ht : t < ell * (2 ^ 52) ^ 5) (h : t ≡ x * (2 ^ 52) ^ 5 [MOD ell]) :
    value52 (redc ell t) = x % ell ∧ (redc ell t).ScCanonical ell := by
  obtain ⟨hval, hcanon⟩ := redc_eq_fromMont hwf ht
  exact ⟨hval.trans (fromMont_eq_of_modEq hwf h), hcanon⟩

theorem ell_lt : ell < 2 ^ 253 := by
  obtain ⟨-, hell, -⟩ := hwf
  exact hell

theorem lt_radix {x : Nat} (hx : x < ell) : x < (2 ^ 52) ^ 5 := (hx.trans (ell_lt hwf)).trans (by decide)

theorem dpR_lt : dpR ell < ell := Nat.mod_lt _ (wf_ell_pos hwf)

theorem dpRR_lt : dpRR ell < ell := Nat.mod_lt _ (wf_ell_pos hwf)

/-- So do two canonical operands. -/
theorem value52_mul_lt {a b : Limbs} (ha : a.ScCanonical ell) (hb : b.ScCanonical ell) :
    value52 a * value52 b < ell * (2 ^ 52) ^ 5 := by
  obtain ⟨-, ha⟩ := ha
  obtain ⟨-, hb⟩ := hb
  exact product_lt (lt_radix hwf ha) hb

theorem mmulLimbs_eq {a b : Limbs} (ha : a.ScCanonical ell) (hb : b.ScCanonical ell) :
    value52 (mmulLimbs ell a b) = montMul (datapathConfig ell) (value52 a) (value52 b) ∧
      (mmulLimbs ell a b).ScCanonical ell := by
  rw [mmulLimbs, scalarProduct_eq]
  exact redc_eq_fromMont hwf (value52_mul_lt hwf ha hb)

theorem sunpackLimbs_eq {a : Limbs} (ha : a.ScCanonical ell) :
    value52 (sunpackLimbs ell a) = toMont (datapathConfig ell) (value52 a) := by
  have hRR : value52 a * dpRR ell ≡ value52 a * (2 ^ 52) ^ 5 * (2 ^ 52) ^ 5 [MOD ell] := by
    rw [Nat.mul_assoc]
    exact (Nat.mod_modEq _ _).mul_left _
  obtain ⟨-, hlt⟩ := ha
  obtain ⟨hval, -⟩ := redc_of_modEq hwf (product_lt (lt_radix hwf hlt) (dpRR_lt hwf)) hRR
  rwa [sunpackLimbs, scalarProduct_eq, scalarLimbs_value (lt_radix hwf (dpRR_lt hwf))]

theorem spackLimbs_eq {a : Limbs} (ha : a.ScCanonical ell) :
    value52 (spackLimbs ell a) = fromMont (datapathConfig ell) (value52 a) := by
  obtain ⟨-, hlt⟩ := ha
  obtain ⟨hval, -⟩ := redc_eq_fromMont hwf (hlt.trans_le (Nat.le_mul_of_pos_right _ (by decide)))
  exact hval

/-! ### The load reduction -/

/-- An integer of at most five words through the Montgomery form of one: the residue (R162). -/
theorem redc_mul_dpR {n : Nat} (hn : n < (2 ^ 52) ^ 5) :
    value52 (redc ell (scalarProduct (scalarLimbs n) (scalarLimbs (dpR ell)))) = n % ell ∧
      (redc ell (scalarProduct (scalarLimbs n) (scalarLimbs (dpR ell)))).ScCanonical ell := by
  rw [scalarProduct_eq, scalarLimbs_value hn, scalarLimbs_value (lt_radix hwf (dpR_lt hwf))]
  exact redc_of_modEq hwf (product_lt hn (dpR_lt hwf)) ((Nat.mod_modEq _ _).mul_left n)

/-- The words above the fifth count `R` times. -/
theorem redc_mul_dpRR {n : Nat} (hn : n < (2 ^ 52) ^ 5) :
    value52 (redc ell (scalarProduct (scalarLimbs n) (scalarLimbs (dpRR ell)))) = n * (2 ^ 52) ^ 5 % ell := by
  have hRR : n * dpRR ell ≡ n * (2 ^ 52) ^ 5 * (2 ^ 52) ^ 5 [MOD ell] := by
    rw [Nat.mul_assoc]
    exact (Nat.mod_modEq _ _).mul_left _
  obtain ⟨hval, -⟩ := redc_of_modEq hwf (product_lt hn (dpRR_lt hwf)) hRR
  rwa [scalarProduct_eq, scalarLimbs_value hn, scalarLimbs_value (lt_radix hwf (dpRR_lt hwf))]

theorem sld64Limbs_eq {n : Nat} (hn : n < 2 ^ 512) :
    value52 (sld64Limbs ell n) = n % ell ∧ (sld64Limbs ell n).ScCanonical ell := by
  have hpos := wf_ell_pos hwf
  have hell := ell_lt hwf
  have hlow : n % (2 ^ 52) ^ 5 < (2 ^ 52) ^ 5 := Nat.mod_lt _ (by decide)
  have hhigh : n / (2 ^ 52) ^ 5 < (2 ^ 52) ^ 5 := by
    rw [Nat.div_lt_iff_lt_mul (by decide)]
    exact hn.trans (by decide +kernel)
  obtain ⟨hlo, -⟩ := redc_mul_dpR hwf hlow
  have hhi := redc_mul_dpRR hwf hhigh
  have hlolt : n % (2 ^ 52) ^ 5 % ell < ell := Nat.mod_lt _ hpos
  have hhilt : n / (2 ^ 52) ^ 5 * (2 ^ 52) ^ 5 % ell < ell := Nat.mod_lt _ hpos
  have hval : value52 (sld64Limbs ell n) = n % ell := by
    rw [sld64Limbs, hlo, hhi]
    rw [maskedSub_value (by omega) (scalarLimbs_below _), scalarLimbs_value (by omega)]
    · rw [← Nat.add_mod, Nat.mod_add_div']
    · rw [scalarLimbs_value (by omega)]
      omega
  exact ⟨hval, maskedSub_below _ _, hval ▸ Nat.mod_lt _ hpos⟩

end

/-! ### The exponentiation -/

/-- What squarer and multiplier keep of a value and its exponent, the exponentiation keeps down to the last bit of `e`
(R164). -/
theorem expBits_rel {α : Type} {sqr : α → α} {mul : α → α → α} {a : α} {R : α → Nat → Prop}
    (hsqr : ∀ x d, R x d → R (sqr x) (2 * d)) (hmul : ∀ x d, R x d → R (mul x a) (d + 1)) (e k : Nat) {acc : α}
    (h : R acc (e / 2 ^ k)) : R (expBits sqr mul a e k acc) e := by
  induction k generalizing acc with
  | zero =>
    rw [Nat.pow_zero, Nat.div_one] at h
    exact h
  | succ k ih =>
    have hdiv : e / 2 ^ (k + 1) = e / 2 ^ k / 2 := by rw [Nat.pow_succ, Nat.div_div_eq_div_mul]
    rw [hdiv] at h
    have hbit := Nat.testBit_eq_decide_div_mod_eq (x := e) (i := k)
    rw [expBits]
    refine ih ?_
    split
    next hset =>
      have hodd : e / 2 ^ k % 2 = 1 := by simpa [hbit] using hset
      rw [show e / 2 ^ k = 2 * (e / 2 ^ k / 2) + 1 by omega]
      exact hmul _ _ (hsqr _ _ h)
    next hclear =>
      have heven : e / 2 ^ k % 2 ≠ 1 := by simpa [hbit] using hclear
      rw [show e / 2 ^ k = 2 * (e / 2 ^ k / 2) by omega]
      exact hsqr _ _ h

/-- Canonical limbs that are the Montgomery form of `u^d`. -/
structure IsMontPower (ell u : Nat) (h : Limbs) (d : Nat) : Prop where
  canonical : h.ScCanonical ell
  value_modEq : value52 h ≡ u ^ d * (2 ^ 52) ^ 5 [MOD ell]

theorem IsMontPower.mul {ell u : Nat} (hwf : (datapathConfig ell).WF) {g h : Limbs} {d e : Nat}
    (hg : IsMontPower ell u g d) (hh : IsMontPower ell u h e) : IsMontPower ell u (mmulLimbs ell g h) (d + e) := by
  obtain ⟨hval, hcanon⟩ := mmulLimbs_eq hwf hg.canonical hh.canonical
  have hprod : value52 g * value52 h ≡ u ^ (d + e) * (2 ^ 52) ^ 5 * (2 ^ 52) ^ 5 [MOD ell] := by
    refine (hg.value_modEq.mul hh.value_modEq).trans (congrArg (· % ell) ?_)
    rw [pow_add]
    ring
  refine ⟨hcanon, ?_⟩
  rw [hval]
  exact (congrArg (· % ell) (fromMont_eq_of_modEq hwf hprod)).trans (Nat.mod_mod _ _)

theorem minvLimbs_isMontPower {ell : Nat} (hwf : (datapathConfig ell).WF) (htop : 2 ^ 252 + 2 ≤ ell) {a : Limbs}
    (ha : a.ScCanonical ell) :
    IsMontPower ell (fromMont (datapathConfig ell) (value52 a)) (minvLimbs ell a) (ell - 2) := by
  have hone : IsMontPower ell (fromMont (datapathConfig ell) (value52 a)) a 1 := by
    refine ⟨ha, ?_⟩
    rw [pow_one]
    exact (fromMont_mul_montR hwf _).symm
  refine expBits_rel (fun x d hx => ?_) (fun x d hx => hx.mul hwf hone) (ell - 2) 252 ?_
  · rw [two_mul]
    exact hx.mul hwf hx
  · have hell := ell_lt hwf
    rwa [show (ell - 2) / 2 ^ 252 = 1 by omega]

theorem minvLimbs_eq {ell : Nat} (hwf : (datapathConfig ell).WF) (htop : 2 ^ 252 + 2 ≤ ell) {a : Limbs}
    (ha : a.ScCanonical ell) : value52 (minvLimbs ell a) = montInv (datapathConfig ell) (value52 a) := by
  obtain ⟨⟨-, hlt⟩, hval⟩ := minvLimbs_isMontPower hwf htop ha
  rw [montInv_eq, ← Nat.mod_eq_of_lt hlt, Nat.mod_mul_mod]
  exact hval

end Sys2Proof.Machine
end

section
/-!
The scalar datapath (43_datapath sections 4 and 5).
-/

namespace Sys2Proof.Proofs

open Sys2Proof.Machine Sys2Proof.Claims

/-- Settles O56: five words of zeros at the bottom, a bounded quotient, one masked subtraction. -/
theorem redcIsMontgomeryReduction : Obligations.RedcIsMontgomeryReduction := by
  intro ell T _ hell hodd hT
  obtain ⟨hdvd, -⟩ := redcLoop_spec hodd T
  exact ⟨Nat.mod_eq_zero_of_dvd hdvd, redcLoop_quot_lt hodd hT, redc_canonical hodd hT hell, redc_mul_radix hodd hT hell⟩

/-- Settles O57: each unit is `REDC` of a product, or of the operand, in its range. -/
theorem scalarUnitRefinesTheIntegerRules : Obligations.ScalarUnitRefinesTheIntegerRules := by
  intro ell a b hwf ha hb
  obtain ⟨hmmul, hcanon⟩ := mmulLimbs_eq hwf ha hb
  have ⟨habelow, _⟩ := ha
  have ⟨hbbelow, _⟩ := hb
  exact ⟨scalarColumns_bound habelow hbbelow, scalarProduct_eq a b, hmmul, hcanon, rfl, sunpackLimbs_eq hwf ha,
    spackLimbs_eq hwf ha⟩

/-- Settles O58: one `REDC`, or the masked subtraction of two. -/
theorem scalarLoadReductionIsModEll : Obligations.ScalarLoadReductionIsModEll :=
  fun _ _ hwf => ⟨fun hn => redc_mul_dpR hwf (hn.trans (by decide)), fun hn => sld64Limbs_eq hwf hn⟩

/-- Settles O59: the limbs keep the Montgomery form of the power of the bits read; the counts by evaluation. -/
theorem scalarInverterRefinesMinv : Obligations.ScalarInverterRefinesMinv :=
  ⟨fun _ _ hwf htop ha => ⟨(minvLimbs_isMontPower hwf htop ha).canonical, minvLimbs_eq hwf htop ha⟩, by decide +kernel,
    by decide +kernel⟩

end Sys2Proof.Proofs
end
